-- ==== Sys2Proof/Word.lean ====
section
/-! DEFINITION. The word types of the hardware (00_scope.md R11): no value is signed, a bit is 0 or 1. -/

namespace Sys2Proof

/-- A byte, 8 bits, unsigned (R11). -/
abbrev Byte := BitVec 8

/-- A 16-bit host register or flash address (R11). -/
abbrev Word16 := BitVec 16

/-- A 32-bit host register (R11). -/
abbrev Word32 := BitVec 32

/-- A bit or a line level: `true` is 1, the high level (R11). -/
abbrev Bit := Bool

end Sys2Proof
end

