-- ==== Sys2Proof/Config.lean ====
section
/-! DEFINITION. The named constants of 00_scope.md R8, the OPEN constants (D29) and the free values.
What the spec gives a value is a definition with that value; what it leaves open is `opaque`, with no body. -/

namespace Sys2Proof.Config

/-! ## Bit transport -/

/-- How far `T_SETTLE` exceeds its minimum: left to the implementation (R8, R284). -/
opaque settleExtra : Nat

/-- `T_SETTLE`: "minimum 1 time-unit", a parameter ≥ 1 (R8, R284). -/
def tSettle : Nat := settleExtra + 1

/-! ## Register access -/

/-- `WAIT_TRIES_WR` (R8). -/
def waitTriesWr : Nat := 20
/-- `WAIT_TRIES_RD` (R8). -/
def waitTriesRd : Nat := 50
/-- `WAIT_GAP` (R8). -/
def waitGap : Nat := 1

/-! ## PI protocol -/

/-- `BUSY_TRIES` (R8). -/
def busyTries : Nat := 20
/-- `BUSY_GAP` (R8). -/
def busyGap : Nat := 1
/-- `READY_GAP` (R8, D11). -/
def readyGap : Nat := 1
/-- The reset value of `POLL_OUT`, "100 by default" (R8, R31). -/
def pollOutReset : Word32 := 100#32
/-- `AR_OUT_READY`: mask of the ready bit in the byte Read AR returns (R8, R106). -/
def arOutReady : Byte := 0x01#8
/-- `AR_IN_BUSY`: mask of the busy bit in the byte Read AR returns (R8, R106). -/
def arInBusy : Byte := 0x02#8
/-- `PI_RESP_OK` (R8, R105). -/
def piRespOk : Byte := 0x0D#8
/-- `PI_RESP_INVALID` (R8, R105). -/
def piRespInvalid : Byte := 0x00#8
/-- `PI_RESP_FAILED` (R8, R105). -/
def piRespFailed : Byte := 0x02#8
/-- `PI_GET_VERSION` (R8, R102). -/
def piGetVersion : Byte := 0x01#8
/-- `PI_GET_DERIVATIVE` (R8, R102). -/
def piGetDerivative : Byte := 0x02#8

/-- The six PI command bytes the source names without a value (R102, D29). -/
structure PiCodes where
  deviceErase : Byte
  blockRead   : Byte
  blockWrite  : Byte
  pageErase   : Byte
  directRead  : Byte
  directWrite : Byte
deriving DecidableEq, Repr, Inhabited

/-- The OPEN constants `PI_DEVICE_ERASE` to `PI_DIRECT_WRITE` (R8, D29): no value may be assumed (N8). -/
opaque piCodes : PiCodes

/-- No two of the eight PI command bytes are equal. The spec does not say so (N8): a hypothesis where it is needed. -/
def PiCodes.Distinct (c : PiCodes) : Prop :=
  [piGetVersion, piGetDerivative, c.deviceErase, c.blockRead, c.blockWrite, c.pageErase, c.directRead,
    c.directWrite].Nodup

/-! ## Flash operations -/

/-- `SUBBLOCK_MAX` (R8). -/
def subblockMax : Nat := 256
/-- `DIRECT_LEN` (R8). -/
def directLen : Byte := 0x01#8
/-- `ERASE_TERM` (R8). -/
def eraseTerm : Byte := 0x00#8
/-- `ERASE_KEY`, the three bytes in order (R8, R108). -/
def eraseKey0 : Byte := 0xDE#8
/-- Second byte of `ERASE_KEY` (R8, R108). -/
def eraseKey1 : Byte := 0xAD#8
/-- Third byte of `ERASE_KEY` (R8, R108). -/
def eraseKey2 : Byte := 0xA5#8
/-- `ERRATUM_REG` (R8, R108). -/
def erratumReg : Byte := 0xF5#8
/-- `ERRATUM_VAL` (R8, R108). -/
def erratumVal : Byte := 0x11#8
/-- `RESET_LOW`, a lower bound (R8). -/
def resetLow : Nat := 20
/-- The OPEN constant `FPCTL_ADDR`, the reset value of the register of that name (R8, R30, N7). -/
opaque fpctlAddr : Byte
/-- `FPCTL_RESET` (R8, R107). -/
def fpctlReset : Byte := 0x02#8
/-- `FPCTL_CORE_RESET` (R8, R107). -/
def fpctlCoreReset : Byte := 0x04#8
/-- `FPCTL_HALT` (R8, R107). -/
def fpctlHalt : Byte := 0x01#8
/-- `HALT_SETTLE` (R8). -/
def haltSettle : Nat := 30000
/-- `AR_DEVICEID` (R8, R74). -/
def arDeviceId : Byte := 0x00#8
/-- `AR_REVID` (R8, R74). -/
def arRevId : Byte := 0x01#8

/-! ## Buffers and addresses -/

/-- How far `BUF_SIZE` exceeds its lower bound (R8, D24). -/
opaque bufExtra : Nat
/-- `BUF_SIZE`, a parameter ≥ 256 (R8, R39, D24). -/
def bufSize : Nat := bufExtra + 256
/-- How far `SCRATCH_SIZE` exceeds its lower bound (R8, D24). -/
opaque scratchExtra : Nat
/-- `SCRATCH_SIZE`, a parameter that "must hold one page" (R8, R40, D24). A page has at least one byte (R8: "a positive
power-of-two"), and no more is assumed of it (log 6). -/
def scratchSize : Nat := scratchExtra + 1
/-- The size of the flash address space, `ADDR_BITS` = 16 (R8, R63). -/
def flashSpace : Nat := 65536

/-! ## Free values (93_implementation_defined.md, `any value`) -/

/-- The level of the released data line at the n-th sample, where the environment's list of answers has run out
(R44, U8): nothing constrains it. -/
opaque freeSample : Nat → Bit
/-- A byte to which the spec gives no value (R35, R46, U5, U6). -/
opaque freeByte : Nat → Byte
/-- A 32-bit value to which the spec gives no value (R35, R46, U5, U6, R28). -/
opaque freeWord : Nat → Word32

end Sys2Proof.Config
end

