-- ==== Sys2Proof/Syntax.lean ====
section
/-! DEFINITION. The instructions: one constructor per row of spec/opcode_table.json, in the table's order
(30_encoding.md R90: frames, PI bytes, FPCTL bytes, host commands). The hardware fetches no instructions (R2, R36):
an "instruction" is a code that one layer of the core, or the host, hands to the layer below it. -/

namespace Sys2Proof

/-- The six code spaces of the table (its column "format"; R90). -/
inductive Space where
  | frame     -- C2FRAME
  | pi        -- PIBYTE
  | resp      -- PIRESP
  | fpctl     -- FPCTLBYTE
  | arStatus  -- ARSTATUS
  | host      -- HOSTCMD
deriving DecidableEq, Repr

/-- One constructor per row of the table. A frame or PI command carries the operands its encoding carries; a host
command takes its operands from the host registers (R109). -/
inductive Instr where
  /-- WRITE_AR_FRAME, INS 3, address `a` (R93). -/
  | writeArFrame (a : Byte)
  /-- READ_AR_FRAME, INS 2 (R94). -/
  | readArFrame
  /-- WRITE_DR_FRAME, INS 1, LENGTH 00, data `d` (R95). -/
  | writeDrFrame (d : Byte)
  /-- READ_DR_FRAME, INS 0, LENGTH 00 (R96). -/
  | readDrFrame
  /-- PI_GET_VERSION (R102, R103). -/
  | piGetVersion
  /-- PI_GET_DERIVATIVE (R102, R103). -/
  | piGetDerivative
  /-- PI_DEVICE_ERASE with its fixed key (R102, R103). -/
  | piDeviceErase
  /-- PI_BLOCK_READ of `n` bytes, 1 to 256, at flash address `addr` (R102 to R104). -/
  | piBlockRead (addr : Word16) (n : Nat)
  /-- PI_BLOCK_WRITE of `n` bytes, 1 to 256, at flash address `addr` (R102 to R104). -/
  | piBlockWrite (addr : Word16) (n : Nat)
  /-- PI_PAGE_ERASE of page index `page`, with its terminator (R102 to R104). -/
  | piPageErase (page : Byte)
  /-- PI_DIRECT_READ of register number `reg`, with its length byte (R102 to R104). -/
  | piDirectRead (reg : Byte)
  /-- PI_DIRECT_WRITE of `v` to register number `reg`, with its length byte (R102 to R104). -/
  | piDirectWrite (reg : Byte) (v : Byte)
  /-- PI_RESP_OK (R105). -/
  | piRespOk
  /-- PI_RESP_INVALID (R105). -/
  | piRespInvalid
  /-- PI_RESP_FAILED (R105). -/
  | piRespFailed
  /-- FPCTL_RESET (R107). -/
  | fpctlReset
  /-- FPCTL_CORE_RESET (R107). -/
  | fpctlCoreReset
  /-- FPCTL_HALT (R107). -/
  | fpctlHalt
  /-- AR_OUT_READY (R106). -/
  | arOutReady
  /-- AR_IN_BUSY (R106). -/
  | arInBusy
  /-- WRITE_AR, opcode 0x10 (R109). -/
  | writeAr
  /-- READ_AR, opcode 0x11 (R109). -/
  | readAr
  /-- WRITE_DR, opcode 0x12 (R109). -/
  | writeDr
  /-- READ_DR, opcode 0x13 (R109). -/
  | readDr
  /-- PI_WRITE, opcode 0x20 (R109). -/
  | piWrite
  /-- PI_GET, opcode 0x21 (R109). -/
  | piGet
  /-- PI_CHECK_OK, opcode 0x22 (R109). -/
  | piCheckOk
  /-- PI_COMMAND, opcode 0x23 (R109). -/
  | piCommand
  /-- READ_DIRECT, opcode 0x30 (R109). -/
  | readDirect
  /-- WRITE_DIRECT, opcode 0x31 (R109). -/
  | writeDirect
  /-- BLOCK_READ, opcode 0x32 (R109). -/
  | blockRead
  /-- BLOCK_WRITE, opcode 0x33 (R109). -/
  | blockWrite
  /-- ERASE_PAGE, opcode 0x34 (R109). -/
  | erasePage
  /-- ERASE_DEVICE, opcode 0x35 (R109). -/
  | eraseDevice
  /-- RESET_HALT, opcode 0x36 (R109). -/
  | resetHalt
  /-- GET_DEVICE_INFO, opcode 0x37 (R109). -/
  | getDeviceInfo
  /-- GET_PI_INFO, opcode 0x38 (R109). -/
  | getPiInfo
  /-- FLASH_CHUNK, opcode 0x40 (R109). -/
  | flashChunk
deriving DecidableEq, Repr

/-- The code space an instruction belongs to. -/
def Instr.space : Instr → Space
  | .writeArFrame _ | .readArFrame | .writeDrFrame _ | .readDrFrame => .frame
  | .piGetVersion | .piGetDerivative | .piDeviceErase | .piBlockRead _ _ | .piBlockWrite _ _ | .piPageErase _
  | .piDirectRead _ | .piDirectWrite _ _ => .pi
  | .piRespOk | .piRespInvalid | .piRespFailed => .resp
  | .fpctlReset | .fpctlCoreReset | .fpctlHalt => .fpctl
  | .arOutReady | .arInBusy => .arStatus
  | .writeAr | .readAr | .writeDr | .readDr | .piWrite | .piGet | .piCheckOk | .piCommand | .readDirect | .writeDirect
  | .blockRead | .blockWrite | .erasePage | .eraseDevice | .resetHalt | .getDeviceInfo | .getPiInfo | .flashChunk =>
    .host

end Sys2Proof
end

