-- ==== Sys2Proof/Machine/State.lean ====
section
/-! DEFINITION. The state of the core (10_state.md): pins, framer, host register file, local memories, sequencer position and
wire trace, with the inputs the host and the target give it. Plain data throughout. -/

namespace Sys2Proof.Machine

/-- The failure kinds (60_exceptions.md R250). -/
inductive FailKind where
  /-- A polling loop exhausted its retry budget (R251). -/
  | busTimeout
  /-- A PI response byte was not the OK code (R252). -/
  | protocolRejected
  /-- No family is selected (R253, 45_host_commands.md R238 check 2). -/
  | unsupportedDevice
  /-- External file failure: the code is reserved and the core never raises it (R250, R253). -/
  | storageIo
  /-- A host request the spec gives no other meaning (R238 checks 1 and 3 to 8). -/
  | illegalCommand
deriving DecidableEq, Repr

/-- What `set_data` puts on the data line (40_bit_transport.md R130). -/
inductive Level where
  | low
  | high
  | z
deriving DecidableEq, Repr

/-- The events of the wire trace (10_state.md R43). -/
inductive Event where
  /-- `CK0`, `CK1`. -/
  | ck (level : Bit)
  /-- `D0`, `D1`. -/
  | d (level : Bit)
  /-- `DZ`. -/
  | dz
  /-- `S0`, `S1`. -/
  | s (b : Bit)
  /-- `T(n)`, at least `n` time-units. -/
  | t (n : Nat)
deriving DecidableEq, Repr

/-- The sequencer position (10_state.md R36): idle, or running the operation whose opcode CMD holds, at the point reached
when the primitives already performed answered `answers`, oldest first. -/
inductive Seq where
  | idle
  | run (answers : List Byte)
deriving DecidableEq, Repr

/-- The host registers H0 to H18 by name (10_state.md R27). -/
inductive HReg where
  | cmd | status | addr | len | byte0 | byte1 | flags | res0 | res1 | resLen
  | pollOut | fpdatAddr | pageSize | familyCtl | fpctlAddr
  | deviceId | revisionId | piVersion | piDerivative
deriving DecidableEq, Repr

/-- One move at the core's inputs: what the host does next at the command port (45_host_commands.md R240), a call of one
lower layer (the source exposes each layer as functions, 45_host_commands.md), or reset. -/
inductive PortMove where
  /-- `W CMD <- op; wait`: the command is written and the host waits until `BUSY` = 0 (95_test_vectors.md section 4). -/
  | run (op : Byte)
  /-- A write of a host register; of `CMD`, it starts the operation and does not wait (R235). -/
  | write (r : HReg) (v : Word32)
  /-- A read of a host register. -/
  | read (r : HReg)
  /-- A write of `BUF[i]` (R39). -/
  | writeBuf (i : Nat) (b : Byte)
  /-- A read of `BUF[i]` (R39). -/
  | readBuf (i : Nat)
  /-- The host does nothing while the core performs one primitive (R37). -/
  | pass
  /-- The host waits until `BUSY` = 0. -/
  | wait
  /-- The bytes of one code handed to the layer of its code space (R3, R90). -/
  | layer (sp : Space) (bytes : List Byte)
  /-- Reset is asserted (70_reset_and_hazards.md R280). -/
  | reset
  /-- A second master drives the lines (R290, U1). -/
  | otherMaster
deriving DecidableEq, Repr

/-- A local memory (10_state.md R39, R40): the bytes that hold a value, index and byte, indices strictly rising. An index
that is not listed holds no value (R46). -/
abbrev Memory := List Host.Cell

/-- Why the machine stops with a fault. -/
inductive Fault where
  /-- `read_data` while the core drives the line (40_bit_transport.md R132, U2). Raised by `step` in the middle of an
  operation; no operation of the core does it. Safe: the run ends where the spec gives the sample no meaning. -/
  | sampleWhileDriven
  /-- A host access to `BUF[i]` with `i` not below `BUF_SIZE` (10_state.md R39, 20_memory.md R60). Raised by `step`. Safe:
  the index does not exist. -/
  | bufIndexOutOfRange
deriving DecidableEq, Repr

/-- Why the machine gives a move no meaning. -/
inductive Refusal where
  /-- The instruction has no meaning in this model. Raised by `exec`'s arms only. Safe. -/
  | notModelled (mnemonic : String)
  /-- A host read of the write-only register `CMD` (10_state.md R27, R28). Raised by `step`. Safe. -/
  | readOfWriteOnly
  /-- A host write of a read-only register (10_state.md R27, R28). Raised by `step`. Safe. -/
  | writeOfReadOnly
  /-- Bytes that the decoder of their layer refuses (30_encoding.md R97, R111, U10). Raised by `step`. Safe. -/
  | undecodable
  /-- A second master on the two lines (70_reset_and_hazards.md R290, U1: "a configuration with two is refused by name").
  Raised by `step`. Safe. -/
  | secondMaster
deriving DecidableEq, Repr

/-- The state of the core (10_state.md R20), then the model's own inputs. -/
structure State where
  /-- `CK`: the level the core drives on the clock line (R21). -/
  ck : Bit
  /-- `D_OE`: the core drives the data line (R22). -/
  dOe : Bit
  /-- `D_OUT`: the level driven while `D_OE` = 1 (R22). -/
  dOut : Bit
  /-- `D_PULLUP` (R23). -/
  dPullup : Bit
  /-- `SHIFT`: the byte being serialised or assembled (R25). -/
  shift : Byte
  /-- `BITCNT`: bits of the current field already transferred (R25). -/
  bitcnt : Nat
  /-- `TRYCNT`: tries of the current polling loop already made (R25). -/
  trycnt : Nat
  /-- H0 `CMD` (R27). -/
  cmd : Byte
  /-- H1 `STATUS` (R29). -/
  status : Byte
  /-- H2 `ADDR` (R27). -/
  addr : Word16
  /-- H3 `LEN` (R27). -/
  len : Word32
  /-- H4 `BYTE0` (R27). -/
  byte0 : Byte
  /-- H5 `BYTE1` (R27). -/
  byte1 : Byte
  /-- H6 `FLAGS` (R27). -/
  flags : Byte
  /-- H7 `RES0` (R27, R35). -/
  res0 : Byte
  /-- H8 `RES1` (R27, R35). -/
  res1 : Byte
  /-- H9 `RES_LEN` (R27, R35). -/
  resLen : Word32
  /-- H10 `POLL_OUT` (R31). -/
  pollOut : Word32
  /-- H11 `FPDAT_ADDR` (R30). -/
  fpdatAddr : Byte
  /-- H12 `PAGE_SIZE` (R30). -/
  pageSize : Word32
  /-- H13 `FAMILY_CTL` (R30). -/
  familyCtl : Byte
  /-- H14 `FPCTL_ADDR` (R30). -/
  fpctlAddr : Byte
  /-- H15 `DEVICE_ID` (R33). -/
  deviceId : Byte
  /-- H16 `REVISION_ID` (R33). -/
  revisionId : Byte
  /-- H17 `PI_VERSION` (R34). -/
  piVersion : Byte
  /-- H18 `PI_DERIVATIVE` (R34). -/
  piDerivative : Byte
  /-- `BUF` (R39). -/
  buf : Memory
  /-- `SCRATCH` (R40). -/
  scratch : Memory
  /-- `seq` (R36). -/
  seq : Seq
  /-- The wire trace, oldest event first (R43). -/
  trace : List Event
  /-- The levels the environment shows at the next samples, the input `D_IN` (R22, R44). The model's own field, log 2. -/
  din : List Bit
  /-- Samples taken so far. The model's own field, log 2. -/
  samples : Nat
  /-- Counter of free values drawn. The model's own field, log 7. -/
  fresh : Nat
  /-- The next moves at the command port, oldest first. The model's own field, log 11. -/
  port : List PortMove
  /-- What the host's last read returned. The model's own field, log 12. -/
  hostData : Word32
deriving DecidableEq, Repr

/-- The state after reset (10_state.md R45). Registers whose reset value R45 leaves unspecified are 0: DESIGN CHOICE,
unsafe, log 3. -/
def State.reset : State where
  ck := true
  dOe := false
  dOut := false
  dPullup := true
  shift := 0#8
  bitcnt := 0
  trycnt := 0
  cmd := 0#8
  status := 0x00#8
  addr := 0#16
  len := 0#32
  byte0 := 0#8
  byte1 := 0#8
  flags := 0#8
  res0 := 0#8
  res1 := 0#8
  resLen := 0#32
  pollOut := Config.pollOutReset
  fpdatAddr := 0#8
  pageSize := 0#32
  familyCtl := 0x00#8
  fpctlAddr := Config.fpctlAddr
  deviceId := 0#8
  revisionId := 0#8
  piVersion := 0#8
  piDerivative := 0#8
  buf := []
  scratch := []
  seq := .idle
  trace := []
  din := []
  samples := 0
  fresh := 0
  port := []
  hostData := 0#32

end Sys2Proof.Machine
end

