-- ==== Sys2Proof/Machine/Flags.lean ====
section
/-! DEFINITION. Every flag the spec gives: the fields of STATUS (10_state.md R29), FLAGS and FAMILY_CTL (R27), and the two
bits of the byte a Read AR frame returns (30_encoding.md R106). There are no other flags (R38). -/

namespace Sys2Proof.Machine

/-- The numeric code of a failure kind (60_exceptions.md R250). -/
def FailKind.code : FailKind → BitVec 3
  | .busTimeout => 1#3
  | .protocolRejected => 2#3
  | .unsupportedDevice => 3#3
  | .storageIo => 4#3
  | .illegalCommand => 7#3

/-! ## STATUS (R29) -/

/-- Bit 0, `BUSY`. -/
def statusBusy (st : Byte) : Bit := st.getLsbD 0
/-- Bit 1, `DONE`. -/
def statusDone (st : Byte) : Bit := st.getLsbD 1
/-- Bits 4:2, `ERR`. -/
def statusErr (st : Byte) : BitVec 3 := st.extractLsb' 2 3
/-- Bit 5, `INFO_VALID`. -/
def statusInfoValid (st : Byte) : Bit := st.getLsbD 5
/-- Bit 6, `PI_INFO_VALID`. -/
def statusPiInfoValid (st : Byte) : Bit := st.getLsbD 6

/-- STATUS when a write of CMD starts an operation: `DONE` and `ERR` cleared, `BUSY` set, the valid bits kept (R29, R235). -/
def statusStart (st : Byte) : Byte := st &&& 0x60#8 ||| 0x01#8

/-- STATUS when an operation ends with code `err`: `BUSY` cleared, `DONE` set, `ERR` written, the valid bits kept (R29,
R237). -/
def statusEnd (st : Byte) (err : BitVec 3) : Byte := st &&& 0x60#8 ||| 0x02#8 ||| err.setWidth 8 <<< 2

/-- `INFO_VALID` set (R29, R207). -/
def setInfoValid (st : Byte) : Byte := st ||| 0x20#8
/-- `PI_INFO_VALID` set (R29, R208). -/
def setPiInfoValid (st : Byte) : Byte := st ||| 0x40#8

/-! ## FLAGS and FAMILY_CTL (R27) -/

/-- FLAGS bit 0, `VERIFY`. -/
def flagVerify (f : Byte) : Bit := f.getLsbD 0
/-- FLAGS bit 1, `WANT_RESULT`. -/
def flagWantResult (f : Byte) : Bit := f.getLsbD 1
/-- FLAGS bit 2, `DISCARD`. -/
def flagDiscard (f : Byte) : Bit := f.getLsbD 2
/-- FAMILY_CTL bit 0, `FAMILY_VALID`. -/
def ctlFamilyValid (c : Byte) : Bit := c.getLsbD 0
/-- FAMILY_CTL bit 1, `ERRATUM_F5`. -/
def ctlErratumF5 (c : Byte) : Bit := c.getLsbD 1
/-- What a write of FAMILY_CTL stores: its reserved bits 7:2 are hard-wired to 0 (R30). DEDUCED, log 13. -/
def ctlWritten (v : Byte) : Byte := v &&& 0x03#8

/-! ## The byte Read AR returns (R62, R106) -/

/-- Bit 1 set: the PI has not yet taken the last byte (R62). -/
def arBusy (r : Byte) : Bit := r &&& Config.arInBusy ≠ 0#8
/-- Bit 0 set: a response byte is waiting (R62). -/
def arReady (r : Byte) : Bit := r &&& Config.arOutReady ≠ 0#8

end Sys2Proof.Machine
end

