-- ==== Sys2Proof/WellFormed.lean ====
section
/-! DEFINITION. Which terms of `Instr` are instructions: the only operand whose type admits more than its encoding is
the sub-block size, "1 ≤ n ≤ 256" (30_encoding.md R104). -/

namespace Sys2Proof

/-- A sub-block moves 1 to `SUBBLOCK_MAX` bytes (R71, R104). -/
def subBlockSizeOk (n : Nat) : Bool := 1 ≤ n && n ≤ Config.subblockMax

/-- Every operand is a value its encoding can carry. -/
def Instr.wellFormed : Instr → Bool
  | .piBlockRead _ n | .piBlockWrite _ n => subBlockSizeOk n
  | .writeArFrame _ | .readArFrame | .writeDrFrame _ | .readDrFrame | .piGetVersion | .piGetDerivative
  | .piDeviceErase | .piPageErase _ | .piDirectRead _ | .piDirectWrite _ _ | .piRespOk | .piRespInvalid | .piRespFailed
  | .fpctlReset | .fpctlCoreReset | .fpctlHalt | .arOutReady | .arInBusy | .writeAr | .readAr | .writeDr | .readDr
  | .piWrite | .piGet | .piCheckOk | .piCommand | .readDirect | .writeDirect | .blockRead | .blockWrite | .erasePage
  | .eraseDevice | .resetHalt | .getDeviceInfo | .getPiInfo | .flashChunk => true

end Sys2Proof
end

