-- ==== Sys2Proof/Decode.lean ====
section
/-! DEFINITION. Decoders and encoders of the four encoding layers (30_encoding.md R90): the frame, as the word of its
host-driven bits and as strobe slots on the wire (R91 to R99), the PI bytes (R102 to R106), the FPCTL bytes (R107) and the
host opcodes (R109). Each decoder is total and refuses by name. -/

namespace Sys2Proof

/-- Why a decoder refuses a code. -/
inductive DecodeError where
  /-- The code ends before the instruction does. -/
  | truncated
  /-- LENGTH 01, 10 or 11: reserved, "a frame decoder refuses them" (R97, U10). -/
  | reservedLength
  /-- A driven bit after the last one the frame has (R91). -/
  | unusedBits
  /-- A slot of another kind than the frame has there (R93 to R96). -/
  | wrongSlot
  /-- More WAIT slots than the core ever makes (R98). -/
  | waitExhausted
  /-- No PI command byte of R102. -/
  | unknownPiCommand
  /-- A device-erase key other than 0xDE, 0xAD, 0xA5 (R103). -/
  | wrongKey
  /-- A page-erase terminator other than 0 (R104). -/
  | wrongTerminator
  /-- A direct-access length byte other than 0x01 (R104). -/
  | wrongDirectLength
  /-- A PI response without a row: any value but 0x0D, 0x00, 0x02 (R105). -/
  | unnamedResponse
  /-- No FPCTL byte of R107. -/
  | unknownFpctlByte
  /-- No status mask of R106. -/
  | unknownMask
  /-- No host opcode of R109: illegal (R111). -/
  | illegalOpcode
deriving DecidableEq, Repr

/-! ## Bit order (R67, R100, R101) -/

/-- The bits of a byte in wire order, bit 0 first (R100). -/
def serialise (v : Byte) : List Bit :=
  [v.getLsbD 0, v.getLsbD 1, v.getLsbD 2, v.getLsbD 3, v.getLsbD 4, v.getLsbD 5, v.getLsbD 6, v.getLsbD 7]

/-- A bit as a byte. -/
def bitByte (b : Bit) : Byte := if b then 1#8 else 0#8

/-- The byte eight samples make, the first sample bit 0 (R101). -/
def assemble (b0 b1 b2 b3 b4 b5 b6 b7 : Bit) : Byte :=
  bitByte b0 ||| bitByte b1 <<< 1 ||| bitByte b2 <<< 2 ||| bitByte b3 <<< 3 ||| bitByte b4 <<< 4 ||| bitByte b5 <<< 5 |||
    bitByte b6 <<< 6 ||| bitByte b7 <<< 7

/-! ## The frame as the word of its host-driven bits

Bit 0 of the word is the first bit the core drives, so bits 1:0 are INS (R92) and the table's match and mask apply to
them; the payload bits the core drives follow (R93 to R96), and every bit above them is 0. DESIGN CHOICE, log 24. -/

/-- `INS_READ_DR`: the INS value of Read DR (00_scope.md R8, R92). -/
def insReadDr : BitVec 2 := 0#2
/-- `INS_WRITE_DR`: the INS value of Write DR (R8, R92). -/
def insWriteDr : BitVec 2 := 1#2
/-- `INS_READ_AR`: the INS value of Read AR (R8, R92). -/
def insReadAr : BitVec 2 := 2#2
/-- `INS_WRITE_AR`: the INS value of Write AR (R8, R92). -/
def insWriteAr : BitVec 2 := 3#2
/-- `LENGTH_1BYTE`: the one LENGTH value the core sends, "fixed 00 = 1 byte" (R8, R97). -/
def length1Byte : BitVec 2 := 0#2

/-- Decode the word of driven bits (R92 to R97). -/
def decodeFrameWord (w : Word16) : Except DecodeError Instr :=
  let ins := w.extractLsb' 0 2
  if ins = insWriteAr then
    if w.extractLsb' 10 6 = 0#6 then .ok (.writeArFrame (w.extractLsb' 2 8)) else .error .unusedBits
  else if ins = insReadAr then
    if w.extractLsb' 2 14 = 0#14 then .ok .readArFrame else .error .unusedBits
  else if w.extractLsb' 2 2 ≠ length1Byte then .error .reservedLength
  else if ins = insWriteDr then
    if w.extractLsb' 12 4 = 0#4 then .ok (.writeDrFrame (w.extractLsb' 4 8)) else .error .unusedBits
  else if w.extractLsb' 4 12 = 0#12 then .ok .readDrFrame else .error .unusedBits

/-- The word of driven bits of a frame (R92 to R96); 0 for what is no frame. -/
def frameWord : Instr → Word16
  | .writeArFrame a => a.setWidth 16 <<< 2 ||| 3#16
  | .readArFrame => 2#16
  | .writeDrFrame d => d.setWidth 16 <<< 4 ||| 1#16
  | _ => 0#16

/-! ## The frame as strobe slots on the wire (R91, R99) -/

/-- One strobe slot: idle, host-driven with its bit, or host-sampled with what was sampled (R91). -/
inductive Slot where
  | idle
  | driven (b : Bit)
  | sampled (b : Bit)
deriving DecidableEq, Repr

/-- A complete frame as it stood on the wire: its payload and, for a DR frame, its number of WAIT tries (R93 to R96). -/
inductive WireFrame where
  | writeAr (a : Byte)
  | readAr (r : Byte)
  | writeDr (d : Byte) (tries : Nat)
  | readDr (r : Byte) (tries : Nat)
deriving DecidableEq, Repr

/-- The WAIT field that succeeds at the last of `tries` tries (R98). -/
def waitSlots (tries : Nat) : List Slot :=
  List.replicate (tries - 1) (.sampled false) ++ [.sampled true]

/-- The slots of a frame, slot 0 first (R93 to R96). -/
def WireFrame.slots : WireFrame → List Slot
  | .writeAr a => [.idle, .driven true, .driven true] ++ (serialise a).map .driven ++ [.idle]
  | .readAr r => [.idle, .driven false, .driven true] ++ (serialise r).map .sampled ++ [.idle]
  | .writeDr d n =>
    [.idle, .driven true, .driven false, .driven false, .driven false] ++ (serialise d).map .driven ++ waitSlots n ++
      [.idle]
  | .readDr r n =>
    [.idle, .driven false, .driven false, .driven false, .driven false] ++ waitSlots n ++
      (serialise r).map .sampled ++ [.idle]

/-- A complete frame made its WAIT tries within the budget of its direction (30_encoding.md R95, R96). -/
def WireFrame.inBudget : WireFrame → Bool
  | .writeAr _ | .readAr _ => true
  | .writeDr _ n => 1 ≤ n && n ≤ Config.waitTriesWr
  | .readDr _ n => 1 ≤ n && n ≤ Config.waitTriesRd

/-- Eight driven slots, bit 0 first. -/
def takeDriven : List Slot → Except DecodeError (Byte × List Slot)
  | .driven b0 :: .driven b1 :: .driven b2 :: .driven b3 :: .driven b4 :: .driven b5 :: .driven b6 :: .driven b7 :: rest =>
    .ok (assemble b0 b1 b2 b3 b4 b5 b6 b7, rest)
  | _ => .error .wrongSlot

/-- Eight sampled slots, bit 0 first. -/
def takeSampled : List Slot → Except DecodeError (Byte × List Slot)
  | .sampled b0 :: .sampled b1 :: .sampled b2 :: .sampled b3 :: .sampled b4 :: .sampled b5 :: .sampled b6 ::
      .sampled b7 :: rest => .ok (assemble b0 b1 b2 b3 b4 b5 b6 b7, rest)
  | _ => .error .wrongSlot

/-- The WAIT field: "WAIT slots until the one on which the data line reads 1" (R99), at most `left` of them (R98);
`n` slots of it are already read. -/
def takeWait (n : Nat) : (left : Nat) → List Slot → Except DecodeError (Nat × List Slot)
  | 0, _ => .error .waitExhausted
  | left + 1, .sampled false :: rest => takeWait (n + 1) left rest
  | _ + 1, .sampled true :: rest => .ok (n + 1, rest)
  | _ + 1, _ => .error .wrongSlot

/-- The STOP slot. -/
def takeStop (f : WireFrame) : List Slot → Except DecodeError (WireFrame × List Slot)
  | .idle :: rest => .ok (f, rest)
  | _ => .error .wrongSlot

/-- Decode one frame from the wire by counting strobes from its START slot; the slots after it are returned (R99). -/
def decodeSlots : List Slot → Except DecodeError (WireFrame × List Slot)
  | .idle :: .driven true :: .driven true :: rest =>
    match takeDriven rest with
    | .ok (a, rest) => takeStop (.writeAr a) rest
    | .error e => .error e
  | .idle :: .driven false :: .driven true :: rest =>
    match takeSampled rest with
    | .ok (r, rest) => takeStop (.readAr r) rest
    | .error e => .error e
  | .idle :: .driven true :: .driven false :: .driven l0 :: .driven l1 :: rest =>
    if l0 || l1 then .error .reservedLength else
    match takeDriven rest with
    | .ok (d, rest) =>
      match takeWait 0 Config.waitTriesWr rest with
      | .ok (n, rest) => takeStop (.writeDr d n) rest
      | .error e => .error e
    | .error e => .error e
  | .idle :: .driven false :: .driven false :: .driven l0 :: .driven l1 :: rest =>
    if l0 || l1 then .error .reservedLength else
    match takeWait 0 Config.waitTriesRd rest with
    | .ok (n, rest) =>
      match takeSampled rest with
      | .ok (r, rest) => takeStop (.readDr r n) rest
      | .error e => .error e
    | .error e => .error e
  | [] => .error .truncated
  | _ => .error .wrongSlot

/-! ## PI bytes (R102 to R106) and FPCTL bytes (R107) -/

/-- The sub-block size a length byte stands for: 0 means 256 (R104). -/
def subBlockOfByte (b : Byte) : Nat := if b = 0#8 then 256 else b.toNat

/-- The length byte of a sub-block of `n` bytes, `n & 0xFF` (R104). -/
def subBlockByte (n : Nat) : Byte := BitVec.ofNat 8 n

/-- The three key bytes after DEVICE_ERASE (R103). -/
def decodeKey : List Byte → Except DecodeError (Instr × List Byte)
  | k0 :: k1 :: k2 :: rest =>
    if k0 = Config.eraseKey0 ∧ k1 = Config.eraseKey1 ∧ k2 = Config.eraseKey2 then .ok (.piDeviceErase, rest)
    else .error .wrongKey
  | _ => .error .truncated

/-- The address and length bytes after BLOCK_READ and BLOCK_WRITE (R103, R104). -/
def decodeBlockHeader (mk : Word16 → Nat → Instr) : List Byte → Except DecodeError (Instr × List Byte)
  | hi :: lo :: len :: rest => .ok (mk (hi ++ lo) (subBlockOfByte len), rest)
  | _ => .error .truncated

/-- The page index and terminator after PAGE_ERASE (R103, R104). -/
def decodePage : List Byte → Except DecodeError (Instr × List Byte)
  | page :: term :: rest => if term = Config.eraseTerm then .ok (.piPageErase page, rest) else .error .wrongTerminator
  | _ => .error .truncated

/-- The register number and length byte after DIRECT_READ (R103, R104). -/
def decodeDirectRead : List Byte → Except DecodeError (Instr × List Byte)
  | reg :: len :: rest => if len = Config.directLen then .ok (.piDirectRead reg, rest) else .error .wrongDirectLength
  | _ => .error .truncated

/-- The register number, length byte and value after DIRECT_WRITE (R103, R104). -/
def decodeDirectWrite : List Byte → Except DecodeError (Instr × List Byte)
  | reg :: len :: v :: rest =>
    if len = Config.directLen then .ok (.piDirectWrite reg v, rest) else .error .wrongDirectLength
  | _ => .error .truncated

/-- Decode the bytes a PI command writes to FPDAT, for the command bytes `c` (R102, R103). The two bytes the source
gives are tried first, then the OPEN ones in the table's order. -/
def decodePi (c : Config.PiCodes) : List Byte → Except DecodeError (Instr × List Byte)
  | [] => .error .truncated
  | b :: rest =>
    if b = Config.piGetVersion then .ok (.piGetVersion, rest)
    else if b = Config.piGetDerivative then .ok (.piGetDerivative, rest)
    else if b = c.deviceErase then decodeKey rest
    else if b = c.blockRead then decodeBlockHeader .piBlockRead rest
    else if b = c.blockWrite then decodeBlockHeader .piBlockWrite rest
    else if b = c.pageErase then decodePage rest
    else if b = c.directRead then decodeDirectRead rest
    else if b = c.directWrite then decodeDirectWrite rest
    else .error .unknownPiCommand

/-- Decode a PI response byte that has a row of its own (R105). -/
def decodeResp (b : Byte) : Except DecodeError Instr :=
  if b = Config.piRespOk then .ok .piRespOk
  else if b = Config.piRespInvalid then .ok .piRespInvalid
  else if b = Config.piRespFailed then .ok .piRespFailed
  else .error .unnamedResponse

/-- Decode an FPCTL byte (R107). -/
def decodeFpctl (b : Byte) : Except DecodeError Instr :=
  if b = Config.fpctlReset then .ok .fpctlReset
  else if b = Config.fpctlCoreReset then .ok .fpctlCoreReset
  else if b = Config.fpctlHalt then .ok .fpctlHalt
  else .error .unknownFpctlByte

/-- Decode a status mask (R106). -/
def decodeMask (b : Byte) : Except DecodeError Instr :=
  if b = Config.arOutReady then .ok .arOutReady
  else if b = Config.arInBusy then .ok .arInBusy
  else .error .unknownMask

/-! ## Host opcodes (R109) -/

/-- The host opcode table (R109). All 8 bits are matched. -/
def hostOpcodes : List (Byte × Instr) :=
  [(0x10#8, .writeAr), (0x11#8, .readAr), (0x12#8, .writeDr), (0x13#8, .readDr), (0x20#8, .piWrite), (0x21#8, .piGet),
    (0x22#8, .piCheckOk), (0x23#8, .piCommand), (0x30#8, .readDirect), (0x31#8, .writeDirect), (0x32#8, .blockRead),
    (0x33#8, .blockWrite), (0x34#8, .erasePage), (0x35#8, .eraseDevice), (0x36#8, .resetHalt),
    (0x37#8, .getDeviceInfo), (0x38#8, .getPiInfo), (0x40#8, .flashChunk)]

/-- Decode a value written to CMD (R109, R111). -/
def decodeHost (op : Byte) : Except DecodeError Instr :=
  match hostOpcodes.find? (fun row => row.1 = op) with
  | some row => .ok row.2
  | none => .error .illegalOpcode

/-! ## The whole decoder and the encoder -/

/-- Pair a one-byte code with the bytes after it. -/
def oneByte (d : Byte → Except DecodeError Instr) : List Byte → Except DecodeError (Instr × List Byte)
  | [] => .error .truncated
  | b :: rest =>
    match d b with
    | .ok i => .ok (i, rest)
    | .error e => .error e

/-- The two bytes of a frame word, low byte first. -/
def decodeFrameBytes : List Byte → Except DecodeError (Instr × List Byte)
  | lo :: hi :: rest =>
    match decodeFrameWord (hi ++ lo) with
    | .ok i => .ok (i, rest)
    | .error e => .error e
  | _ => .error .truncated

/-- Decode the bytes of one code space, for the PI command bytes `c`. The spaces overlap as numbers (one byte 0x02 is a
PI command, a PI response, an FPCTL byte and a mask), so the space is part of what is decoded (R90). -/
def decodeWith (c : Config.PiCodes) : Space → List Byte → Except DecodeError (Instr × List Byte)
  | .frame => decodeFrameBytes
  | .pi => decodePi c
  | .resp => oneByte decodeResp
  | .fpctl => oneByte decodeFpctl
  | .arStatus => oneByte decodeMask
  | .host => oneByte decodeHost

/-- The decoder of this machine. -/
def decode : Space → List Byte → Except DecodeError (Instr × List Byte) := decodeWith Config.piCodes

/-- The two bytes of a frame word, low byte first. -/
def frameBytes (w : Word16) : List Byte := [w.extractLsb' 0 8, w.extractLsb' 8 8]

/-- High byte of a flash address (R104). -/
def addrHi (a : Word16) : Byte := a.extractLsb' 8 8
/-- Low byte of a flash address (R104). -/
def addrLo (a : Word16) : Byte := a.extractLsb' 0 8

/-- The bytes of an instruction in its code space, for the PI command bytes `c` (R92 to R109). -/
def encodeWith (c : Config.PiCodes) : Instr → List Byte
  | .writeArFrame a => frameBytes (frameWord (.writeArFrame a))
  | .readArFrame => frameBytes (frameWord .readArFrame)
  | .writeDrFrame d => frameBytes (frameWord (.writeDrFrame d))
  | .readDrFrame => frameBytes (frameWord .readDrFrame)
  | .piGetVersion => [0x01#8]
  | .piGetDerivative => [0x02#8]
  | .piDeviceErase => [c.deviceErase, 0xDE#8, 0xAD#8, 0xA5#8]
  | .piBlockRead a n => [c.blockRead, addrHi a, addrLo a, subBlockByte n]
  | .piBlockWrite a n => [c.blockWrite, addrHi a, addrLo a, subBlockByte n]
  | .piPageErase p => [c.pageErase, p, 0x00#8]
  | .piDirectRead r => [c.directRead, r, 0x01#8]
  | .piDirectWrite r v => [c.directWrite, r, 0x01#8, v]
  | .piRespOk => [0x0D#8]
  | .piRespInvalid => [0x00#8]
  | .piRespFailed => [0x02#8]
  | .fpctlReset => [0x02#8]
  | .fpctlCoreReset => [0x04#8]
  | .fpctlHalt => [0x01#8]
  | .arOutReady => [0x01#8]
  | .arInBusy => [0x02#8]
  | .writeAr => [0x10#8]
  | .readAr => [0x11#8]
  | .writeDr => [0x12#8]
  | .readDr => [0x13#8]
  | .piWrite => [0x20#8]
  | .piGet => [0x21#8]
  | .piCheckOk => [0x22#8]
  | .piCommand => [0x23#8]
  | .readDirect => [0x30#8]
  | .writeDirect => [0x31#8]
  | .blockRead => [0x32#8]
  | .blockWrite => [0x33#8]
  | .erasePage => [0x34#8]
  | .eraseDevice => [0x35#8]
  | .resetHalt => [0x36#8]
  | .getDeviceInfo => [0x37#8]
  | .getPiInfo => [0x38#8]
  | .flashChunk => [0x40#8]

/-- The encoder of this machine. -/
def encode : Instr → List Byte := encodeWith Config.piCodes

/-! ## Words numbered as spec/opcode_table.json numbers them -/

/-- The bytes that follow an OPEN PI command byte when every operand is 0: the fixed bytes of its format stay (R103). -/
def openPiTail (c : Config.PiCodes) (b : Byte) : List Byte :=
  if b = c.deviceErase then [0xDE#8, 0xAD#8, 0xA5#8]
  else if b = c.directRead then [0x00#8, 0x01#8]
  else if b = c.directWrite then [0x00#8, 0x01#8, 0x00#8]
  else [0x00#8, 0x00#8, 0x00#8]

/-- Whether a decoder accepts. -/
def accepts (r : Except DecodeError Instr) : Bool :=
  match r with
  | .ok _ => true
  | .error _ => false

/-- The code space and bytes that stand for a table word of `nbits` bits. The table numbers six code spaces alike, so the
word alone does not name its space: a host opcode is read first, then a frame (by its INS bits), then a PI response, an
FPCTL byte, a mask, and last an OPEN PI command byte. DESIGN CHOICE, log 10. -/
def tableCode (nbits w : Nat) : Space × List Byte :=
  let v := w % 2 ^ nbits
  let b := BitVec.ofNat 8 v
  let f := BitVec.ofNat 16 v
  if v < 256 ∧ accepts (decodeHost b) then (.host, [b])
  else if v < 65536 ∧ accepts (decodeFrameWord f) then (.frame, frameBytes f)
  else if v < 256 ∧ accepts (decodeResp b) then (.resp, [b])
  else if v < 256 ∧ accepts (decodeFpctl b) then (.fpctl, [b])
  else if v < 256 ∧ accepts (decodeMask b) then (.arStatus, [b])
  else (.pi, b :: openPiTail Config.piCodes b)

/-- The instruction the decoder reads from a table word. -/
def decodeTableWord (nbits w : Nat) : Option Instr :=
  match decode (tableCode nbits w).1 (tableCode nbits w).2 with
  | .ok (i, _) => some i
  | .error _ => none

end Sys2Proof
end

