-- ==== Sys2Proof/Machine/Operands.lean ====
section
/-! DEFINITION. Operand assembly: the shift-register forms (30_encoding.md R100, R101), the argument bytes of a block command
(R104), the split into sub-blocks (43_flash_block_ops.md R196) and the page arithmetic of flash_chunk (44_page_write.md
R221). -/

namespace Sys2Proof.Machine

/-! ## SHIFT (R100, R101) -/

/-- Outbound: `SHIFT <- SHIFT >> 1` after each bit (R100). -/
def shiftRight (v : Byte) : Byte := v >>> 1

/-- Inbound: `SHIFT <- (SHIFT >> 1) | (b << 7)` after each sample (R101). -/
def shiftInto (v : Byte) (b : Bit) : Byte := v >>> 1 ||| bitByte b <<< 7

/-! ## Block commands (R104, R196) -/

/-- `(addr >> 8) & 0xFF` (R104). -/
def addrHiByte (addr : Nat) : Byte := BitVec.ofNat 8 (addr / 256)
/-- `addr & 0xFF` (R104). -/
def addrLoByte (addr : Nat) : Byte := BitVec.ofNat 8 addr

/-- `sub_size(length)` (R196). -/
def subSize (length : Nat) : Nat := if length > 255 then Config.subblockMax else length

/-! ## Page arithmetic (R221, R222) -/

/-- `page = addr / P`. -/
def pageOf (addr p : Nat) : Nat := addr / p
/-- `page_base = page * P`. -/
def pageBase (addr p : Nat) : Nat := pageOf addr p * p
/-- `chunk_start = addr - page_base`. -/
def chunkStart (addr p : Nat) : Nat := addr - pageBase addr p
/-- `chunk_len = min(length, P - chunk_start)`. -/
def chunkLen (addr length p : Nat) : Nat := min length (p - chunkStart addr p)
/-- The whole-page test: the page is read first when the request does not cover it (R222). -/
def readsFirst (addr length p : Nat) : Bool := chunkStart addr p ≠ 0 || length < p

/-- A power of two that a 32-bit register can hold (R30). -/
def isPow2 (p : Nat) : Bool := (List.range 32).any fun k => p = 2 ^ k

end Sys2Proof.Machine
end

