-- ==== Sys2Proof/Machine/Ops.lean ====
section
/-! DEFINITION. The named operations over the local memories, the host registers, the data line, and the start and end of
an operation: taking a failure is `State.fail`, the one operation every failure goes through (60_exceptions.md R255). -/

namespace Sys2Proof.Machine

/-! ## Local memories (10_state.md R39, R40) -/

/-- The canonical form: indices strictly rising. -/
abbrev Memory.wf (m : Memory) : Prop := m.Pairwise fun x y => x.1 < y.1

/-- The byte at index `i`; none where it holds no value (R46). -/
def Memory.read : Memory → Nat → Option Byte
  | [], _ => none
  | (j, b) :: m, i => if i = j then some b else Memory.read m i

/-- Store a byte, keeping the indices strictly rising. -/
def Memory.write : Memory → Nat → Byte → Memory
  | [], i, b => [(i, b)]
  | (j, c) :: m, i, b =>
    if i < j then (i, b) :: (j, c) :: m else if i = j then (i, b) :: m else (j, c) :: Memory.write m i b

/-! ## Host registers (10_state.md R27) -/

/-- The number of a host register. -/
def HReg.number : HReg → Nat
  | .cmd => 0 | .status => 1 | .addr => 2 | .len => 3 | .byte0 => 4 | .byte1 => 5 | .flags => 6 | .res0 => 7
  | .res1 => 8 | .resLen => 9 | .pollOut => 10 | .fpdatAddr => 11 | .pageSize => 12 | .familyCtl => 13
  | .fpctlAddr => 14 | .deviceId => 15 | .revisionId => 16 | .piVersion => 17 | .piDerivative => 18

/-- The width of a host register in bits. -/
def HReg.width : HReg → Nat
  | .addr => 16
  | .len | .resLen | .pollOut | .pageSize => 32
  | .cmd | .status | .byte0 | .byte1 | .flags | .res0 | .res1 | .fpdatAddr | .familyCtl | .fpctlAddr | .deviceId
  | .revisionId | .piVersion | .piDerivative => 8

/-- The host may read it (access R or RW). -/
def HReg.readable : HReg → Bool
  | .cmd => false
  | .status | .addr | .len | .byte0 | .byte1 | .flags | .res0 | .res1 | .resLen | .pollOut | .fpdatAddr | .pageSize
  | .familyCtl | .fpctlAddr | .deviceId | .revisionId | .piVersion | .piDerivative => true

/-- The host may write it (access W or RW). -/
def HReg.writable : HReg → Bool
  | .cmd | .addr | .len | .byte0 | .byte1 | .flags | .pollOut | .fpdatAddr | .pageSize | .familyCtl | .fpctlAddr => true
  | .status | .res0 | .res1 | .resLen | .deviceId | .revisionId | .piVersion | .piDerivative => false

/-- The contents of a host register, `H[i]` (00_scope.md R13), zero-extended. -/
def State.readReg (s : State) : HReg → Word32
  | .cmd => s.cmd.setWidth 32
  | .status => s.status.setWidth 32
  | .addr => s.addr.setWidth 32
  | .len => s.len
  | .byte0 => s.byte0.setWidth 32
  | .byte1 => s.byte1.setWidth 32
  | .flags => s.flags.setWidth 32
  | .res0 => s.res0.setWidth 32
  | .res1 => s.res1.setWidth 32
  | .resLen => s.resLen
  | .pollOut => s.pollOut
  | .fpdatAddr => s.fpdatAddr.setWidth 32
  | .pageSize => s.pageSize
  | .familyCtl => s.familyCtl.setWidth 32
  | .fpctlAddr => s.fpctlAddr.setWidth 32
  | .deviceId => s.deviceId.setWidth 32
  | .revisionId => s.revisionId.setWidth 32
  | .piVersion => s.piVersion.setWidth 32
  | .piDerivative => s.piDerivative.setWidth 32

/-- `H[i] <- v` for the registers that are plain to write (R28: "a write takes effect at once and has no side effect
except a write of CMD"); the value is cut to the register's width. What is not plain to write is left as it is. -/
def State.writeReg (s : State) (r : HReg) (v : Word32) : State :=
  match r with
  | .addr => { s with addr := v.setWidth 16 }
  | .len => { s with len := v }
  | .byte0 => { s with byte0 := v.setWidth 8 }
  | .byte1 => { s with byte1 := v.setWidth 8 }
  | .flags => { s with flags := v.setWidth 8 }
  | .pollOut => { s with pollOut := v }
  | .fpdatAddr => { s with fpdatAddr := v.setWidth 8 }
  | .pageSize => { s with pageSize := v }
  | .familyCtl => { s with familyCtl := ctlWritten (v.setWidth 8) }
  | .fpctlAddr => { s with fpctlAddr := v.setWidth 8 }
  | .cmd | .status | .res0 | .res1 | .resLen | .deviceId | .revisionId | .piVersion | .piDerivative => s

/-- `STATUS.BUSY` (R29). -/
def State.busy (s : State) : Bit := statusBusy s.status

/-! ## The data line (10_state.md R22, R44) -/

/-- The level the environment shows at the k-th sample from now: the k-th answer it has queued, or a free level. -/
def lineAt (din : List Bit) (samples k : Nat) : Bit := (din[k]?).getD (Config.freeSample (samples + k))

/-- The level of the released data line at the k-th sample from now (R44). -/
def State.line (s : State) (k : Nat) : Bit := lineAt s.din s.samples k

/-- The state after `n` samples were taken, but for the trace. -/
def State.afterSamples (s : State) (n : Nat) : State :=
  { s with din := s.din.drop n, samples := s.samples + n }

/-- Append events to the wire trace (R43). -/
def State.emit (s : State) (es : List Event) : State := { s with trace := s.trace ++ es }

/-! ## Free values (93_implementation_defined.md U5, U6) -/

/-- A byte read from a local memory: its value, or a free one where it holds none. -/
def State.readCell (s : State) (m : Memory) (i : Nat) : State × Byte :=
  match m.read i with
  | some b => (s, b)
  | none => ({ s with fresh := s.fresh + 1 }, Config.freeByte s.fresh)

/-! ## Start, success and failure of an operation (45_host_commands.md R235, R237; 60_exceptions.md R255) -/

/-- What a successful operation returns: the registers and captures of 30_encoding.md R110, `none` for what it does not
return. -/
structure Results where
  res0   : Option Byte := none
  res1   : Option Byte := none
  resLen : Option Word32 := none
  /-- DEVICE_ID and REVISION_ID. -/
  device : Option (Byte × Byte) := none
  /-- PI_VERSION and PI_DERIVATIVE. -/
  pi     : Option (Byte × Byte) := none
deriving DecidableEq, Repr

/-- A write of `op` to CMD while idle: `DONE` and `ERR` cleared, `BUSY` set, the sequencer at the operation's first
primitive (R235). -/
def State.start (s : State) (op : Byte) : State :=
  { s with cmd := op, status := statusStart s.status, seq := .run [] }

/-- `RES0`, `RES1` and `RES_LEN` at the end of an operation: what it returned, and free values for the rest, since what it
did not return is unspecified (10_state.md R35). -/
def State.putResults (s : State) (r : Results) : State :=
  { s with
    res0 := r.res0.getD (Config.freeByte s.fresh)
    res1 := r.res1.getD (Config.freeByte (s.fresh + 1))
    resLen := r.resLen.getD (Config.freeWord (s.fresh + 2))
    fresh := s.fresh + 3 }

/-- DEVICE_ID and REVISION_ID, both together, with `INFO_VALID` (R33, R207). -/
def State.capture (s : State) (v : Option (Byte × Byte)) : State :=
  { s with
    deviceId := (v.map (·.1)).getD s.deviceId
    revisionId := (v.map (·.2)).getD s.revisionId
    status := if v.isSome then setInfoValid s.status else s.status }

/-- PI_VERSION and PI_DERIVATIVE, both together, with `PI_INFO_VALID` (R34, R208). -/
def State.capturePi (s : State) (v : Option (Byte × Byte)) : State :=
  { s with
    piVersion := (v.map (·.1)).getD s.piVersion
    piDerivative := (v.map (·.2)).getD s.piDerivative
    status := if v.isSome then setPiInfoValid s.status else s.status }

/-- The end of an operation: `BUSY` 0, `DONE` 1, `ERR` the code, the sequencer idle (R237). -/
def State.finish (s : State) (err : BitVec 3) : State :=
  { s with status := statusEnd s.status err, seq := .idle }

/-- The operation returns `r`: results and captures written, `ERR` 0, `BUSY` 0, `DONE` 1 (R237). -/
def State.succeed (s : State) (r : Results) : State :=
  (((s.putResults r).capture r.device).capturePi r.pi).finish 0#3

/-- `raise k`, the one way a failure is taken (R255, R237, R259): the sequencer goes idle, `ERR` is the kind, `BUSY` 0,
`DONE` 1, captures, operands and configuration stay, result registers hold free values, SCRATCH holds no value, and
neither does BUF if it was a destination. Nothing is saved and nothing is vectored; there is no return from it (R260). -/
def State.fail (s : State) (k : FailKind) (bufWasDest : Bool) : State :=
  { (s.putResults {}).finish k.code with
    buf := if bufWasDest then [] else s.buf
    scratch := [] }

/-- BUF is a destination of the operation CMD holds: only of `BLOCK_READ` without `DISCARD` (30_encoding.md R110). -/
def State.bufIsDest (s : State) : Bool := s.cmd = 0x32#8 && !flagDiscard s.flags

/-- Reset (70_reset_and_hazards.md R280, 10_state.md R45), at any moment: every piece of the core's state at its reset
value. The environment's answers and the host's further moves are not the core's state and go on. -/
def State.resetCore (s : State) : State :=
  { State.reset with din := s.din, samples := s.samples, fresh := s.fresh, port := s.port }

end Sys2Proof.Machine
end

