-- ==== Sys2Proof/Machine/Prog.lean ====
section
/-! DEFINITION. Procedures (00_scope.md R14) as trees of primitives. A procedure returns a value, fails with a kind, or
performs a primitive and goes on with its answer, so "any primitive failure aborts the whole operation" is how procedures
are put together (`bind`). The same tree is run whole (`run`) and primitive by primitive (`resume`, 10_state.md R37). -/

namespace Sys2Proof.Machine

/-- The primitives: the five of 40_bit_transport.md (R130 to R134) and the transfers between SHIFT, the counters and the
local memories that 10_state.md R25, R39 and R40 name. Only the first four leave an event. -/
inductive Prim where
  /-- The pins of `set_data(l)`, without its settle delay (R130). -/
  | setData (l : Level)
  /-- `ck_set(b)` (R134). -/
  | ckSet (b : Bit)
  /-- `delay(n)` (R133). -/
  | delay (n : Nat)
  /-- `read_data()`; answers the sampled level (R132). -/
  | readData
  /-- A field begins: `BITCNT <- 0`, no bit of it is transferred yet (R25). -/
  | startField
  /-- `SHIFT <- v`. -/
  | loadShift (v : Byte)
  /-- One bit is out: `SHIFT <- SHIFT >> 1` (R100). -/
  | shiftOut
  /-- One bit is in: `SHIFT <- (SHIFT >> 1) | (b << 7)` (R101). -/
  | shiftIn (b : Bit)
  /-- Answers `SHIFT`. -/
  | readShift
  /-- A polling loop begins: `TRYCNT <- 0`. -/
  | clearTry
  /-- One try is made: `TRYCNT <- TRYCNT + 1`. -/
  | countTry
  /-- Answers `BUF[i]`. -/
  | loadBuf (i : Nat)
  /-- `BUF[i] <- b`. -/
  | storeBuf (i : Nat) (b : Byte)
  /-- Answers `SCRATCH[i]`. -/
  | loadScratch (i : Nat)
  /-- `SCRATCH[i] <- b`. -/
  | storeScratch (i : Nat) (b : Byte)
deriving DecidableEq, Repr

/-- The level `set_data` drives for a bit. -/
def levelOf (b : Bit) : Level := if b then .high else .low

/-- Perform one primitive: the next state and the answer (0 where the primitive answers nothing). -/
def doPrim (p : Prim) (s : State) : State × Byte :=
  match p with
  | .setData .low => ({ s with dOe := true, dOut := false, trace := s.trace ++ [.d false] }, 0#8)
  | .setData .high => ({ s with dOe := true, dOut := true, trace := s.trace ++ [.d true] }, 0#8)
  | .setData .z => ({ s with dOe := false, trace := s.trace ++ [.dz] }, 0#8)
  | .ckSet b => ({ s with ck := b, trace := s.trace ++ [.ck b] }, 0#8)
  | .delay n => (if n = 0 then s else s.emit [.t n], 0#8)
  | .readData => ((s.afterSamples 1).emit [.s (s.line 0)], bitByte (s.line 0))
  | .startField => ({ s with bitcnt := 0 }, 0#8)
  | .loadShift v => ({ s with shift := v }, 0#8)
  | .shiftOut => ({ s with shift := shiftRight s.shift, bitcnt := s.bitcnt + 1 }, 0#8)
  | .shiftIn b => ({ s with shift := shiftInto s.shift b, bitcnt := s.bitcnt + 1 }, 0#8)
  | .readShift => (s, s.shift)
  | .clearTry => ({ s with trycnt := 0 }, 0#8)
  | .countTry => ({ s with trycnt := s.trycnt + 1 }, 0#8)
  | .loadBuf i => s.readCell s.buf i
  | .storeBuf i b => ({ s with buf := s.buf.write i b }, 0#8)
  | .loadScratch i => s.readCell s.scratch i
  | .storeScratch i b => ({ s with scratch := s.scratch.write i b }, 0#8)

/-- A procedure that returns an `α` (00_scope.md R14). -/
inductive Prog (α : Type) where
  | ret (a : α)
  | raise (k : FailKind)
  | prim (p : Prim) (next : Byte → Prog α)

/-- Go on with the value a procedure returns; its failure is the caller's (`try`, R14). -/
def Prog.bind {α β : Type} : Prog α → (α → Prog β) → Prog β
  | .ret a, f => f a
  | .raise k, _ => .raise k
  | .prim p next, f => .prim p fun b => (next b).bind f

/-- One procedure, then another. -/
def Prog.andThen {α β : Type} (p : Prog α) (q : Prog β) : Prog β := p.bind fun _ => q

/-- A primitive whose answer is not used. -/
def act (p : Prim) : Prog Unit := .prim p fun _ => .ret ()

/-- `for i in 0..count-1`, ascending, from index `i` (R14). -/
def forUp (body : Nat → Prog Unit) : (count : Nat) → (i : Nat) → Prog Unit
  | 0, _ => .ret ()
  | n + 1, i => (body i).andThen (forUp body n (i + 1))

/-- How a procedure ends. -/
inductive Ending (α : Type) where
  | ok (a : α)
  | failed (k : FailKind)
deriving DecidableEq, Repr

/-- Run a procedure to its end: how it ends and the state it leaves. -/
def Prog.run {α : Type} : Prog α → State → Ending α × State
  | .ret a, s => (.ok a, s)
  | .raise k, s => (.failed k, s)
  | .prim p next, s => (next (doPrim p s).2).run (doPrim p s).1

/-- What is left of a procedure after primitives that answered `answers` (10_state.md R36). -/
def Prog.resume {α : Type} : Prog α → List Byte → Prog α
  | p, [] => p
  | .prim _ next, b :: bs => (next b).resume bs
  | p, _ :: _ => p

end Sys2Proof.Machine
end

