-- ==== Sys2Proof/Machine/HostPort.lean ====
section
/-! DEFINITION. The host command port (spec/45_host_commands.md): start, admission, completion of an operation, and the call
of one lower layer. -/

namespace Sys2Proof.Machine

/-- What the port knows of an operation: whether it needs a selected family (30_encoding.md R110), its further admission
checks in the order of R238 with the kind each fails with, and its procedure. -/
structure Operation where
  needsFamily : Bool
  checks : State → List (Bool × FailKind)
  prog : State → Prog Results

/-- The kind of the first check that fails (R238: "the first that fails decides the kind"). -/
def firstFailure : List (Bool × FailKind) → Option FailKind
  | [] => none
  | (passes, k) :: rest => if passes then firstFailure rest else some k

/-- The admission checks 2 to 8 of R238 (check 1 is the decoding of the opcode). -/
def Operation.admission (o : Operation) (s : State) : Option FailKind :=
  firstFailure ((!o.needsFamily || ctlFamilyValid s.familyCtl, .unsupportedDevice) :: o.checks s)

/-- The end of an operation, by success or by the failure it raised (R237). -/
def conclude (r : Ending Results × State) : State :=
  match r with
  | (.ok v, s) => s.succeed v
  | (.failed k, s) => s.fail k s.bufIsDest

/-- A write of `op` to CMD, whose operation is `o`: ignored while busy; else started, and ended at once if a check fails
(R235). -/
def startOperation (op : Byte) (o : Operation) (s : State) : State :=
  if s.busy then s
  else
    match o.admission (s.start op) with
    | some k => (s.start op).fail k (s.start op).bufIsDest
    | none => s.start op

/-- The command `op`, run to its end: a write of CMD and the whole of its operation, "success or the first failure" (R235,
R237, 00_scope.md R19). Ignored while busy. -/
def runOperation (op : Byte) (o : Operation) (s : State) : State :=
  if s.busy then s
  else
    match o.admission (s.start op) with
    | some k => (s.start op).fail k (s.start op).bufIsDest
    | none => conclude ((o.prog (s.start op)).run (s.start op))

/-- A value of CMD that is no opcode: "the operation ends at once with IllegalCommand and no pin event" (30_encoding.md R111,
R238 check 1). Ignored while busy. -/
def illegalCommand (op : Byte) (s : State) : State :=
  if s.busy then s else (s.start op).fail .illegalCommand (s.start op).bufIsDest

/-- One lower layer called by itself, while no operation runs: the procedure is run to its end, a failure is taken as every
failure is, and success touches no host register (41_register_access.md R160). `bufWasDest`: BUF is where the procedure puts
what it reads. Ignored while busy. DESIGN CHOICE, log 9. -/
def layerCall {α : Type} (p : Prog α) (bufWasDest : Bool) (s : State) : State :=
  if s.busy then s
  else
    match p.run s with
    | (.ok _, s') => s'
    | (.failed k, s') => s'.fail k bufWasDest

end Sys2Proof.Machine
end

