-- ==== Sys2Proof/Machine/Transport.lean ====
section
/-! DEFINITION. Bit Transport (spec/40_bit_transport.md): the procedures every frame is built from, and the bounded polling
loop the upper layers share (00_scope.md R17, "try"). -/

namespace Sys2Proof.Machine

/-- `delay(n)` (R133). -/
def delay (n : Nat) : Prog Unit := act (.delay n)

/-- `set_data(level)` with its settle delay (R130). -/
def setData (l : Level) : Prog Unit := (act (.setData l)).andThen (delay Config.tSettle)

/-- `ck_set(level)`, without a delay (R134). -/
def ckSet (b : Bit) : Prog Unit := act (.ckSet b)

/-- `strobe_clock()`: low, settle, high, settle (R131). -/
def strobeClock : Prog Unit :=
  (ckSet false).andThen <|
  (delay Config.tSettle).andThen <|
  (ckSet true).andThen <|
  delay Config.tSettle

/-- `read_data()` (R132). -/
def readData : Prog Bit := .prim .readData fun b => .ret (b.getLsbD 0)

/-- `send_bit(b)`: a host-driven slot (R135). -/
def sendBit (b : Bit) : Prog Unit := (setData (levelOf b)).andThen strobeClock

/-- `recv_bit()`: a host-sampled slot, strobe then sample (R136). -/
def recvBit : Prog Bit := strobeClock.andThen readData

/-- `idle_slot()`: a START or STOP slot (R137). -/
def idleSlot : Prog Unit := strobeClock

/-- START or STOP as a field of a frame: one idle slot, no bit (30_encoding.md R91). -/
def idleField : Prog Unit := (act .startField).andThen idleSlot

/-- A field of `n` driven slots, bit 0 of `v` first: drive `SHIFT[0]`, strobe, shift (30_encoding.md R100). -/
def sendField (n : Nat) (v : Byte) : Prog Unit :=
  (act .startField).andThen <|
  (act (.loadShift v)).andThen <|
  forUp (fun _ => .prim .readShift fun sh => (sendBit (sh.getLsbD 0)).andThen (act .shiftOut)) n 0

/-- A field of two driven slots: INS and LENGTH (30_encoding.md R92, R97). -/
def sendPair (f : BitVec 2) : Prog Unit := sendField 2 (f.setWidth 8)

/-- A field of eight driven slots: ADDRESS and DATA (30_encoding.md R93, R95). -/
def sendByte (v : Byte) : Prog Unit := sendField 8 v

/-- Eight sampled slots, bit 0 first, assembled in SHIFT (30_encoding.md R101). -/
def recvByte : Prog Byte :=
  (act .startField).andThen <|
  (act (.loadShift 0#8)).andThen <|
  (forUp (fun _ => recvBit.bind fun b => act (.shiftIn b)) 8 0).andThen <|
  .prim .readShift .ret

/-- At most the given number of tries, `gap` between two of them and none after the last; `BusTimeout` when every try
failed (R155, R171, R172). -/
def pollTries (gap : Nat) (attempt : Prog Bit) : (tries : Nat) → Prog Unit
  | 0 => .raise .busTimeout
  | n + 1 => attempt.bind fun passed => (act .countTry).andThen <|
    if passed then .ret ()
    else if n = 0 then .raise .busTimeout
    else (delay gap).andThen (pollTries gap attempt n)

/-- A bounded polling loop of `tries` tries. -/
def poll (gap : Nat) (attempt : Prog Bit) (tries : Nat) : Prog Unit :=
  (act .clearTry).andThen (pollTries gap attempt tries)

end Sys2Proof.Machine
end

