-- ==== Sys2Proof/Machine/RegisterAccess.lean ====
section
/-! DEFINITION. Register Access Protocol (spec/41_register_access.md): the four frames, each START, INS, payload, STOP
(R150), and the WAIT field. -/

namespace Sys2Proof.Machine

/-- `wait_field(N)`: each try one strobe and one sample, counted by TRYCNT (R155). -/
def waitField (tries : Nat) : Prog Unit := (act .startField).andThen (poll Config.waitGap recvBit tries)

/-- `write_ar(a)` (R151). -/
def writeAr (a : Byte) : Prog Unit :=
  idleField.andThen <|
  (sendPair insWriteAr).andThen <|
  (sendByte a).andThen <|
  (setData .z).andThen
  idleField

/-- `read_ar()` (R152). -/
def readAr : Prog Byte :=
  idleField.andThen <|
  (sendPair insReadAr).andThen <|
  (setData .z).andThen <|
  recvByte.bind fun r =>
  idleField.andThen <|
  .ret r

/-- `write_dr(d)` (R153). -/
def writeDr (d : Byte) : Prog Unit :=
  idleField.andThen <|
  (sendPair insWriteDr).andThen <|
  (sendPair length1Byte).andThen <|
  (sendByte d).andThen <|
  (setData .z).andThen <|
  (waitField Config.waitTriesWr).andThen
  idleField

/-- `read_dr()` (R154). -/
def readDr : Prog Byte :=
  idleField.andThen <|
  (sendPair insReadDr).andThen <|
  (sendPair length1Byte).andThen <|
  (setData .z).andThen <|
  (waitField Config.waitTriesRd).andThen <|
  recvByte.bind fun r =>
  idleField.andThen <|
  .ret r

end Sys2Proof.Machine
end

