-- ==== Sys2Proof/Machine/PiProtocol.lean ====
section
/-! DEFINITION. PI Command Protocol (spec/42_pi_protocol.md). The retry budget `POLL_OUT` is an argument, read from the host
register at each use (10_state.md R31). -/

namespace Sys2Proof.Machine

/-- The not-busy poll of `pi_write`: bit 1 of the byte Read AR returns clear (R171). -/
def busyPoll : Prog Unit := poll Config.busyGap (readAr.bind fun r => .ret (!arBusy r)) Config.busyTries

/-- The ready poll of `pi_get`: bit 0 of the byte Read AR returns set (R172). -/
def readyPoll (pollOut : Nat) : Prog Unit := poll Config.readyGap (readAr.bind fun r => .ret (arReady r)) pollOut

/-- `pi_write(b)` (R171). -/
def piWrite (b : Byte) : Prog Unit := (writeDr b).andThen busyPoll

/-- `pi_get()` (R172). -/
def piGet (pollOut : Nat) : Prog Byte := (readyPoll pollOut).andThen readDr

/-- What the core does with a response byte: 0x0D goes on, every other value is rejected (30_encoding.md R105). -/
def checkResponse (r : Byte) : Prog Unit := if r = Config.piRespOk then .ret () else .raise .protocolRejected

/-- `pi_check_ok()` (R173). -/
def piCheckOk (pollOut : Nat) : Prog Unit := (piGet pollOut).bind checkResponse

/-- `pi_command(cmd, verify, want_result)`; `none` where it returns no result (R174). -/
def piCommand (pollOut : Nat) (cmd : Byte) (verify wantResult : Bit) : Prog (Option Byte) :=
  (piWrite cmd).andThen <|
  if !verify then .ret none
  else (piCheckOk pollOut).andThen <|
    if wantResult then (piGet pollOut).bind fun r => .ret (some r)
    else .ret none

/-- A byte marked `v` in 30_encoding.md R103: followed by the OK check. -/
def piVerified (pollOut : Nat) (b : Byte) : Prog Unit := (piCommand pollOut b true false).andThen (.ret ())

/-- A byte marked `u` in 30_encoding.md R103: not followed by the OK check. -/
def piUnverified (pollOut : Nat) (b : Byte) : Prog Unit := (piCommand pollOut b false false).andThen (.ret ())

/-- A command with a result byte: `pi_command(cmd, verify=1, want_result=1)` (43_flash_block_ops.md R208). -/
def piQuery (pollOut : Nat) (cmd : Byte) : Prog Byte :=
  (piCommand pollOut cmd true true).bind fun r => .ret (r.getD 0#8)

end Sys2Proof.Machine
end

