-- ==== Sys2Proof/Machine/FlashOps.lean ====
section
/-! DEFINITION. Flash Block Operations (spec/43_flash_block_ops.md). Each is first the bytes of its PI command
(30_encoding.md R103), then the operation that selects FPDAT and issues them (R190). Arguments: `n` is `POLL_OUT`, `fpdat`
the family's FPDAT address, `c` the PI command bytes. -/

namespace Sys2Proof.Machine

/-! ## Direct access (R192, R193) -/

/-- The PI bytes of a direct read (R192). -/
def directReadBytes (n : Nat) (reg : Byte) : Prog Byte :=
  (piVerified n Config.piCodes.directRead).andThen <|
  (piUnverified n reg).andThen <|
  (piUnverified n Config.directLen).andThen <|
  piGet n

/-- `read_direct(reg)` (R192). -/
def readDirect (n : Nat) (fpdat reg : Byte) : Prog Byte := (writeAr fpdat).andThen (directReadBytes n reg)

/-- The PI bytes of a direct write (R193). -/
def directWriteBytes (n : Nat) (reg v : Byte) : Prog Unit :=
  (piVerified n Config.piCodes.directWrite).andThen <|
  (piUnverified n reg).andThen <|
  (piUnverified n Config.directLen).andThen <|
  piUnverified n v

/-- `write_direct(reg, v)` (R193). -/
def writeDirect (n : Nat) (fpdat reg v : Byte) : Prog Unit := (writeAr fpdat).andThen (directWriteBytes n reg v)

/-! ## Block read and block write (R194 to R197) -/

/-- Where a block read puts its bytes: a local memory, or nowhere (R194). -/
inductive Dest where
  | buf
  | scratch
  | null
deriving DecidableEq, Repr

/-- Where a block write takes its bytes from (R195). -/
inductive Source where
  | buf
  | scratch
deriving DecidableEq, Repr

/-- `if dest != null: dest[i] <- b` (R194). -/
def storeTo (dest : Dest) (i : Nat) (b : Byte) : Prog Unit :=
  match dest with
  | .buf => act (.storeBuf i b)
  | .scratch => act (.storeScratch i b)
  | .null => .ret ()

/-- `src[i]` (R195). -/
def loadFrom (src : Source) (i : Nat) : Prog Byte :=
  match src with
  | .buf => .prim (.loadBuf i) .ret
  | .scratch => .prim (.loadScratch i) .ret

/-- `block_header(cmd, addr, sub)` (R196). -/
def blockHeader (n : Nat) (cmd : Byte) (addr sub : Nat) : Prog Unit :=
  (piVerified n cmd).andThen <|
  (piUnverified n (addrHiByte addr)).andThen <|
  (piUnverified n (addrLoByte addr)).andThen <|
  piVerified n (subBlockByte sub)

/-- One sub-block of a block read: the header, then `sub` bytes to `dest[k ..]` (R194). -/
def readSubBlock (n : Nat) (dest : Dest) (addr sub k : Nat) : Prog Unit :=
  (blockHeader n Config.piCodes.blockRead addr sub).andThen <|
  forUp (fun i => (piGet n).bind fun b => storeTo dest (k + i) b) sub 0

/-- One sub-block of a block write: the header, then `sub` bytes from `src[k ..]`, each unverified (R195). -/
def writeSubBlock (n : Nat) (src : Source) (addr sub k : Nat) : Prog Unit :=
  (blockHeader n Config.piCodes.blockWrite addr sub).andThen <|
  forUp (fun i => (loadFrom src (k + i)).bind fun b => piUnverified n b) sub 0

/-- `while length > 0`: one sub-block, then `addr`, `length` and `k` advance by its size (R194, R195). Each pass takes at
least one byte, so `fuel` = `length` passes are enough. -/
def blockLoop (body : (addr sub k : Nat) → Prog Unit) : (fuel addr length k : Nat) → Prog Unit
  | 0, _, _, _ => .ret ()
  | fuel + 1, addr, length, k =>
    if length = 0 then .ret ()
    else (body addr (subSize length) k).andThen <|
      blockLoop body fuel (addr + subSize length) (length - subSize length) (k + subSize length)

/-- `block_read(addr, length, dest)` (R194). -/
def blockRead (n : Nat) (fpdat : Byte) (addr length : Nat) (dest : Dest) : Prog Unit :=
  (writeAr fpdat).andThen (blockLoop (readSubBlock n dest) length addr length 0)

/-- `block_write(addr, length, src)` (R195). -/
def blockWrite (n : Nat) (fpdat : Byte) (addr length : Nat) (src : Source) : Prog Unit :=
  (writeAr fpdat).andThen (blockLoop (writeSubBlock n src) length addr length 0)

/-! ## Erase (R198 to R200) -/

/-- The PI bytes of a page erase: three verified bytes (R198). -/
def pageEraseBytes (n : Nat) (page : Byte) : Prog Unit :=
  (piVerified n Config.piCodes.pageErase).andThen <|
  (piVerified n page).andThen <|
  piVerified n Config.eraseTerm

/-- `erase_page(page)`, with the restore of register 0xF5 where the family needs it (R198, R199). -/
def erasePage (n : Nat) (fpdat : Byte) (erratum : Bit) (page : Byte) : Prog Unit :=
  (writeAr fpdat).andThen <|
  (pageEraseBytes n page).andThen <|
  if erratum then writeDirect n fpdat Config.erratumReg Config.erratumVal else .ret ()

/-- The PI bytes of a device erase: the command, the key, a final OK check (R200). -/
def deviceEraseBytes (n : Nat) : Prog Unit :=
  (piVerified n Config.piCodes.deviceErase).andThen <|
  (piWrite Config.eraseKey0).andThen <|
  (piWrite Config.eraseKey1).andThen <|
  (piWrite Config.eraseKey2).andThen <|
  piCheckOk n

/-- `erase_device()` (R200). -/
def eraseDevice (n : Nat) (fpdat : Byte) : Prog Unit := (writeAr fpdat).andThen (deviceEraseBytes n)

/-! ## Reset, halt and identification (R206 to R208) -/

/-- The reset pulse on the clock line, the data line released (R206). -/
def resetPulse : Prog Unit :=
  (ckSet false).andThen <|
  (delay Config.resetLow).andThen <|
  (ckSet true).andThen <|
  delay Config.tSettle

/-- `reset_and_halt()` (R206). -/
def resetAndHalt (fpctl : Byte) : Prog Unit :=
  resetPulse.andThen <|
  (writeAr fpctl).andThen <|
  (writeDr Config.fpctlReset).andThen <|
  (writeDr Config.fpctlCoreReset).andThen <|
  (writeDr Config.fpctlHalt).andThen <|
  delay Config.haltSettle

/-- `MemRead(C2REG, a, 1)`: select a target register and read it (20_memory.md R66). -/
def memReadC2 (a : Byte) : Prog Byte := (writeAr a).andThen readDr

/-- `MemWrite(C2REG, a, 1, v)`: select a target register and write it (20_memory.md R66). -/
def memWriteC2 (a v : Byte) : Prog Unit := (writeAr a).andThen (writeDr v)

/-- `get_device_info()` (R207). -/
def getDeviceInfo : Prog (Byte × Byte) :=
  (memReadC2 Config.arDeviceId).bind fun id =>
  (memReadC2 Config.arRevId).bind fun rev =>
  .ret (id, rev)

/-- `get_pi_info()` (R208). -/
def getPiInfo (n : Nat) (fpdat : Byte) : Prog (Byte × Byte) :=
  (writeAr fpdat).andThen <|
  (piQuery n Config.piGetVersion).bind fun ver =>
  (piQuery n Config.piGetDerivative).bind fun der =>
  .ret (ver, der)

end Sys2Proof.Machine
end

