-- ==== Sys2Proof/Machine/PiCodes.lean ====
section
/-! DEFINITION. The meanings of the PI bytes and status masks: a PI command is its byte with the bytes of its format
(30_encoding.md R103), on whatever register the target's AR selects (42_pi_protocol.md R170); a response is what the core
does with it (R105); a mask is the poll that tests it (42_pi_protocol.md R171, R172). A byte read last is left in SHIFT; a
block's bytes are in BUF from index 0 (DESIGN CHOICE, log 16). -/

namespace Sys2Proof.Machine

/-- `POLL_OUT` as a number of tries (10_state.md R31). -/
def State.pollTries (s : State) : Nat := s.pollOut.toNat

/-- PI_GET_VERSION (43_flash_block_ops.md R208). -/
def execPiGetVersion (s : State) : Host.Outcome State Fault Refusal :=
  .next (layerCall (piQuery s.pollTries Config.piGetVersion) false s)

/-- PI_GET_DERIVATIVE (43_flash_block_ops.md R208). -/
def execPiGetDerivative (s : State) : Host.Outcome State Fault Refusal :=
  .next (layerCall (piQuery s.pollTries Config.piGetDerivative) false s)

/-- PI_DEVICE_ERASE (43_flash_block_ops.md R200). -/
def execPiDeviceErase (s : State) : Host.Outcome State Fault Refusal :=
  .next (layerCall (deviceEraseBytes s.pollTries) false s)

/-- PI_BLOCK_READ, one sub-block to BUF (43_flash_block_ops.md R194, R196). With `addr + n > 65536` it runs like any other:
R83 gives such a request no meaning and R238 refuses it at the host port only (DESIGN CHOICE, log 26). -/
def execPiBlockRead (addr : Word16) (n : Nat) (s : State) : Host.Outcome State Fault Refusal :=
  .next (layerCall (readSubBlock s.pollTries .buf addr.toNat n 0) true s)

/-- PI_BLOCK_WRITE, one sub-block from BUF (43_flash_block_ops.md R195, R196). With `addr + n > 65536` it runs like any other
(DESIGN CHOICE, log 26). -/
def execPiBlockWrite (addr : Word16) (n : Nat) (s : State) : Host.Outcome State Fault Refusal :=
  .next (layerCall (writeSubBlock s.pollTries .buf addr.toNat n 0) false s)

/-- PI_PAGE_ERASE (43_flash_block_ops.md R198, without the erratum restore, which is a command of its own). -/
def execPiPageErase (page : Byte) (s : State) : Host.Outcome State Fault Refusal :=
  .next (layerCall (pageEraseBytes s.pollTries page) false s)

/-- PI_DIRECT_READ (43_flash_block_ops.md R192). -/
def execPiDirectRead (reg : Byte) (s : State) : Host.Outcome State Fault Refusal :=
  .next (layerCall (directReadBytes s.pollTries reg) false s)

/-- PI_DIRECT_WRITE (43_flash_block_ops.md R193). -/
def execPiDirectWrite (reg v : Byte) (s : State) : Host.Outcome State Fault Refusal :=
  .next (layerCall (directWriteBytes s.pollTries reg v) false s)

/-- A response byte that is not one of the named ones is rejected too (30_encoding.md R105, U11). -/
def receiveResponse (r : Byte) (s : State) : Host.Outcome State Fault Refusal :=
  .next (layerCall (checkResponse r) false s)

/-- PI_RESP_OK: continue (R105). -/
def execPiRespOk (s : State) : Host.Outcome State Fault Refusal := .next (layerCall (checkResponse 0x0D#8) false s)

/-- PI_RESP_INVALID: `ProtocolRejected` (R105). -/
def execPiRespInvalid (s : State) : Host.Outcome State Fault Refusal := .next (layerCall (checkResponse 0x00#8) false s)

/-- PI_RESP_FAILED: `ProtocolRejected` (R105). -/
def execPiRespFailed (s : State) : Host.Outcome State Fault Refusal := .next (layerCall (checkResponse 0x02#8) false s)

/-- AR_OUT_READY: the ready poll (42_pi_protocol.md R172). -/
def execArOutReady (s : State) : Host.Outcome State Fault Refusal := .next (layerCall (readyPoll s.pollTries) false s)

/-- AR_IN_BUSY: the not-busy poll (42_pi_protocol.md R171). -/
def execArInBusy (s : State) : Host.Outcome State Fault Refusal := .next (layerCall busyPoll false s)

end Sys2Proof.Machine
end

