-- ==== Sys2Proof/Machine/FlashCommands.lean ====
section
/-! DEFINITION. The host commands 0x30 to 0x38 (30_encoding.md R109, R110; 43_flash_block_ops.md R192 to R208) with their
admission checks (45_host_commands.md R238). -/

namespace Sys2Proof.Machine

/-- Check 4: the request does not run past the flash address space. -/
def requestInFlash (s : State) : Bool := s.addr.toNat + s.len.toNat ≤ Config.flashSpace

/-- `READ_DIRECT`: `BYTE0` = register number; `RES0` = value. -/
def opReadDirect : Operation where
  needsFamily := true
  checks _ := []
  prog s := (readDirect s.pollTries s.fpdatAddr s.byte0).bind fun v => .ret { res0 := some v }

/-- `WRITE_DIRECT`: `BYTE0` = register number, `BYTE1` = value. -/
def opWriteDirect : Operation where
  needsFamily := true
  checks _ := []
  prog s := (writeDirect s.pollTries s.fpdatAddr s.byte0 s.byte1).andThen (.ret {})

/-- `BLOCK_READ`: `ADDR`, `LEN`, `FLAGS.DISCARD`; data to `BUF[0 ..]` unless `DISCARD`. Checks 3 and 4. -/
def opBlockRead : Operation where
  needsFamily := true
  checks s := [(flagDiscard s.flags || decide (s.len.toNat ≤ Config.bufSize), .illegalCommand),
    (requestInFlash s, .illegalCommand)]
  prog s := (blockRead s.pollTries s.fpdatAddr s.addr.toNat s.len.toNat
    (if flagDiscard s.flags then .null else .buf)).andThen (.ret {})

/-- `BLOCK_WRITE`: `ADDR`, `LEN`; data from `BUF[0 ..]`. Checks 3 and 4. -/
def opBlockWrite : Operation where
  needsFamily := true
  checks s := [(decide (s.len.toNat ≤ Config.bufSize), .illegalCommand), (requestInFlash s, .illegalCommand)]
  prog s := (blockWrite s.pollTries s.fpdatAddr s.addr.toNat s.len.toNat .buf).andThen (.ret {})

/-- `ERASE_PAGE`: `BYTE0` = page index, `FAMILY_CTL.ERRATUM_F5`. -/
def opErasePage : Operation where
  needsFamily := true
  checks _ := []
  prog s := (erasePage s.pollTries s.fpdatAddr (ctlErratumF5 s.familyCtl) s.byte0).andThen (.ret {})

/-- `ERASE_DEVICE`. -/
def opEraseDevice : Operation where
  needsFamily := true
  checks _ := []
  prog s := (eraseDevice s.pollTries s.fpdatAddr).andThen (.ret {})

/-- `RESET_HALT`: `FPCTL_ADDR`. -/
def opResetHalt : Operation where
  needsFamily := false
  checks _ := []
  prog s := (resetAndHalt s.fpctlAddr).andThen (.ret {})

/-- `GET_DEVICE_INFO`: `RES0` = device ID, `RES1` = revision ID, both captured. -/
def opGetDeviceInfo : Operation where
  needsFamily := false
  checks _ := []
  prog _ := getDeviceInfo.bind fun v => .ret { res0 := some v.1, res1 := some v.2, device := some v }

/-- `GET_PI_INFO`: `RES0` = version, `RES1` = derivative, both captured. -/
def opGetPiInfo : Operation where
  needsFamily := true
  checks _ := []
  prog s := (getPiInfo s.pollTries s.fpdatAddr).bind fun v => .ret { res0 := some v.1, res1 := some v.2, pi := some v }

/-- READ_DIRECT (R192). -/
def execReadDirect (s : State) : Host.Outcome State Fault Refusal := .next (runOperation 0x30#8 opReadDirect s)
/-- WRITE_DIRECT (R193). -/
def execWriteDirect (s : State) : Host.Outcome State Fault Refusal := .next (runOperation 0x31#8 opWriteDirect s)
/-- BLOCK_READ (R194). -/
def execBlockRead (s : State) : Host.Outcome State Fault Refusal := .next (runOperation 0x32#8 opBlockRead s)
/-- BLOCK_WRITE (R195). -/
def execBlockWrite (s : State) : Host.Outcome State Fault Refusal := .next (runOperation 0x33#8 opBlockWrite s)
/-- ERASE_PAGE (R198, R199). -/
def execErasePage (s : State) : Host.Outcome State Fault Refusal := .next (runOperation 0x34#8 opErasePage s)
/-- ERASE_DEVICE (R200). -/
def execEraseDevice (s : State) : Host.Outcome State Fault Refusal := .next (runOperation 0x35#8 opEraseDevice s)
/-- RESET_HALT (R206). -/
def execResetHalt (s : State) : Host.Outcome State Fault Refusal := .next (runOperation 0x36#8 opResetHalt s)
/-- GET_DEVICE_INFO (R207). -/
def execGetDeviceInfo (s : State) : Host.Outcome State Fault Refusal := .next (runOperation 0x37#8 opGetDeviceInfo s)
/-- GET_PI_INFO (R208). -/
def execGetPiInfo (s : State) : Host.Outcome State Fault Refusal := .next (runOperation 0x38#8 opGetPiInfo s)

end Sys2Proof.Machine
end

