-- ==== Sys2Proof/Machine/FpctlCodes.lean ====
section
/-! DEFINITION. The meanings of the three FPCTL bytes: each is a Write DR frame carrying the byte, to the register AR selects
(30_encoding.md R107, 43_flash_block_ops.md R206). -/

namespace Sys2Proof.Machine

/-- FPCTL_RESET (R206). -/
def execFpctlReset (s : State) : Host.Outcome State Fault Refusal :=
  .next (layerCall (writeDr Config.fpctlReset) false s)

/-- FPCTL_CORE_RESET (R206). -/
def execFpctlCoreReset (s : State) : Host.Outcome State Fault Refusal :=
  .next (layerCall (writeDr Config.fpctlCoreReset) false s)

/-- FPCTL_HALT (R206). -/
def execFpctlHalt (s : State) : Host.Outcome State Fault Refusal :=
  .next (layerCall (writeDr Config.fpctlHalt) false s)

end Sys2Proof.Machine
end

