-- ==== Sys2Proof/Machine/FrameCodes.lean ====
section
/-! DEFINITION. The meanings of the four frames of the register-access layer (41_register_access.md R151 to R156). What a
read frame returns is left in SHIFT. -/

namespace Sys2Proof.Machine

/-- WRITE_AR_FRAME (R151). -/
def execWriteArFrame (a : Byte) (s : State) : Host.Outcome State Fault Refusal := .next (layerCall (writeAr a) false s)

/-- READ_AR_FRAME (R152). -/
def execReadArFrame (s : State) : Host.Outcome State Fault Refusal := .next (layerCall readAr false s)

/-- WRITE_DR_FRAME (R153). -/
def execWriteDrFrame (d : Byte) (s : State) : Host.Outcome State Fault Refusal := .next (layerCall (writeDr d) false s)

/-- READ_DR_FRAME (R154). -/
def execReadDrFrame (s : State) : Host.Outcome State Fault Refusal := .next (layerCall readDr false s)

end Sys2Proof.Machine
end

