-- ==== Sys2Proof/Machine/PageWrite.lean ====
section
/-! DEFINITION. Page Write Algorithm (spec/44_page_write.md): read, modify, erase and write exactly one erase page. -/

namespace Sys2Proof.Machine

/-- Step 4: `SCRATCH[chunk_start + i] <- src[i]` for `i` below `chunk_len`, the source being BUF (R220, R227). -/
def overlay (start count : Nat) : Prog Unit :=
  forUp (fun i => .prim (.loadBuf i) fun b => act (.storeScratch (start + i) b)) count 0

/-- `flash_chunk(addr, length, BUF)`; returns `chunk_len` (R220). -/
def flashChunk (n : Nat) (fpdat : Byte) (erratum : Bit) (addr length p : Nat) : Prog Nat :=
  (if readsFirst addr length p then blockRead n fpdat (pageBase addr p) p .scratch else .ret ()).andThen <|
  (overlay (chunkStart addr p) (chunkLen addr length p)).andThen <|
  (erasePage n fpdat erratum (BitVec.ofNat 8 (pageOf addr p))).andThen <|
  (blockWrite n fpdat (pageBase addr p) p .scratch).andThen <|
  .ret (chunkLen addr length p)

end Sys2Proof.Machine
end

