-- ==== Sys2Proof/Machine/PageCommand.lean ====
section
/-! DEFINITION. The host command 0x40 (30_encoding.md R109, R110; 44_page_write.md R220) with its admission checks
(45_host_commands.md R238, checks 5 to 8). -/

namespace Sys2Proof.Machine

/-- The checks 5 to 8 of R238, in order. -/
def chunkChecks (addr length p : Nat) : List (Bool × FailKind) :=
  [(isPow2 p && decide (p ≤ Config.scratchSize), .illegalCommand),
    (decide (pageOf addr p ≤ 255), .illegalCommand),
    (decide (pageBase addr p + p ≤ Config.flashSpace), .illegalCommand),
    (decide (chunkLen addr length p ≤ Config.bufSize), .illegalCommand)]

/-- `FLASH_CHUNK`: `ADDR`, `LEN`, `PAGE_SIZE`, `FAMILY_CTL.ERRATUM_F5`, data from `BUF[0 ..]`; `RES_LEN` = chunk_len. -/
def opFlashChunk : Operation where
  needsFamily := true
  checks s := chunkChecks s.addr.toNat s.len.toNat s.pageSize.toNat
  prog s := (flashChunk s.pollTries s.fpdatAddr (ctlErratumF5 s.familyCtl) s.addr.toNat s.len.toNat
    s.pageSize.toNat).bind fun n => .ret { resLen := some (BitVec.ofNat 32 n) }

/-- FLASH_CHUNK (R220). -/
def execFlashChunk (s : State) : Host.Outcome State Fault Refusal := .next (runOperation 0x40#8 opFlashChunk s)

end Sys2Proof.Machine
end

