-- ==== Sys2Proof/Machine/PiCommands.lean ====
section
/-! DEFINITION. The host commands 0x20 to 0x23 (30_encoding.md R109, R110; 42_pi_protocol.md R171 to R174). None of them
selects FPDAT (R170). -/

namespace Sys2Proof.Machine

/-- `PI_WRITE`: `BYTE0` = byte. -/
def opPiWrite : Operation where
  needsFamily := false
  checks _ := []
  prog s := (piWrite s.byte0).andThen (.ret {})

/-- `PI_GET`: `RES0` = byte read. -/
def opPiGet : Operation where
  needsFamily := false
  checks _ := []
  prog s := (piGet s.pollTries).bind fun r => .ret { res0 := some r }

/-- `PI_CHECK_OK`. -/
def opPiCheckOk : Operation where
  needsFamily := false
  checks _ := []
  prog s := (piCheckOk s.pollTries).andThen (.ret {})

/-- `PI_COMMAND`: `BYTE0` = cmd, `FLAGS.VERIFY`, `FLAGS.WANT_RESULT`; `RES0` = result byte where there is one. -/
def opPiCommand : Operation where
  needsFamily := false
  checks _ := []
  prog s := (piCommand s.pollTries s.byte0 (flagVerify s.flags) (flagWantResult s.flags)).bind fun r =>
    .ret { res0 := r }

/-- PI_WRITE (R171). -/
def execPiWrite (s : State) : Host.Outcome State Fault Refusal := .next (runOperation 0x20#8 opPiWrite s)
/-- PI_GET (R172). -/
def execPiGet (s : State) : Host.Outcome State Fault Refusal := .next (runOperation 0x21#8 opPiGet s)
/-- PI_CHECK_OK (R173). -/
def execPiCheckOk (s : State) : Host.Outcome State Fault Refusal := .next (runOperation 0x22#8 opPiCheckOk s)
/-- PI_COMMAND (R174). -/
def execPiCommand (s : State) : Host.Outcome State Fault Refusal := .next (runOperation 0x23#8 opPiCommand s)

end Sys2Proof.Machine
end

