-- ==== Sys2Proof/Machine/RegisterCommands.lean ====
section
/-! DEFINITION. The host commands 0x10 to 0x13 (30_encoding.md R109, R110; 41_register_access.md R151 to R154). -/

namespace Sys2Proof.Machine

/-- `WRITE_AR`: `BYTE0` = address. -/
def opWriteAr : Operation where
  needsFamily := false
  checks _ := []
  prog s := (writeAr s.byte0).andThen (.ret {})

/-- `READ_AR`: `RES0` = byte read. -/
def opReadAr : Operation where
  needsFamily := false
  checks _ := []
  prog _ := readAr.bind fun r => .ret { res0 := some r }

/-- `WRITE_DR`: `BYTE0` = data. -/
def opWriteDr : Operation where
  needsFamily := false
  checks _ := []
  prog s := (writeDr s.byte0).andThen (.ret {})

/-- `READ_DR`: `RES0` = byte read. -/
def opReadDr : Operation where
  needsFamily := false
  checks _ := []
  prog _ := readDr.bind fun r => .ret { res0 := some r }

/-- WRITE_AR (R151). -/
def execWriteAr (s : State) : Host.Outcome State Fault Refusal := .next (runOperation 0x10#8 opWriteAr s)
/-- READ_AR (R152). -/
def execReadAr (s : State) : Host.Outcome State Fault Refusal := .next (runOperation 0x11#8 opReadAr s)
/-- WRITE_DR (R153). -/
def execWriteDr (s : State) : Host.Outcome State Fault Refusal := .next (runOperation 0x12#8 opWriteDr s)
/-- READ_DR (R154). -/
def execReadDr (s : State) : Host.Outcome State Fault Refusal := .next (runOperation 0x13#8 opReadDr s)

end Sys2Proof.Machine
end

