-- ==== Sys2Proof/Machine/Dispatch.lean ====
section
/-! DEFINITION. What each instruction does: one arm per row of spec/opcode_table.json. -/

namespace Sys2Proof.Machine

def exec (i : Instr) (s : State) : Host.Outcome State Fault Refusal :=
  match i with
  | .writeArFrame a => Sys2Proof.Machine.execWriteArFrame a s
  | .readArFrame => Sys2Proof.Machine.execReadArFrame s
  | .writeDrFrame d => Sys2Proof.Machine.execWriteDrFrame d s
  | .readDrFrame => Sys2Proof.Machine.execReadDrFrame s
  | .piGetVersion => Sys2Proof.Machine.execPiGetVersion s
  | .piGetDerivative => Sys2Proof.Machine.execPiGetDerivative s
  | .piDeviceErase => Sys2Proof.Machine.execPiDeviceErase s
  | .piBlockRead addr n => Sys2Proof.Machine.execPiBlockRead addr n s
  | .piBlockWrite addr n => Sys2Proof.Machine.execPiBlockWrite addr n s
  | .piPageErase page => Sys2Proof.Machine.execPiPageErase page s
  | .piDirectRead reg => Sys2Proof.Machine.execPiDirectRead reg s
  | .piDirectWrite reg v => Sys2Proof.Machine.execPiDirectWrite reg v s
  | .piRespOk => Sys2Proof.Machine.execPiRespOk s
  | .piRespInvalid => Sys2Proof.Machine.execPiRespInvalid s
  | .piRespFailed => Sys2Proof.Machine.execPiRespFailed s
  | .fpctlReset => Sys2Proof.Machine.execFpctlReset s
  | .fpctlCoreReset => Sys2Proof.Machine.execFpctlCoreReset s
  | .fpctlHalt => Sys2Proof.Machine.execFpctlHalt s
  | .arOutReady => Sys2Proof.Machine.execArOutReady s
  | .arInBusy => Sys2Proof.Machine.execArInBusy s
  | .writeAr => Sys2Proof.Machine.execWriteAr s
  | .readAr => Sys2Proof.Machine.execReadAr s
  | .writeDr => Sys2Proof.Machine.execWriteDr s
  | .readDr => Sys2Proof.Machine.execReadDr s
  | .piWrite => Sys2Proof.Machine.execPiWrite s
  | .piGet => Sys2Proof.Machine.execPiGet s
  | .piCheckOk => Sys2Proof.Machine.execPiCheckOk s
  | .piCommand => Sys2Proof.Machine.execPiCommand s
  | .readDirect => Sys2Proof.Machine.execReadDirect s
  | .writeDirect => Sys2Proof.Machine.execWriteDirect s
  | .blockRead => Sys2Proof.Machine.execBlockRead s
  | .blockWrite => Sys2Proof.Machine.execBlockWrite s
  | .erasePage => Sys2Proof.Machine.execErasePage s
  | .eraseDevice => Sys2Proof.Machine.execEraseDevice s
  | .resetHalt => Sys2Proof.Machine.execResetHalt s
  | .getDeviceInfo => Sys2Proof.Machine.execGetDeviceInfo s
  | .getPiInfo => Sys2Proof.Machine.execGetPiInfo s
  | .flashChunk => Sys2Proof.Machine.execFlashChunk s

end Sys2Proof.Machine
end

