-- ==== Sys2Proof/Machine/Sequencer.lean ====
section
/-! DEFINITION. The sequencer (10_state.md R36, R37): which operation an opcode selects, how a running operation performs its
next primitive, and how it goes on to its end. -/

namespace Sys2Proof.Machine

/-- The operation of a host command (30_encoding.md R109); none for the codes of the lower layers. -/
def operationOfInstr : Instr → Option Operation
  | .writeAr => some opWriteAr
  | .readAr => some opReadAr
  | .writeDr => some opWriteDr
  | .readDr => some opReadDr
  | .piWrite => some opPiWrite
  | .piGet => some opPiGet
  | .piCheckOk => some opPiCheckOk
  | .piCommand => some opPiCommand
  | .readDirect => some opReadDirect
  | .writeDirect => some opWriteDirect
  | .blockRead => some opBlockRead
  | .blockWrite => some opBlockWrite
  | .erasePage => some opErasePage
  | .eraseDevice => some opEraseDevice
  | .resetHalt => some opResetHalt
  | .getDeviceInfo => some opGetDeviceInfo
  | .getPiInfo => some opGetPiInfo
  | .flashChunk => some opFlashChunk
  | .writeArFrame _ | .readArFrame | .writeDrFrame _ | .readDrFrame | .piGetVersion | .piGetDerivative
  | .piDeviceErase | .piBlockRead _ _ | .piBlockWrite _ _ | .piPageErase _ | .piDirectRead _ | .piDirectWrite _ _
  | .piRespOk | .piRespInvalid | .piRespFailed | .fpctlReset | .fpctlCoreReset | .fpctlHalt | .arOutReady
  | .arInBusy => none

/-- The operation a value of CMD selects; none if it is no opcode (R111). -/
def operationOf (op : Byte) : Option Operation :=
  match decodeHost op with
  | .ok i => operationOfInstr i
  | .error _ => none

/-- A host write of `op` to CMD, not waited for (R235). -/
def startCommand (op : Byte) (s : State) : State :=
  match operationOf op with
  | some o => startOperation op o s
  | none => illegalCommand op s

/-- What is left of the running operation at `s`: the procedure of the operation CMD holds, after the primitives already
performed. Its operands cannot have changed meanwhile (R28). None when idle. -/
def State.remaining (s : State) : Option (Prog Results) :=
  match s.seq with
  | .idle => none
  | .run answers =>
    match operationOf s.cmd with
    | some o => some ((o.prog s).resume answers)
    | none => none

/-- One step of a running operation: the next primitive, or the end (R37). A sample while the core drives the line has no
meaning (R132, U2). -/
def performNext (answers : List Byte) (p : Prog Results) (s : State) : Host.Outcome State Fault Refusal :=
  match p with
  | .ret v => .next (s.succeed v)
  | .raise k => .next (s.fail k s.bufIsDest)
  | .prim q _ =>
    if q = .readData ∧ s.dOe = true then .fault .sampleWhileDriven
    else .next { (doPrim q s).1 with seq := .run (answers ++ [(doPrim q s).2]) }

/-- The core by itself: idle, it "waits for a host command" (70_reset_and_hazards.md R281); running, it performs one
primitive (R37). -/
def advance (s : State) : Host.Outcome State Fault Refusal :=
  match s.seq with
  | .idle => .next s
  | .run answers =>
    match operationOf s.cmd with
    | some o => performNext answers ((o.prog s).resume answers) s
    | none => .next (s.fail .illegalCommand s.bufIsDest)

/-- The running operation goes on to its end; nothing when idle. -/
def complete (s : State) : State :=
  match s.seq with
  | .idle => s
  | .run answers =>
    match operationOf s.cmd with
    | some o => conclude (((o.prog s).resume answers).run s)
    | none => s.fail .illegalCommand s.bufIsDest

end Sys2Proof.Machine
end

