-- ==== Sys2Proof/Machine/HostAccess.lean ====
section
/-! DEFINITION. Host accesses (10_state.md R28, R39; 45_host_commands.md R239, R240): while idle, reads and writes of the
registers and of BUF; while busy, only STATUS can be read, writes are ignored and other reads return unspecified data. -/

namespace Sys2Proof.Machine

/-- The host gets `v` back. -/
def State.answerHost (s : State) (v : Word32) : State := { s with hostData := v }

/-- The host gets unspecified data back: a free value (R28). -/
def State.answerFree (s : State) : State :=
  { s with hostData := Config.freeWord s.fresh, fresh := s.fresh + 1 }

/-- A host write of a register (R28, R235). -/
def hostWrite (r : HReg) (v : Word32) (s : State) : Host.Outcome State Fault Refusal :=
  if s.busy then .next s
  else if r = .cmd then .next (startCommand (v.setWidth 8) s)
  else if r.writable then .next (s.writeReg r v)
  else .refused .writeOfReadOnly

/-- A host read of a register (R28). -/
def hostRead (r : HReg) (s : State) : Host.Outcome State Fault Refusal :=
  if s.busy ∧ r ≠ .status then .next s.answerFree
  else if r.readable then .next (s.answerHost (s.readReg r))
  else .refused .readOfWriteOnly

/-- A host write of `BUF[i]` (R39). -/
def hostWriteBuf (i : Nat) (b : Byte) (s : State) : Host.Outcome State Fault Refusal :=
  if s.busy then .next s
  else if i < Config.bufSize then .next { s with buf := s.buf.write i b }
  else .fault .bufIndexOutOfRange

/-- A host read of `BUF[i]` (R39); a byte that holds no value reads as a free one (R46, U5). -/
def hostReadBuf (i : Nat) (s : State) : Host.Outcome State Fault Refusal :=
  if s.busy then .next s.answerFree
  else if i < Config.bufSize then .next ((s.readCell s.buf i).1.answerHost ((s.readCell s.buf i).2.setWidth 32))
  else .fault .bufIndexOutOfRange

/-- Bytes that no row of their code space has: a response byte is rejected all the same (30_encoding.md R105), an opcode is
an illegal command (R111), and the rest is refused (R97, R111). -/
def undecodedMove (sp : Space) (bytes : List Byte) (s : State) : Host.Outcome State Fault Refusal :=
  match sp, bytes with
  | .resp, b :: _ => receiveResponse b s
  | .host, b :: _ => .next (illegalCommand b s)
  | _, _ => .refused .undecodable

/-- The move that hands a table word to its layer (a host opcode is written to CMD and waited for). -/
def fetchMove (nbits w : Nat) : PortMove :=
  match tableCode nbits w with
  | (.host, b :: _) => .run b
  | (sp, bytes) => .layer sp bytes

/-- The machine idle, so that the next move is taken: what a fetch needs besides the word. -/
def State.idled (s : State) : State := { s with seq := .idle, status := s.status &&& 0xFE#8 }

end Sys2Proof.Machine
end

