-- ==== Sys2Proof/Machine/Step.lean ====
section
/-! DEFINITION. One step: the next move at the core's inputs, and where there is none, the next primitive of a running
operation (10_state.md R37). -/

namespace Sys2Proof.Machine

/-- What one move does, the move already taken off the port. -/
def takeMove (m : PortMove) (s : State) : Host.Outcome State Fault Refusal :=
  match m with
  | .run op =>
    match decodeHost op with
    | .ok i => exec i s
    | .error _ => .next (illegalCommand op s)
  | .write r v => hostWrite r v s
  | .read r => hostRead r s
  | .writeBuf i b => hostWriteBuf i b s
  | .readBuf i => hostReadBuf i s
  | .pass => advance s
  | .wait => .next (complete s)
  | .layer sp bytes =>
    match decode sp bytes with
    | .ok (i, _) => exec i s
    | .error _ => undecodedMove sp bytes s
  | .reset => .next s.resetCore
  | .otherMaster => .refused .secondMaster

/-- One step of the machine. -/
def step (s : State) : Host.Outcome State Fault Refusal :=
  match s.port with
  | [] => advance s
  | m :: rest => takeMove m { s with port := rest }

/-- `s` with the table word `w` of `nbits` bits as the next thing the machine is handed, and the machine idle so that it
takes it. -/
def State.withFetchWord (s : State) (nbits w : Nat) : State :=
  { s.idled with port := fetchMove nbits w :: s.port }

end Sys2Proof.Machine
end

