-- ==== Sys2Proof/Machine/Pseudo.lean ====
section
/-! DEFINITION. The pseudo-operations: lists of host moves (30_encoding.md R114), the abbreviations for accesses to the
target's address spaces (20_memory.md R66), and the loop of write_region, which is the host's (44_page_write.md R224). -/

namespace Sys2Proof.Machine

/-- `set_poll_out n` (R114, R239). -/
def setPollOut (n : Word32) : List PortMove := [.write .pollOut n]

/-- `set_family fpdat, page_size, erratum` (R114, R239). -/
def setFamily (fpdat : Byte) (pageSize : Word32) (erratum : Bit) : List PortMove :=
  [.write .fpdatAddr (fpdat.setWidth 32), .write .pageSize pageSize,
    .write .familyCtl (if erratum then 3#32 else 1#32)]

/-- `read_device_id` (R114): the result is `RES0`. -/
def readDeviceId : List PortMove :=
  [.write .byte0 (Config.arDeviceId.setWidth 32), .run 0x10#8, .run 0x13#8, .read .res0]

/-- `read_revision_id` (R114): the result is `RES0`. -/
def readRevisionId : List PortMove :=
  [.write .byte0 (Config.arRevId.setWidth 32), .run 0x10#8, .run 0x13#8, .read .res0]

/-- `read addr, len` and `flush addr, len` (R114): a block read, stored or discarded. -/
def readOrFlush (addr : Word16) (len : Word32) (discard : Bit) : List PortMove :=
  [.write .addr (addr.setWidth 32), .write .len len, .write .flags (if discard then 4#32 else 0#32), .run 0x32#8]

/-- `MemRead(FLASH, a, n)` and `MemWrite(FLASH, a, n, v)` are `block_read` and `block_write` on BUF (R66). -/
def memReadFlash (pollOut : Nat) (fpdat : Byte) (a n : Nat) : Prog Unit := blockRead pollOut fpdat a n .buf
/-- `MemWrite(FLASH, a, n, v)` with `v` in BUF (R66). -/
def memWriteFlash (pollOut : Nat) (fpdat : Byte) (a n : Nat) : Prog Unit := blockWrite pollOut fpdat a n .buf
/-- `MemRead(SFR, r, 1)` (R66). -/
def memReadSfr (pollOut : Nat) (fpdat r : Byte) : Prog Byte := readDirect pollOut fpdat r
/-- `MemWrite(SFR, r, 1, v)` (R66). -/
def memWriteSfr (pollOut : Nat) (fpdat r v : Byte) : Prog Unit := writeDirect pollOut fpdat r v
/-- `MemRead(ARSTAT, -, 1)` (R66). -/
def memReadArStat : Prog Byte := readAr

/-- The calls of `flash_chunk` that `write_region(addr, length)` makes over pages of `p` bytes: address, length asked for
and length consumed of each (R224). Every call consumes at least one byte, so `fuel` = `length` calls are enough. -/
def regionCalls (p : Nat) : (fuel addr length : Nat) → List (Nat × Nat × Nat)
  | 0, _, _ => []
  | fuel + 1, addr, length =>
    if length = 0 then []
    else (addr, length, chunkLen addr length p) ::
      regionCalls p fuel (addr + chunkLen addr length p) (length - chunkLen addr length p)

/-- The host moves of one call of that loop: load the next bytes, then FLASH_CHUNK and read its result (R224). -/
def regionCallMoves (addr : Word16) (length : Word32) (src : List Byte) : List PortMove :=
  (List.range src.length).zipWith PortMove.writeBuf src ++
    [.write .addr (addr.setWidth 32), .write .len length, .run 0x40#8, .read .resLen]

end Sys2Proof.Machine
end

