-- ==== Sys2Proof/Machine/Wire.lean ====
section
/-! DEFINITION. What stands on the wire: the events of a slot, a frame and a sequence of frames (40_bit_transport.md R140,
41_register_access.md R151 to R156, and the notation of 00_scope.md R15), the slots a receiver sees in a trace
(30_encoding.md R99), and what is counted and timed in it (R158, R300). -/

namespace Sys2Proof.Machine

/-! ## Slots (R130 to R137) -/

/-- `K`, one strobe. -/
def strobeEvents : List Event := [.ck false, .t Config.tSettle, .ck true, .t Config.tSettle]
/-- `Db K`, a host-driven slot. -/
def sendBitEvents (b : Bit) : List Event := [.d b, .t Config.tSettle] ++ strobeEvents
/-- `K Sb`, a host-sampled slot. -/
def recvBitEvents (b : Bit) : List Event := strobeEvents ++ [.s b]
/-- `DZ`, the release of the data line. -/
def releaseEvents : List Event := [.dz, .t Config.tSettle]
/-- Eight driven slots. -/
def sendByteEvents (v : Byte) : List Event := (serialise v).flatMap sendBitEvents
/-- Eight sampled slots. -/
def recvByteEvents (r : Byte) : List Event := (serialise r).flatMap recvBitEvents
/-- `n` failed tries of a WAIT field, each followed by its gap. -/
def waitRetryEvents (n : Nat) : List Event := (List.replicate n (recvBitEvents false ++ [.t Config.waitGap])).flatten

/-! ## Frames (R151 to R156) -/

/-- `WA(a)`. -/
def writeArEvents (a : Byte) : List Event :=
  strobeEvents ++ sendBitEvents true ++ sendBitEvents true ++ sendByteEvents a ++ releaseEvents ++ strobeEvents
/-- `RA=r`. -/
def readArEvents (r : Byte) : List Event :=
  strobeEvents ++ sendBitEvents false ++ sendBitEvents true ++ releaseEvents ++ recvByteEvents r ++ strobeEvents
/-- A Write DR frame up to its WAIT field. -/
def writeDrHead (d : Byte) : List Event :=
  strobeEvents ++ sendBitEvents true ++ sendBitEvents false ++ sendBitEvents false ++ sendBitEvents false ++
    sendByteEvents d ++ releaseEvents
/-- A Read DR frame up to its WAIT field. -/
def readDrHead : List Event :=
  strobeEvents ++ sendBitEvents false ++ sendBitEvents false ++ sendBitEvents false ++ sendBitEvents false ++ releaseEvents
/-- `WD(d)/tries`. -/
def writeDrEvents (d : Byte) (tries : Nat) : List Event :=
  writeDrHead d ++ waitRetryEvents (tries - 1) ++ recvBitEvents true ++ strobeEvents
/-- `RD=r/tries`. -/
def readDrEvents (r : Byte) (tries : Nat) : List Event :=
  readDrHead ++ waitRetryEvents (tries - 1) ++ recvBitEvents true ++ recvByteEvents r ++ strobeEvents
/-- A Write DR frame whose WAIT field is exhausted: truncated, no STOP (R156). -/
def writeDrTimeoutEvents (d : Byte) : List Event :=
  writeDrHead d ++ waitRetryEvents (Config.waitTriesWr - 1) ++ recvBitEvents false
/-- A Read DR frame whose WAIT field is exhausted: truncated, no DATA, no STOP (R156). -/
def readDrTimeoutEvents : List Event := readDrHead ++ waitRetryEvents (Config.waitTriesRd - 1) ++ recvBitEvents false

/-! ## Sequences of frames (the frame level of R15) -/

/-- One item of a frame-level trace. -/
inductive Xact where
  /-- `WA(a)`. -/
  | wa (a : Byte)
  /-- `RA=r`. -/
  | ra (r : Byte)
  /-- `WD(d)/tries`. -/
  | wd (d : Byte) (tries : Nat)
  /-- `RD=r/tries`. -/
  | rd (r : Byte) (tries : Nat)
  /-- `Tn`. -/
  | gap (n : Nat)
deriving DecidableEq, Repr

/-- The events of an item. -/
def Xact.events : Xact → List Event
  | .wa a => writeArEvents a
  | .ra r => readArEvents r
  | .wd d n => writeDrEvents d n
  | .rd r n => readDrEvents r n
  | .gap n => [.t n]

/-- The levels the target must show at the samples of an item. -/
def Xact.samples : Xact → List Bit
  | .wa _ => []
  | .ra r => serialise r
  | .wd _ n => List.replicate (n - 1) false ++ [true]
  | .rd r n => List.replicate (n - 1) false ++ [true] ++ serialise r
  | .gap _ => []

/-- The events of a sequence. -/
def eventsOf (xs : List Xact) : List Event := xs.flatMap Xact.events

/-- The samples of a sequence. -/
def samplesOf (xs : List Xact) : List Bit := xs.flatMap Xact.samples

/-- Whether an item is a frame. -/
def Xact.isFrame : Xact → Bool
  | .wa _ | .ra _ | .wd _ _ | .rd _ _ => true
  | .gap _ => false

/-- The number of frames of a sequence (R176, R209). -/
def frameCount (xs : List Xact) : Nat := xs.countP Xact.isFrame

/-! ## What a receiver sees (R99) -/

/-- Whether an event is a delay. -/
def Event.isDelay : Event → Bool
  | .t _ => true
  | .ck _ | .d _ | .dz | .s _ => false

/-- The slots in a trace without its delays: one per rising clock edge, sampled if a sample follows, else driven or idle by
the state of the data line (R91). -/
def slotsFrom : (driven : Option Bit) → List Event → List Slot
  | _, [] => []
  | _, .d b :: es => slotsFrom (some b) es
  | _, .dz :: es => slotsFrom none es
  | dr, .ck true :: .s b :: es => .sampled b :: slotsFrom dr es
  | some b, .ck true :: es => .driven b :: slotsFrom (some b) es
  | none, .ck true :: es => .idle :: slotsFrom none es
  | dr, .ck false :: es => slotsFrom dr es
  | dr, .s _ :: es => slotsFrom dr es
  | dr, .t _ :: es => slotsFrom dr es

/-- The slots in a trace that begins with the line released. -/
def slotsOf (es : List Event) : List Slot := slotsFrom none (es.filter fun e => !e.isDelay)

/-! ## Counts and durations (R158, R300) -/

/-- Strobes: falling clock edges. -/
def strobeCount (es : List Event) : Nat := es.count (.ck false)
/-- Host-driven bits. -/
def drivenCount (es : List Event) : Nat := es.count (.d false) + es.count (.d true)
/-- Releases of the data line. -/
def releaseCount (es : List Event) : Nat := es.count .dz
/-- Samples. -/
def sampleCount (es : List Event) : Nat := es.count (.s false) + es.count (.s true)
/-- Delays that are not the settle delay of a clock edge, a driven bit or a release: the gaps. -/
def gapCount (es : List Event) : Nat :=
  es.countP Event.isDelay - (2 * strobeCount es + drivenCount es + releaseCount es)

/-- The minimum duration of an event in time-units. -/
def Event.units : Event → Nat
  | .t n => n
  | .ck _ | .d _ | .dz | .s _ => 0

/-- The minimum duration of a trace in time-units. -/
def minUnits (es : List Event) : Nat := (es.map Event.units).sum

end Sys2Proof.Machine
end

