-- ==== Sys2Proof/Safety.lean ====
section
/-! DEFINITION. The terms claims are stated in: what a command leaves unchanged, how a target answers a frame sequence that
succeeds, which sequences the commands make, and what a safe state is. -/

namespace Sys2Proof.Machine

/-! ## What is unchanged between two states -/

/-- The lines are idle (10_state.md R24). -/
def LinesIdle (s : State) : Prop := s.ck = true ∧ s.dOe = false

/-- The core waits for the host: the lines idle, no operation running (10_state.md R24, 45_host_commands.md R240). -/
def Ready (s : State) : Prop := LinesIdle s ∧ s.seq = .idle ∧ s.busy = false

/-- The operand registers H2 to H6 are unchanged (R32). -/
def SameOperands (s t : State) : Prop :=
  t.addr = s.addr ∧ t.len = s.len ∧ t.byte0 = s.byte0 ∧ t.byte1 = s.byte1 ∧ t.flags = s.flags

/-- The configuration registers H10 to H14 are unchanged (R30). -/
def SameConfig (s t : State) : Prop :=
  t.pollOut = s.pollOut ∧ t.fpdatAddr = s.fpdatAddr ∧ t.pageSize = s.pageSize ∧ t.familyCtl = s.familyCtl ∧
    t.fpctlAddr = s.fpctlAddr

/-- The device capture is unchanged (R33). -/
def SameDevice (s t : State) : Prop := t.deviceId = s.deviceId ∧ t.revisionId = s.revisionId
/-- The PI capture is unchanged (R34). -/
def SamePi (s t : State) : Prop := t.piVersion = s.piVersion ∧ t.piDerivative = s.piDerivative
/-- The result registers H7 to H9 are unchanged. -/
def SameResults (s t : State) : Prop := t.res0 = s.res0 ∧ t.res1 = s.res1 ∧ t.resLen = s.resLen

/-- Every byte of BUF reads as before. -/
def SameBuf (s t : State) : Prop := ∀ i, t.buf.read i = s.buf.read i
/-- Every byte of SCRATCH reads as before. -/
def SameScratch (s t : State) : Prop := ∀ i, t.scratch.read i = s.scratch.read i

/-- What stands outside the host register file and the memories, and that no operation touches: the pull-up, the host's
further moves, and what its last read returned. -/
def SameOutside (s t : State) : Prop := t.dPullup = s.dPullup ∧ t.port = s.port ∧ t.hostData = s.hostData

/-- Operands, configuration and what lies outside: what every command and every layer call leaves alone. -/
def SameInputs (s t : State) : Prop := SameOperands s t ∧ SameConfig s t ∧ SameOutside s t

/-- The whole host port is unchanged: CMD, STATUS, operands, results, configuration, captures (41_register_access.md
R160). -/
def SamePort (s t : State) : Prop :=
  t.cmd = s.cmd ∧ t.status = s.status ∧ t.seq = s.seq ∧ SameInputs s t ∧ SameResults s t ∧ SameDevice s t ∧ SamePi s t

/-! ## How a target answers (42_pi_protocol.md R171, R172; 43_flash_block_ops.md R196) -/

/-- How the target takes one byte of `pi_write`: the tries of the WAIT field, the polls that showed it busy, and the one
that did not (R171). -/
structure Taken where
  tries : Nat
  busy  : List Byte
  free  : Byte
deriving DecidableEq, Repr

/-- The byte is taken within the budgets (R155, R171). -/
def Taken.ok (a : Taken) : Bool :=
  1 ≤ a.tries && a.tries ≤ Config.waitTriesWr && a.busy.length < Config.busyTries && a.busy.all arBusy && !arBusy a.free

/-- The frames of `pi_write(b)` (R171). -/
def Taken.xacts (a : Taken) (b : Byte) : List Xact :=
  .wd b a.tries :: (a.busy.flatMap fun r => [.ra r, .gap Config.busyGap]) ++ [.ra a.free]

/-- How the target gives one byte to `pi_get`: the polls that showed none, the one that did, the tries of the WAIT field,
and the byte (R172). -/
structure Given where
  notReady : List Byte
  ready    : Byte
  tries    : Nat
  value    : Byte
deriving DecidableEq, Repr

/-- The polls of `pi_get` that succeed within the budget `n` (R172). -/
def Given.pollOk (n : Nat) (g : Given) : Bool :=
  g.notReady.length < n && g.notReady.all (fun r => !arReady r) && arReady g.ready

/-- The byte is given within the budgets (R155, R172). -/
def Given.ok (n : Nat) (g : Given) : Bool := g.pollOk n && 1 ≤ g.tries && g.tries ≤ Config.waitTriesRd

/-- The frames of the ready poll (R172). -/
def Given.pollXacts (g : Given) : List Xact :=
  (g.notReady.flatMap fun r => [.ra r, .gap Config.readyGap]) ++ [.ra g.ready]

/-- The frames of `pi_get` (R172). -/
def Given.xacts (g : Given) : List Xact := g.pollXacts ++ [.rd g.value g.tries]

/-- How the target answers a verified byte: it takes it, and gives the response 0x0D (R173, R174). -/
structure Checked where
  taken : Taken
  reply : Given
deriving DecidableEq, Repr

/-- The byte is taken and the response is the OK code (R173). -/
def Checked.ok (n : Nat) (c : Checked) : Bool := c.taken.ok && c.reply.ok n && c.reply.value = Config.piRespOk

/-- The frames of a verified byte (R174). -/
def Checked.xacts (c : Checked) (b : Byte) : List Xact := c.taken.xacts b ++ c.reply.xacts

/-- How the target answers a block header (R196). -/
structure HeaderAnswer where
  cmd : Checked
  hi  : Taken
  lo  : Taken
  len : Checked
deriving DecidableEq, Repr

def HeaderAnswer.ok (n : Nat) (h : HeaderAnswer) : Bool := h.cmd.ok n && h.hi.ok && h.lo.ok && h.len.ok n

/-- The frames of `block_header(cmd, addr, sub)` (R196). -/
def HeaderAnswer.xacts (h : HeaderAnswer) (cmd : Byte) (addr sub : Nat) : List Xact :=
  h.cmd.xacts cmd ++ h.hi.xacts (addrHiByte addr) ++ h.lo.xacts (addrLoByte addr) ++ h.len.xacts (subBlockByte sub)

/-- How the target answers one sub-block of a block read: the header and one reply a byte (R194). -/
structure ReadAnswer where
  header : HeaderAnswer
  data   : List Given
deriving DecidableEq, Repr

def ReadAnswer.ok (n sub : Nat) (a : ReadAnswer) : Bool :=
  a.header.ok n && a.data.length = sub && a.data.all (·.ok n)

/-- The frames of one sub-block of a block read (R194). -/
def ReadAnswer.xacts (a : ReadAnswer) (addr sub : Nat) : List Xact :=
  a.header.xacts Config.piCodes.blockRead addr sub ++ a.data.flatMap Given.xacts

/-- One answer a sub-block, of the sizes `sub_size` gives until no byte is left (R194). -/
def readAnswersOk (n : Nat) : (length : Nat) → List ReadAnswer → Bool
  | length, [] => length = 0
  | length, a :: as => length ≠ 0 && a.ok n (subSize length) && readAnswersOk n (length - subSize length) as

/-- The frames of the sub-blocks of a block read (R194). -/
def readBlockXacts : (addr length : Nat) → List ReadAnswer → List Xact
  | _, _, [] => []
  | addr, length, a :: as =>
    a.xacts addr (subSize length) ++ readBlockXacts (addr + subSize length) (length - subSize length) as

/-- The bytes read, in order (R197). -/
def readBytesOf (as : List ReadAnswer) : List Byte := as.flatMap fun a => a.data.map Given.value

/-- How the target answers one sub-block of a block write: the header and how each byte is taken (R195). -/
structure WriteAnswer where
  header : HeaderAnswer
  data   : List Taken
deriving DecidableEq, Repr

def WriteAnswer.ok (n sub : Nat) (a : WriteAnswer) : Bool :=
  a.header.ok n && a.data.length = sub && a.data.all Taken.ok

/-- The frames of one sub-block of a block write of the bytes `src` (R195). -/
def WriteAnswer.xacts (a : WriteAnswer) (addr sub : Nat) (src : List Byte) : List Xact :=
  a.header.xacts Config.piCodes.blockWrite addr sub ++ (a.data.zip src).flatMap fun x => x.1.xacts x.2

def writeAnswersOk (n : Nat) : (length : Nat) → List WriteAnswer → Bool
  | length, [] => length = 0
  | length, a :: as => length ≠ 0 && a.ok n (subSize length) && writeAnswersOk n (length - subSize length) as

/-- The frames of the sub-blocks of a block write of the bytes `src` (R195). -/
def writeBlockXacts : (addr length : Nat) → List Byte → List WriteAnswer → List Xact
  | _, _, _, [] => []
  | addr, length, src, a :: as =>
    a.xacts addr (subSize length) (src.take (subSize length)) ++
      writeBlockXacts (addr + subSize length) (length - subSize length) (src.drop (subSize length)) as

/-- The `n` bytes that reads of a local memory from index `k` on give: its own, and a free one where it holds none
(10_state.md R46, log 4); `fresh` free values were drawn before. -/
def loadedBytes (m : Memory) : (fresh k n : Nat) → List Byte
  | _, _, 0 => []
  | fresh, k, n + 1 =>
    match m.read k with
    | some b => b :: loadedBytes m fresh (k + 1) n
    | none => Config.freeByte fresh :: loadedBytes m (fresh + 1) (k + 1) n

/-- The page image `flash_chunk` writes: the old bytes with `src` laid over them from index `start` on (44_page_write.md
R226). -/
def pageImage (old : List Byte) (start : Nat) (src : List Byte) : List Byte :=
  old.take start ++ src ++ old.drop (start + src.length)

/-- How the target answers a direct read (R192). -/
structure DirectReadAnswer where
  cmd : Checked
  reg : Taken
  len : Taken
  val : Given
deriving DecidableEq, Repr

def DirectReadAnswer.ok (n : Nat) (a : DirectReadAnswer) : Bool := a.cmd.ok n && a.reg.ok && a.len.ok && a.val.ok n

def DirectReadAnswer.xacts (a : DirectReadAnswer) (reg : Byte) : List Xact :=
  a.cmd.xacts Config.piCodes.directRead ++ a.reg.xacts reg ++ a.len.xacts Config.directLen ++ a.val.xacts

/-- How the target answers a direct write (R193). -/
structure DirectWriteAnswer where
  cmd : Checked
  reg : Taken
  len : Taken
  val : Taken
deriving DecidableEq, Repr

def DirectWriteAnswer.ok (n : Nat) (a : DirectWriteAnswer) : Bool := a.cmd.ok n && a.reg.ok && a.len.ok && a.val.ok

def DirectWriteAnswer.xacts (a : DirectWriteAnswer) (reg v : Byte) : List Xact :=
  a.cmd.xacts Config.piCodes.directWrite ++ a.reg.xacts reg ++ a.len.xacts Config.directLen ++ a.val.xacts v

/-- How the target answers the three bytes of a page erase (R198). -/
structure PageEraseAnswer where
  cmd  : Checked
  page : Checked
  term : Checked
deriving DecidableEq, Repr

def PageEraseAnswer.ok (n : Nat) (a : PageEraseAnswer) : Bool := a.cmd.ok n && a.page.ok n && a.term.ok n

def PageEraseAnswer.xacts (a : PageEraseAnswer) (page : Byte) : List Xact :=
  a.cmd.xacts Config.piCodes.pageErase ++ a.page.xacts page ++ a.term.xacts Config.eraseTerm

/-- How the target answers `erase_page`: the erase, and the restore where the family needs it (R198, R199). -/
structure ErasePageAnswer where
  erase   : PageEraseAnswer
  restore : DirectWriteAnswer
deriving DecidableEq, Repr

def ErasePageAnswer.ok (n : Nat) (erratum : Bit) (a : ErasePageAnswer) : Bool :=
  a.erase.ok n && (!erratum || a.restore.ok n)

/-- The frames of `erase_page` (R198, R199). -/
def ErasePageAnswer.xacts (a : ErasePageAnswer) (fpdat : Byte) (erratum : Bit) (page : Byte) : List Xact :=
  .wa fpdat :: a.erase.xacts page ++
    if erratum then .wa fpdat :: a.restore.xacts Config.erratumReg Config.erratumVal else []

/-- How the target answers the bytes of a device erase (R200). -/
structure DeviceEraseAnswer where
  cmd  : Checked
  key0 : Taken
  key1 : Taken
  key2 : Taken
  done : Given
deriving DecidableEq, Repr

def DeviceEraseAnswer.ok (n : Nat) (a : DeviceEraseAnswer) : Bool :=
  a.cmd.ok n && a.key0.ok && a.key1.ok && a.key2.ok && a.done.ok n && a.done.value = Config.piRespOk

def DeviceEraseAnswer.xacts (a : DeviceEraseAnswer) : List Xact :=
  a.cmd.xacts Config.piCodes.deviceErase ++ a.key0.xacts 0xDE#8 ++ a.key1.xacts 0xAD#8 ++ a.key2.xacts 0xA5#8 ++
    a.done.xacts

/-- How the target answers a verified command with a result byte (R174). -/
structure QueryAnswer where
  cmd : Checked
  val : Given
deriving DecidableEq, Repr

def QueryAnswer.ok (n : Nat) (a : QueryAnswer) : Bool := a.cmd.ok n && a.val.ok n

def QueryAnswer.xacts (a : QueryAnswer) (cmd : Byte) : List Xact := a.cmd.xacts cmd ++ a.val.xacts

/-- How the target answers `flash_chunk`: the page read, where the request does not cover the page, the erase and the page
write (R220). -/
structure ChunkAnswer where
  read  : List ReadAnswer
  erase : ErasePageAnswer
  write : List WriteAnswer
deriving DecidableEq, Repr

def ChunkAnswer.ok (n : Nat) (erratum : Bit) (readFirst : Bool) (p : Nat) (a : ChunkAnswer) : Bool :=
  (!readFirst || readAnswersOk n p a.read) && a.erase.ok n erratum && writeAnswersOk n p a.write

/-- The frames of `flash_chunk`, the page image written being `image` (R220). -/
def ChunkAnswer.xacts (a : ChunkAnswer) (fpdat : Byte) (erratum : Bit) (readFirst : Bool) (page base p : Nat)
    (image : List Byte) : List Xact :=
  (if readFirst then .wa fpdat :: readBlockXacts base p a.read else []) ++
    a.erase.xacts fpdat erratum (BitVec.ofNat 8 page) ++ .wa fpdat :: writeBlockXacts base p image a.write

/-- The source bytes of `flash_chunk`: those read from BUF. -/
def chunkSource (s : State) (addr length p : Nat) : List Byte := loadedBytes s.buf s.fresh 0 (chunkLen addr length p)

/-- The bytes of the page before the overlay: those read from the target, where the page is read first. -/
def chunkOld (a : ChunkAnswer) (addr length p : Nat) : List Byte :=
  if readsFirst addr length p then readBytesOf a.read else []

/-- The page image `flash_chunk` writes. -/
def chunkImage (a : ChunkAnswer) (s : State) (addr length p : Nat) : List Byte :=
  pageImage (chunkOld a addr length p) (chunkStart addr p) (chunkSource s addr length p)

/-- The levels of the data line at the next `n` samples, first sample first (R44). -/
def State.lines (s : State) (n : Nat) : List Bit := (List.range n).map s.line

/-- The byte that the eight samples from the `k`-th on make, the first of them bit 0 (30_encoding.md R101). -/
def State.nextByte (s : State) (k : Nat) : Byte :=
  assemble (s.line k) (s.line (k + 1)) (s.line (k + 2)) (s.line (k + 3)) (s.line (k + 4)) (s.line (k + 5)) (s.line (k + 6))
    (s.line (k + 7))

/-- The target answers the next samples as the sequence `xs` needs, whatever gives the answers (R44). -/
def Answers (s : State) (xs : List Xact) : Prop := s.lines (samplesOf xs).length = samplesOf xs

/-- `t` is reached from `s` with exactly the events `es` on the wire and `n` samples taken. -/
def OnWireEvents (s t : State) (es : List Event) (n : Nat) : Prop :=
  t.trace = s.trace ++ es ∧ t.din = s.din.drop n ∧ t.samples = s.samples + n ∧ LinesIdle t

/-- `t` is reached from `s` with exactly the frames `xs` on the wire, and the lines idle. -/
def OnWire (s t : State) (xs : List Xact) : Prop := OnWireEvents s t (eventsOf xs) (samplesOf xs).length

/-- The Read AR frames of a poll that gives up: a gap between two of them and none after the last (42_pi_protocol.md R171,
R172). -/
def exhaustedXacts (gap : Nat) : List Byte → List Xact
  | [] => []
  | [r] => [.ra r]
  | r :: rs => .ra r :: .gap gap :: exhaustedXacts gap rs

/-! ## Admission (45_host_commands.md R238) -/

/-- Whether a command needs a selected family: the column "family" of 30_encoding.md R110. -/
def needsFamily : Instr → Bool
  | .readDirect | .writeDirect | .blockRead | .blockWrite | .erasePage | .eraseDevice | .getPiInfo | .flashChunk => true
  | .writeArFrame _ | .readArFrame | .writeDrFrame _ | .readDrFrame | .piGetVersion | .piGetDerivative
  | .piDeviceErase | .piBlockRead _ _ | .piBlockWrite _ _ | .piPageErase _ | .piDirectRead _ | .piDirectWrite _ _
  | .piRespOk | .piRespInvalid | .piRespFailed | .fpctlReset | .fpctlCoreReset | .fpctlHalt | .arOutReady | .arInBusy
  | .writeAr | .readAr | .writeDr | .readDr | .piWrite | .piGet | .piCheckOk | .piCommand | .resetHalt
  | .getDeviceInfo => false

/-- The admission table of R238, row by row: the kind a write of `op` to CMD fails with, if any check fails. -/
def admissionTable (op : Byte) (s : State) : Option FailKind :=
  let page := s.addr.toNat / s.pageSize.toNat
  match decodeHost op with
  | .error _ => some .illegalCommand
  | .ok i =>
    if needsFamily i = true ∧ ctlFamilyValid s.familyCtl = false then some .unsupportedDevice
    else if (i = .blockRead ∧ flagDiscard s.flags = false ∨ i = .blockWrite) ∧ ¬ s.len.toNat ≤ Config.bufSize then
      some .illegalCommand
    else if (i = .blockRead ∨ i = .blockWrite) ∧ ¬ s.addr.toNat + s.len.toNat ≤ 65536 then some .illegalCommand
    else if i = .flashChunk ∧ ¬ ((∃ k < 32, s.pageSize.toNat = 2 ^ k) ∧ s.pageSize.toNat ≤ Config.scratchSize) then
      some .illegalCommand
    else if i = .flashChunk ∧ ¬ page ≤ 255 then some .illegalCommand
    else if i = .flashChunk ∧ ¬ page * s.pageSize.toNat + s.pageSize.toNat ≤ 65536 then some .illegalCommand
    else if i = .flashChunk ∧
        ¬ min s.len.toNat (s.pageSize.toNat - s.addr.toNat % s.pageSize.toNat) ≤ Config.bufSize then some .illegalCommand
    else none

/-! ## How a command ends (R237, R255, R259) -/

/-- A command has ended with error code `err`: the sequencer idle, `BUSY` 0, `DONE` 1, `ERR` the code, the two valid bits
as `validBits`, bit 7 0. -/
def EndedWith (t : State) (err : BitVec 3) (infoValid piInfoValid : Bit) : Prop :=
  t.seq = .idle ∧ statusBusy t.status = false ∧ statusDone t.status = true ∧ statusErr t.status = err ∧
    statusInfoValid t.status = infoValid ∧ statusPiInfoValid t.status = piInfoValid ∧ t.status.getLsbD 7 = false

/-- A command that captures nothing has succeeded (R237). -/
def Succeeded (s t : State) : Prop :=
  EndedWith t 0#3 (statusInfoValid s.status) (statusPiInfoValid s.status) ∧ SameInputs s t ∧ SameDevice s t ∧ SamePi s t

/-- A command or layer call has failed with kind `k` (R237, R255, R259): captures and valid bits unchanged, SCRATCH without
a value, BUF as it was unless it was a destination. -/
def FailedWith (s t : State) (k : FailKind) (bufWasDest : Bool) : Prop :=
  EndedWith t k.code (statusInfoValid s.status) (statusPiInfoValid s.status) ∧ SameInputs s t ∧ SameDevice s t ∧ SamePi s t ∧
    (∀ i, t.scratch.read i = none) ∧ if bufWasDest then ∀ i, t.buf.read i = none else SameBuf s t

/-- A layer call has returned: the frames `xs` on the wire, the host port and the memories untouched. -/
def LayerDone (s t : State) (xs : List Xact) : Prop :=
  OnWire s t xs ∧ SamePort s t ∧ SameBuf s t ∧ SameScratch s t

/-- A command that returns no data to BUF has succeeded with the frames `xs` on the wire. -/
def CommandDone (s t : State) (xs : List Xact) : Prop :=
  OnWire s t xs ∧ Succeeded s t ∧ SameBuf s t ∧ SameScratch s t

/-! ## Safe states -/

/-- A primitive is allowed with the lines at `ck`, `oe`: the data line changes only between strobes (R139), the clock event
is an edge, the line is sampled only while released and after the rising edge (R132, R136), and no local memory is accessed
outside its size (R39, R40, R296). -/
def Prim.allowed : Prim → (ck oe : Bit) → Prop
  | .setData _, ck, _ => ck = true
  | .ckSet b, ck, _ => ck = !b
  | .readData, ck, oe => ck = true ∧ oe = false
  | .loadBuf i, _, _ | .storeBuf i _, _, _ => i < Config.bufSize
  | .loadScratch i, _, _ | .storeScratch i _, _, _ => i < Config.scratchSize
  | .delay _, _, _ | .startField, _, _ | .loadShift _, _, _ | .shiftOut, _, _ | .shiftIn _, _, _ | .readShift, _, _ | .clearTry, _, _
  | .countTry, _, _ => True

/-- `CK` after a primitive. -/
def Prim.ckAfter : Prim → Bit → Bit
  | .ckSet b, _ => b
  | .setData _, ck | .readData, ck | .loadBuf _, ck | .storeBuf _ _, ck | .loadScratch _, ck | .storeScratch _ _, ck
  | .delay _, ck | .startField, ck | .loadShift _, ck | .shiftOut, ck | .shiftIn _, ck | .readShift, ck | .clearTry, ck
  | .countTry, ck => ck

/-- `D_OE` after a primitive. -/
def Prim.oeAfter : Prim → Bit → Bit
  | .setData .z, _ => false
  | .setData .low, _ | .setData .high, _ => true
  | .ckSet _, oe | .readData, oe | .loadBuf _, oe | .storeBuf _ _, oe | .loadScratch _, oe | .storeScratch _ _, oe
  | .delay _, oe | .startField, oe | .loadShift _, oe | .shiftOut, oe | .shiftIn _, oe | .readShift, oe | .clearTry, oe
  | .countTry, oe => oe

/-- From the lines `ck`, `oe` a procedure performs only allowed primitives, whatever each answers; it returns with the lines
at `ck'`, `oe'` and fails with the lines idle (R24, R259). -/
def Prog.Safe {α : Type} : Prog α → (ck oe ck' oe' : Bit) → Prop
  | .ret _, ck, oe, ck', oe' => ck = ck' ∧ oe = oe'
  | .raise _, ck, oe, _, _ => ck = true ∧ oe = false
  | .prim q next, ck, oe, ck', oe' => q.allowed ck oe ∧ ∀ b, (next b).Safe (q.ckAfter ck) (q.oeAfter oe) ck' oe'

/-- What holds of a local memory of `size` bytes: its canonical form, and no index outside it. -/
def Memory.within (m : Memory) (size : Nat) : Prop := m.wf ∧ ∀ c ∈ m, c.1 < size

/-- The lines fit the sequencer position: idle lines when idle (R24); when running, what is left of the operation is safe
from here on. -/
def LinesFit (s : State) : Prop :=
  match s.seq with
  | .idle => LinesIdle s
  | .run answers => ∃ o, operationOf s.cmd = some o ∧ ((o.prog s).resume answers).Safe s.ck s.dOe true false

/-- A safe state. -/
structure Inv (s : State) : Prop where
  /-- The pull-up is on (R23). -/
  pullup : s.dPullup = true
  /-- The host sees of the sequencer position `BUSY` (R36). -/
  busy : s.busy = true ↔ s.seq ≠ .idle
  /-- STATUS bit 7 reads 0 (R29). -/
  reserved : s.status.getLsbD 7 = false
  /-- `ERR` is a code the core produces (R29, R250). -/
  err : statusErr s.status ∈ [0#3, 1#3, 2#3, 3#3, 7#3]
  /-- While an operation runs, `DONE` and `ERR` are clear (R29). -/
  cleared : s.busy = true → statusDone s.status = false ∧ statusErr s.status = 0#3
  /-- The reserved bits of FAMILY_CTL are 0 (R30). -/
  ctl : s.familyCtl &&& 0xFC#8 = 0#8
  /-- BUF is in its canonical form and inside its size (R39). -/
  buf : s.buf.within Config.bufSize
  /-- SCRATCH is in its canonical form and inside its size (R40). -/
  scratch : s.scratch.within Config.scratchSize
  /-- The lines (R24, R132, R139). -/
  lines : LinesFit s

/-- `n` steps of the machine, stopping at the first fault or refusal; with no move at its inputs, each is one primitive of
the operation that runs (10_state.md R37). -/
def stepN : (n : Nat) → State → Host.Outcome State Fault Refusal
  | 0, s => .next s
  | n + 1, s =>
    match step s with
    | .next t => stepN n t
    | .fault f => .fault f
    | .refused r => .refused r

end Sys2Proof.Machine
end

