-- ==== Sys2Proof/Certificates/Slice0/Obligations.lean ====
section
/-! DEFINITION. The statements for the provers. A command is said to run through `exec`; `CommandDone s t xs` says that
exactly the frames `xs` stand on the wire and what is unchanged (its frame), and `Answers s xs` that the target shows what
`xs` needs at the next samples. The model's own conventions that statements use: a command is one `exec`, and `step`
takes one move off the port or performs one primitive (log 1, log 11); the levels of the line are inputs (log 2); after a
failure SCRATCH holds no value, nor does BUF if it was the destination, and BUF is as it was if it was not (`FailedWith`,
read from R35 and R259: log 8); a delay event is its minimum (log 25). -/

open Sys2Proof Sys2Proof.Machine

/-! ## Encoding (spec/30_encoding.md) -/

/-- R92 to R109: no operand of an instruction is dropped or changed by its encoding, in any code space, whatever bytes
follow. That the eight PI command bytes differ is a hypothesis: the spec gives only two of them (N8, log 5). -/
def Obligations.EncodeThenDecodeGivesTheInstruction : Prop :=
  ∀ (c : Config.PiCodes) (i : Instr) (rest : List Byte), c.Distinct → i.wellFormed = true →
    decodeWith c i.space (encodeWith c i ++ rest) = .ok (i, rest)

/-- R92 to R109, R111: what a decoder accepts is a well-formed instruction of its code space, and exactly its encoding
stood there; every other code is refused. For every choice of the OPEN command bytes. -/
def Obligations.DecodeThenEncodeGivesTheBytes : Prop :=
  ∀ (c : Config.PiCodes) (sp : Space) (bytes rest : List Byte) (i : Instr),
    decodeWith c sp bytes = .ok (i, rest) → i.space = sp ∧ i.wellFormed = true ∧ encodeWith c i ++ rest = bytes

/-- R99: counting strobes from the START slot recovers every complete frame, whatever slots follow it. -/
def Obligations.CountingStrobesRecoversEachFrame : Prop :=
  ∀ (f : WireFrame) (rest : List Slot), f.inBudget = true → decodeSlots (f.slots ++ rest) = .ok (f, rest)

/-- R97, R98, U10: strobe slots with a LENGTH other than 00 are refused, and so is a WAIT field that shows 0 in every slot of
its budget. The first clause says the same of a frame laid out as one word: that a frame has a word, and that LENGTH stands
in its bits 3:2, is the model's choice (log 24). -/
def Obligations.ReservedLengthAndEndlessWaitAreRefused : Prop :=
  (∀ w : Word16, w.getLsbD 1 = false → w.extractLsb' 2 2 ≠ 0#2 → decodeFrameWord w = .error .reservedLength) ∧
  (∀ (ins l0 l1 : Bit) (rest : List Slot), (l0 || l1) = true →
    decodeSlots (.idle :: .driven ins :: .driven false :: .driven l0 :: .driven l1 :: rest) = .error .reservedLength) ∧
  (∀ (d : Byte) (rest : List Slot),
    decodeSlots ([.idle, .driven true, .driven false, .driven false, .driven false] ++ (serialise d).map .driven ++
      List.replicate 20 (.sampled false) ++ rest) = .error .waitExhausted) ∧
  ∀ rest : List Slot,
    decodeSlots ([.idle, .driven false, .driven false, .driven false, .driven false] ++
      List.replicate 50 (.sampled false) ++ rest) = .error .waitExhausted

/-- R109, R111: the eighteen opcodes, and every other byte is an illegal opcode. -/
def Obligations.HostOpcodesAreTheTable : Prop :=
  let table : List (Byte × Instr) :=
    [(0x10#8, .writeAr), (0x11#8, .readAr), (0x12#8, .writeDr), (0x13#8, .readDr), (0x20#8, .piWrite), (0x21#8, .piGet),
      (0x22#8, .piCheckOk), (0x23#8, .piCommand), (0x30#8, .readDirect), (0x31#8, .writeDirect), (0x32#8, .blockRead),
      (0x33#8, .blockWrite), (0x34#8, .erasePage), (0x35#8, .eraseDevice), (0x36#8, .resetHalt),
      (0x37#8, .getDeviceInfo), (0x38#8, .getPiInfo), (0x40#8, .flashChunk)]
  (∀ row ∈ table, decodeHost row.1 = .ok row.2) ∧
    ∀ op : Byte, op ∉ table.map (·.1) → decodeHost op = .error .illegalOpcode

/-- Words written out from the spec's encodings decode to what they stand for: frames (the bits of R92 to R96, laid out in a
word as the model chose, log 24), PI bytes (R102 to R104), responses (R105), FPCTL bytes (R107), masks (R106), opcodes (R109).
The clause about a block read assumes, as an example, a choice of the six OPEN command bytes, which the spec does not give
(log 5). -/
def Obligations.WordsOfTheSpecDecode : Prop :=
  decodeFrameWord 0b0000001011010011#16 = .ok (.writeArFrame 0xB4#8) ∧
  decodeFrameWord 0b0000000000000010#16 = .ok .readArFrame ∧
  decodeFrameWord 0b0000101001010001#16 = .ok (.writeDrFrame 0xA5#8) ∧
  decodeFrameWord 0b0000000000000000#16 = .ok .readDrFrame ∧
  decode .pi [0x01#8] = .ok (.piGetVersion, []) ∧
  decodeWith ⟨0x03#8, 0x06#8, 0x07#8, 0x08#8, 0x09#8, 0x0A#8⟩ .pi [0x06#8, 0x01#8, 0x00#8, 0x00#8] =
    .ok (.piBlockRead 0x0100#16 256, []) ∧
  decode .resp [0x0D#8] = .ok (.piRespOk, []) ∧
  decode .fpctl [0x04#8] = .ok (.fpctlCoreReset, []) ∧
  decode .arStatus [0x02#8] = .ok (.arInBusy, []) ∧
  decode .host [0x40#8] = .ok (.flashChunk, [])

/-- R100, R101: a byte leaves bit 0 first, in the list form and in the shift-register form; eight samples make the byte with
the first sample as bit 0, in the arithmetic form and in the shift-register form from any starting value. -/
def Obligations.BytesTravelBitZeroFirst : Prop :=
  (∀ v : Byte, serialise v = (List.range 8).map (fun k => v.getLsbD k)) ∧
  (∀ (v : Byte) (k : Nat), k < 8 → (Nat.repeat shiftRight k v).getLsbD 0 = v.getLsbD k) ∧
  (∀ b0 b1 b2 b3 b4 b5 b6 b7 : Bit, (assemble b0 b1 b2 b3 b4 b5 b6 b7).toNat =
    b0.toNat + 2 * b1.toNat + 4 * b2.toNat + 8 * b3.toNat + 16 * b4.toNat + 32 * b5.toNat + 64 * b6.toNat +
      128 * b7.toNat) ∧
  ∀ (start : Byte) (bits : List Bit), bits.length = 8 →
    serialise (bits.foldl shiftInto start) = bits

/-! ## The wire (spec/40_bit_transport.md, spec/41_register_access.md) -/

/-- R93 to R96: the strobe slots a receiver sees in the trace of a frame are the slots of the frame's table, also when
other frames follow. -/
def Obligations.FrameTracesShowTheirSlots : Prop :=
  ∀ (a r d : Byte) (n m : Nat) (rest : List Xact), 1 ≤ n → 1 ≤ m →
    slotsOf (eventsOf (.wa a :: rest)) = (WireFrame.writeAr a).slots ++ slotsOf (eventsOf rest) ∧
    slotsOf (eventsOf (.ra r :: rest)) = (WireFrame.readAr r).slots ++ slotsOf (eventsOf rest) ∧
    slotsOf (eventsOf (.wd d n :: rest)) = (WireFrame.writeDr d n).slots ++ slotsOf (eventsOf rest) ∧
    slotsOf (eventsOf (.rd r m :: rest)) = (WireFrame.readDr r m).slots ++ slotsOf (eventsOf rest)

/-- R158: the strobes, driven bits, releases, samples and gaps of every frame. -/
def Obligations.EventCountsPerFrame : Prop :=
  ∀ (a r d : Byte) (w : Nat), 1 ≤ w →
    (strobeCount (writeArEvents a) = 12 ∧ drivenCount (writeArEvents a) = 10 ∧ releaseCount (writeArEvents a) = 1 ∧
      sampleCount (writeArEvents a) = 0) ∧
    (strobeCount (readArEvents r) = 12 ∧ drivenCount (readArEvents r) = 2 ∧ releaseCount (readArEvents r) = 1 ∧
      sampleCount (readArEvents r) = 8) ∧
    (strobeCount (writeDrEvents d w) = 14 + w ∧ drivenCount (writeDrEvents d w) = 12 ∧
      releaseCount (writeDrEvents d w) = 1 ∧ sampleCount (writeDrEvents d w) = w ∧ gapCount (writeDrEvents d w) = w - 1) ∧
    (strobeCount (readDrEvents r w) = 14 + w ∧ drivenCount (readDrEvents r w) = 4 ∧ releaseCount (readDrEvents r w) = 1 ∧
      sampleCount (readDrEvents r w) = w + 8 ∧ gapCount (readDrEvents r w) = w - 1) ∧
    (strobeCount (writeDrTimeoutEvents d) = 33 ∧ sampleCount (writeDrTimeoutEvents d) = 20 ∧
      gapCount (writeDrTimeoutEvents d) = 19) ∧
    (strobeCount readDrTimeoutEvents = 55 ∧ sampleCount readDrTimeoutEvents = 50 ∧ gapCount readDrTimeoutEvents = 49)

/-- R140, R300: the minimum durations, for every `T_SETTLE`; with `T_SETTLE` = 1 they are the figures of R300. -/
def Obligations.MinimumDurations : Prop :=
  let s := Config.tSettle
  1 ≤ s ∧ ∀ (a r d : Byte) (b : Bit) (w : Nat), 1 ≤ w →
    minUnits (sendBitEvents b) = 3 * s ∧ minUnits (recvBitEvents b) = 2 * s ∧ minUnits strobeEvents = 2 * s ∧
    minUnits releaseEvents = s ∧
    minUnits (writeArEvents a) = 35 * s ∧ minUnits (readArEvents r) = 27 * s ∧
    minUnits (writeDrEvents d w) = (41 + 2 * w) * s + (w - 1) ∧ minUnits (writeDrTimeoutEvents d) = 79 * s + 19 ∧
    minUnits (readDrEvents r w) = (33 + 2 * w) * s + (w - 1) ∧ minUnits readDrTimeoutEvents = 115 * s + 49

/-- R138: in every frame, complete or truncated, the line is released exactly once, no bit is driven after that, and no
sample is taken before it. -/
def Obligations.DirectionChangesOncePerFrame : Prop :=
  ∀ (a r d : Byte) (n m : Nat) (es : List Event), 1 ≤ n → 1 ≤ m →
    es ∈ [writeArEvents a, readArEvents r, writeDrEvents d n, readDrEvents r m, writeDrTimeoutEvents d,
      readDrTimeoutEvents] →
    releaseCount es = 1 ∧ 0 < drivenCount es ∧
      ∀ pre post, es = pre ++ .dz :: post → sampleCount pre = 0 ∧ drivenCount post = 0

/-- R159: the eight bits an AR write drives, fed back as the eight samples of an AR read, give the byte back; and the eight
DATA bits a DR write drives, fed back to a DR read that is ready at once. -/
def Obligations.FramingRoundTrip : Prop :=
  ∀ (s : State) (v : Byte) (tries : Nat), Ready s →
    (((slotsOf (writeArEvents v)).drop 3).take 8 = (s.lines 8).map .driven →
      ∃ t, exec .readAr s = .next t ∧ t.res0 = v) ∧
    (((slotsOf (writeDrEvents v tries)).drop 5).take 8 = ((s.lines 9).drop 1).map .driven → s.line 0 = true →
      ∃ t, exec .readDr s = .next t ∧ t.res0 = v)

/-! ## Register commands (spec/41_register_access.md) -/

/-- R151: `WRITE_AR` puts exactly the frame of `BYTE0` on the wire, 12 strobes for every byte, whatever the target does. -/
def Obligations.WriteArCommandRuns : Prop :=
  decodeHost 0x10#8 = .ok .writeAr ∧ ∀ s : State, Ready s →
    strobeCount (writeArEvents s.byte0) = 12 ∧
      ∃ t, exec .writeAr s = .next t ∧ CommandDone s t [.wa s.byte0]

/-- R152: `READ_AR` puts exactly one Read AR frame on the wire and returns in `RES0` the byte its eight samples make,
whatever they are; 12 strobes always. -/
def Obligations.ReadArCommandRuns : Prop :=
  decodeHost 0x11#8 = .ok .readAr ∧ ∀ s : State, Ready s →
    strobeCount (readArEvents (s.nextByte 0)) = 12 ∧
      ∃ t, exec .readAr s = .next t ∧ CommandDone s t [.ra (s.nextByte 0)] ∧ t.res0 = s.nextByte 0

/-- R153, R155, R156: `WRITE_DR` succeeds when the WAIT field reads 1 at one of its 20 tries, the last included, and fails
with `BusTimeout` after exactly 20 when it never does, the frame abandoned where it stands. -/
def Obligations.WriteDrCommandRuns : Prop :=
  decodeHost 0x12#8 = .ok .writeDr ∧ ∀ s : State, Ready s →
    (∀ n, n < 20 → (∀ k < n, s.line k = false) → s.line n = true →
      ∃ t, exec .writeDr s = .next t ∧ CommandDone s t [.wd s.byte0 (n + 1)]) ∧
    ((∀ k < 20, s.line k = false) →
      ∃ t, exec .writeDr s = .next t ∧ FailedWith s t .busTimeout false ∧
        OnWireEvents s t (writeDrTimeoutEvents s.byte0) 20)

/-- R154, R155, R156: `READ_DR` returns in `RES0` the byte its DATA samples make when the WAIT field reads 1 at one of its 50
tries, and fails with `BusTimeout` after exactly 50, no data bit sampled, when it never does. -/
def Obligations.ReadDrCommandRuns : Prop :=
  decodeHost 0x13#8 = .ok .readDr ∧ ∀ s : State, Ready s →
    (∀ n, n < 50 → (∀ k < n, s.line k = false) → s.line n = true →
      ∃ t, exec .readDr s = .next t ∧ CommandDone s t [.rd (s.nextByte (n + 1)) (n + 1)] ∧
        t.res0 = s.nextByte (n + 1)) ∧
    ((∀ k < 50, s.line k = false) →
      ∃ t, exec .readDr s = .next t ∧ FailedWith s t .busTimeout false ∧ OnWireEvents s t readDrTimeoutEvents 50)

/-- R151, R152 for the rows WRITE_AR_FRAME and READ_AR_FRAME, one frame each; what a read returns is left in SHIFT. That a
layer is called by itself, and so leaves the host port alone (R160), is the model's choice (log 9). -/
def Obligations.ArFrameRowsRun : Prop :=
  ∀ (s : State) (a : Byte), Ready s →
    (∃ t, exec (.writeArFrame a) s = .next t ∧ LayerDone s t [.wa a]) ∧
    ∃ t, exec .readArFrame s = .next t ∧ LayerDone s t [.ra (s.nextByte 0)] ∧ t.shift = s.nextByte 0

/-- R153 to R156, R107 for the rows WRITE_DR_FRAME, READ_DR_FRAME and the three FPCTL bytes, each a Write DR frame of its
byte: success at any try within the budget, `BusTimeout` otherwise. The layer call is the model's choice (log 9). -/
def Obligations.DrFrameRowsRun : Prop :=
  ∀ s : State, Ready s →
    (∀ (i : Instr) (d : Byte), (i, d) ∈ [(Instr.writeDrFrame d, d), (.fpctlReset, 0x02#8), (.fpctlCoreReset, 0x04#8),
        (.fpctlHalt, 0x01#8)] →
      (∀ n, n < 20 → (∀ k < n, s.line k = false) → s.line n = true →
        ∃ t, exec i s = .next t ∧ LayerDone s t [.wd d (n + 1)]) ∧
      ((∀ k < 20, s.line k = false) →
        ∃ t, exec i s = .next t ∧ FailedWith s t .busTimeout false ∧ OnWireEvents s t (writeDrTimeoutEvents d) 20)) ∧
    (∀ n, n < 50 → (∀ k < n, s.line k = false) → s.line n = true →
      ∃ t, exec .readDrFrame s = .next t ∧ LayerDone s t [.rd (s.nextByte (n + 1)) (n + 1)] ∧
        t.shift = s.nextByte (n + 1)) ∧
    ((∀ k < 50, s.line k = false) →
      ∃ t, exec .readDrFrame s = .next t ∧ FailedWith s t .busTimeout false ∧ OnWireEvents s t readDrTimeoutEvents 50)

/-! ## PI commands (spec/42_pi_protocol.md) -/

/-- R171, R251: `PI_WRITE` is a Write DR of `BYTE0` and then Read AR frames until bit 1 is clear, at most 20 of them;
`BusTimeout` when the WAIT field or the poll runs out. -/
def Obligations.PiWriteCommandRuns : Prop :=
  decodeHost 0x20#8 = .ok .piWrite ∧ ∀ s : State, Ready s →
    (∀ a : Taken, a.ok = true → Answers s (a.xacts s.byte0) →
      ∃ t, exec .piWrite s = .next t ∧ CommandDone s t (a.xacts s.byte0)) ∧
    (∀ (tries : Nat) (busy : List Byte), 1 ≤ tries → tries ≤ 20 → busy.length = 20 → (∀ r ∈ busy, r.getLsbD 1 = true) →
      Answers s (.wd s.byte0 tries :: exhaustedXacts 1 busy) →
      ∃ t, exec .piWrite s = .next t ∧ FailedWith s t .busTimeout false ∧
        OnWire s t (.wd s.byte0 tries :: exhaustedXacts 1 busy)) ∧
    ((∀ k < 20, s.line k = false) →
      ∃ t, exec .piWrite s = .next t ∧ FailedWith s t .busTimeout false ∧
        OnWireEvents s t (writeDrTimeoutEvents s.byte0) 20)

/-- R172, R251, R31: `PI_GET` is Read AR frames until bit 0 is set, at most `POLL_OUT` of them, and then one Read DR whose
byte is `RES0`; `BusTimeout` when the poll runs out, at once if `POLL_OUT` is 0, or when the WAIT field does. -/
def Obligations.PiGetCommandRuns : Prop :=
  decodeHost 0x21#8 = .ok .piGet ∧ ∀ s : State, Ready s →
    (∀ g : Given, g.ok s.pollOut.toNat = true → Answers s g.xacts →
      ∃ t, exec .piGet s = .next t ∧ CommandDone s t g.xacts ∧ t.res0 = g.value) ∧
    (∀ polls : List Byte, polls.length = s.pollOut.toNat → (∀ r ∈ polls, r.getLsbD 0 = false) →
      Answers s (exhaustedXacts 1 polls) →
      ∃ t, exec .piGet s = .next t ∧ FailedWith s t .busTimeout false ∧ OnWire s t (exhaustedXacts 1 polls)) ∧
    (∀ g : Given, g.pollOk s.pollOut.toNat = true → Answers s g.pollXacts →
      (∀ k < 50, s.line ((samplesOf g.pollXacts).length + k) = false) →
      ∃ t, exec .piGet s = .next t ∧ FailedWith s t .busTimeout false ∧
        OnWireEvents s t (eventsOf g.pollXacts ++ readDrTimeoutEvents) ((samplesOf g.pollXacts).length + 50))

/-- R173, R252, R257: `PI_CHECK_OK` succeeds for the response 0x0D only; each of the 255 other values is
`ProtocolRejected`, and the value is not reported: the result registers hold free values that do not depend on it
(log 7). -/
def Obligations.PiCheckOkCommandRuns : Prop :=
  decodeHost 0x22#8 = .ok .piCheckOk ∧ ∀ (s : State) (g : Given), Ready s → g.ok s.pollOut.toNat = true →
    Answers s g.xacts →
    (g.value = 0x0D#8 → ∃ t, exec .piCheckOk s = .next t ∧ CommandDone s t g.xacts) ∧
    (g.value ≠ 0x0D#8 → ∃ t, exec .piCheckOk s = .next t ∧ FailedWith s t .protocolRejected false ∧ OnWire s t g.xacts ∧
      t.res0 = Config.freeByte s.fresh ∧ t.res1 = Config.freeByte (s.fresh + 1) ∧ t.resLen = Config.freeWord (s.fresh + 2))

/-- R174: `PI_COMMAND` writes the byte; unverified it reads nothing, even if a result is wanted; verified it reads and
checks one response, and reads the result after it if one is wanted, into `RES0`. -/
def Obligations.PiCommandCommandRuns : Prop :=
  decodeHost 0x23#8 = .ok .piCommand ∧ ∀ s : State, Ready s →
    (flagVerify s.flags = false → ∀ a : Taken, a.ok = true → Answers s (a.xacts s.byte0) →
      ∃ t, exec .piCommand s = .next t ∧ CommandDone s t (a.xacts s.byte0)) ∧
    (flagVerify s.flags = true → flagWantResult s.flags = false → ∀ c : Checked, c.ok s.pollOut.toNat = true →
      Answers s (c.xacts s.byte0) → ∃ t, exec .piCommand s = .next t ∧ CommandDone s t (c.xacts s.byte0)) ∧
    (flagVerify s.flags = true → flagWantResult s.flags = true → ∀ a : QueryAnswer, a.ok s.pollOut.toNat = true →
      Answers s (a.xacts s.byte0) →
      ∃ t, exec .piCommand s = .next t ∧ CommandDone s t (a.xacts s.byte0) ∧ t.res0 = a.val.value) ∧
    (flagVerify s.flags = true → ∀ (a : Taken) (g : Given), a.ok = true → g.ok s.pollOut.toNat = true →
      g.value ≠ 0x0D#8 → Answers s (a.xacts s.byte0 ++ g.xacts) →
      ∃ t, exec .piCommand s = .next t ∧ FailedWith s t .protocolRejected false ∧
        OnWire s t (a.xacts s.byte0 ++ g.xacts))

/-! ## Rows of the PI layer, each called by itself (the model's choice, log 9) -/

/-- R103, R192, R193, R198, R200, R208: the PI commands that move no block, each exactly its bytes with the checks its format
marks; the byte read last is left in SHIFT. -/
def Obligations.PiCommandRowsRun : Prop :=
  ∀ s : State, Ready s →
    (∀ a : QueryAnswer, a.ok s.pollOut.toNat = true → Answers s (a.xacts 0x01#8) →
      ∃ t, exec .piGetVersion s = .next t ∧ LayerDone s t (a.xacts 0x01#8) ∧ t.shift = a.val.value) ∧
    (∀ a : QueryAnswer, a.ok s.pollOut.toNat = true → Answers s (a.xacts 0x02#8) →
      ∃ t, exec .piGetDerivative s = .next t ∧ LayerDone s t (a.xacts 0x02#8) ∧ t.shift = a.val.value) ∧
    (∀ a : DeviceEraseAnswer, a.ok s.pollOut.toNat = true → Answers s a.xacts →
      ∃ t, exec .piDeviceErase s = .next t ∧ LayerDone s t a.xacts) ∧
    (∀ (a : PageEraseAnswer) (page : Byte), a.ok s.pollOut.toNat = true → Answers s (a.xacts page) →
      ∃ t, exec (.piPageErase page) s = .next t ∧ LayerDone s t (a.xacts page)) ∧
    (∀ (a : DirectReadAnswer) (reg : Byte), a.ok s.pollOut.toNat = true → Answers s (a.xacts reg) →
      ∃ t, exec (.piDirectRead reg) s = .next t ∧ LayerDone s t (a.xacts reg) ∧ t.shift = a.val.value) ∧
    ∀ (a : DirectWriteAnswer) (reg v : Byte), a.ok s.pollOut.toNat = true → Answers s (a.xacts reg v) →
      ∃ t, exec (.piDirectWrite reg v) s = .next t ∧ LayerDone s t (a.xacts reg v)

/-- R194 to R196, R104: the rows PI_BLOCK_READ and PI_BLOCK_WRITE, one sub-block of 1 to 256 bytes, to and from `BUF[0 ..]`
(the choice of BUF is the model's, log 16). A byte of BUF without a value is sent as a free one (log 4). That a sub-block
which runs past 0xFFFF is run like any other is the model's choice too (R83 gives it no meaning: log 26). -/
def Obligations.PiBlockRowsRun : Prop :=
  ∀ (s : State) (addr : Word16) (n : Nat), Ready s → 1 ≤ n → n ≤ 256 →
    (∀ a : ReadAnswer, a.ok s.pollOut.toNat n = true → Answers s (a.xacts addr.toNat n) →
      ∃ t, exec (.piBlockRead addr n) s = .next t ∧ OnWire s t (a.xacts addr.toNat n) ∧ SamePort s t ∧ SameScratch s t ∧
        ∀ i, t.buf.read i = if i < n then (a.data.map Given.value)[i]? else s.buf.read i) ∧
    ∀ a : WriteAnswer, a.ok s.pollOut.toNat n = true →
      Answers s (a.xacts addr.toNat n (loadedBytes s.buf s.fresh 0 n)) →
      ∃ t, exec (.piBlockWrite addr n) s = .next t ∧
        LayerDone s t (a.xacts addr.toNat n (loadedBytes s.buf s.fresh 0 n))

/-- R105, R106, R171, R172: the response 0x0D lets the core go on, so nothing changes; 0x00 and 0x02 are taken as
`ProtocolRejected`, no frame on the wire. The mask AR_OUT_READY is the ready poll of `POLL_OUT` tries, AR_IN_BUSY the
not-busy poll of 20. -/
def Obligations.ResponseAndMaskRowsRun : Prop :=
  ∀ s : State, Ready s →
    exec .piRespOk s = .next s ∧
    (∀ i ∈ [Instr.piRespInvalid, .piRespFailed],
      ∃ t, exec i s = .next t ∧ FailedWith s t .protocolRejected false ∧ OnWire s t []) ∧
    (∀ g : Given, g.pollOk s.pollOut.toNat = true → Answers s g.pollXacts →
      ∃ t, exec .arOutReady s = .next t ∧ LayerDone s t g.pollXacts) ∧
    (∀ polls : List Byte, polls.length = s.pollOut.toNat → (∀ r ∈ polls, r.getLsbD 0 = false) →
      Answers s (exhaustedXacts 1 polls) →
      ∃ t, exec .arOutReady s = .next t ∧ FailedWith s t .busTimeout false ∧ OnWire s t (exhaustedXacts 1 polls)) ∧
    (∀ (busy : List Byte) (free : Byte), busy.length < 20 → (∀ r ∈ busy, r.getLsbD 1 = true) → free.getLsbD 1 = false →
      Answers s ((busy.flatMap fun r => [.ra r, .gap 1]) ++ [.ra free]) →
      ∃ t, exec .arInBusy s = .next t ∧ LayerDone s t ((busy.flatMap fun r => [.ra r, .gap 1]) ++ [.ra free])) ∧
    ∀ busy : List Byte, busy.length = 20 → (∀ r ∈ busy, r.getLsbD 1 = true) → Answers s (exhaustedXacts 1 busy) →
      ∃ t, exec .arInBusy s = .next t ∧ FailedWith s t .busTimeout false ∧ OnWire s t (exhaustedXacts 1 busy)

/-! ## Flash commands (spec/43_flash_block_ops.md) -/

/-- R190, R192, R193: `READ_DIRECT` and `WRITE_DIRECT` select FPDAT, send the command verified, the register number and the
length 0x01 unverified; the read returns the value in `RES0`, the write sends the value unverified and reads nothing
back. -/
def Obligations.DirectAccessCommandsRun : Prop :=
  ∀ s : State, Ready s → ctlFamilyValid s.familyCtl = true →
    (∀ a : DirectReadAnswer, a.ok s.pollOut.toNat = true → Answers s (.wa s.fpdatAddr :: a.xacts s.byte0) →
      ∃ t, exec .readDirect s = .next t ∧ CommandDone s t (.wa s.fpdatAddr :: a.xacts s.byte0) ∧
        t.res0 = a.val.value) ∧
    ∀ a : DirectWriteAnswer, a.ok s.pollOut.toNat = true → Answers s (.wa s.fpdatAddr :: a.xacts s.byte0 s.byte1) →
      ∃ t, exec .writeDirect s = .next t ∧ CommandDone s t (.wa s.fpdatAddr :: a.xacts s.byte0 s.byte1)

/-- R194, R196, R197, R82: `BLOCK_READ` of any length, 0 included: one selection, then one header and its bytes for each
sub-block of at most 256; byte k goes to `BUF[k]`, every other byte of BUF is unchanged; with DISCARD the frames are the
same and nothing is stored. -/
def Obligations.BlockReadCommandRuns : Prop :=
  ∀ (s : State) (as : List ReadAnswer), Ready s → ctlFamilyValid s.familyCtl = true →
    (flagDiscard s.flags = true ∨ s.len.toNat ≤ Config.bufSize) → s.addr.toNat + s.len.toNat ≤ 65536 →
    readAnswersOk s.pollOut.toNat s.len.toNat as = true →
    Answers s (.wa s.fpdatAddr :: readBlockXacts s.addr.toNat s.len.toNat as) →
    (readBytesOf as).length = s.len.toNat ∧
    ∃ t, exec .blockRead s = .next t ∧ OnWire s t (.wa s.fpdatAddr :: readBlockXacts s.addr.toNat s.len.toNat as) ∧
      Succeeded s t ∧ SameScratch s t ∧
      (flagDiscard s.flags = true → SameBuf s t) ∧
      (flagDiscard s.flags = false →
        ∀ i, t.buf.read i = if i < s.len.toNat then (readBytesOf as)[i]? else s.buf.read i)

/-- R195 to R197: `BLOCK_WRITE` of any length, 0 included, sends `BUF[0 .. LEN-1]` in order, each byte unverified, after a
header for each sub-block; BUF is not written. A byte of BUF without a value is sent as a free one (log 4). -/
def Obligations.BlockWriteCommandRuns : Prop :=
  ∀ (s : State) (as : List WriteAnswer), Ready s → ctlFamilyValid s.familyCtl = true →
    s.len.toNat ≤ Config.bufSize → s.addr.toNat + s.len.toNat ≤ 65536 →
    writeAnswersOk s.pollOut.toNat s.len.toNat as = true →
    Answers s (.wa s.fpdatAddr ::
      writeBlockXacts s.addr.toNat s.len.toNat (loadedBytes s.buf s.fresh 0 s.len.toNat) as) →
    ∃ t, exec .blockWrite s = .next t ∧ CommandDone s t (.wa s.fpdatAddr ::
      writeBlockXacts s.addr.toNat s.len.toNat (loadedBytes s.buf s.fresh 0 s.len.toNat) as)

/-- R194, R196, R104: how a length splits: sub-blocks of 256 and a last one of the remainder, at consecutive addresses, each
with the two address bytes high byte first and the length byte 0 for 256. -/
def Obligations.SubBlocksCoverTheRequest : Prop :=
  (∀ length, 0 < length → subSize length = min length 256) ∧
  (∀ (n length : Nat) (as : List ReadAnswer), readAnswersOk n length as = true →
    as.length = (length + 255) / 256 ∧ ∀ k, (h : k < as.length) → as[k].data.length = min 256 (length - 256 * k)) ∧
  (∀ (n addr length : Nat) (as : List ReadAnswer), readAnswersOk n length as = true →
    readBlockXacts addr length as = ((List.range as.length).zip as).flatMap fun x =>
      x.2.xacts (addr + 256 * x.1) x.2.data.length) ∧
  ∀ (addr n : Nat), addr < 65536 → 1 ≤ n → n ≤ 256 →
    256 * (addrHiByte addr).toNat + (addrLoByte addr).toNat = addr ∧ (subBlockByte n).toNat = n % 256

/-- R198, R199: `ERASE_PAGE` sends the command, the page index and the terminator 0, each verified, and then, only if
`ERRATUM_F5` is set, the whole direct write of 0x11 to register 0xF5 with a selection of its own. -/
def Obligations.ErasePageCommandRuns : Prop :=
  ∀ (s : State) (a : ErasePageAnswer), Ready s → ctlFamilyValid s.familyCtl = true →
    a.ok s.pollOut.toNat (ctlErratumF5 s.familyCtl) = true →
    Answers s (a.xacts s.fpdatAddr (ctlErratumF5 s.familyCtl) s.byte0) →
    (a.xacts s.fpdatAddr (ctlErratumF5 s.familyCtl) s.byte0 =
      .wa s.fpdatAddr :: (a.erase.cmd.xacts Config.piCodes.pageErase ++ a.erase.page.xacts s.byte0 ++
        a.erase.term.xacts 0x00#8) ++
        if ctlErratumF5 s.familyCtl then
          .wa s.fpdatAddr :: (a.restore.cmd.xacts Config.piCodes.directWrite ++ a.restore.reg.xacts 0xF5#8 ++
            a.restore.len.xacts 0x01#8 ++ a.restore.val.xacts 0x11#8)
        else []) ∧
    ∃ t, exec .erasePage s = .next t ∧ CommandDone s t (a.xacts s.fpdatAddr (ctlErratumF5 s.familyCtl) s.byte0)

/-- R200: `ERASE_DEVICE` sends the command verified, the key 0xDE, 0xAD, 0xA5 byte by byte unverified, and checks one final
response; there is no erratum restore. -/
def Obligations.EraseDeviceCommandRuns : Prop :=
  ∀ (s : State) (a : DeviceEraseAnswer), Ready s → ctlFamilyValid s.familyCtl = true → a.ok s.pollOut.toNat = true →
    Answers s (.wa s.fpdatAddr :: a.xacts) →
    ∃ t, exec .eraseDevice s = .next t ∧ CommandDone s t (.wa s.fpdatAddr :: a.xacts)

/-- R206: `RESET_HALT` holds the clock low for 20 time-units, releases it, selects FPCTL, writes 0x02, 0x04, 0x01 and waits
30000 time-units; no family is needed. When one of the three writes times out, the remaining writes and the final delay are
not made. -/
def Obligations.ResetHaltCommandRuns : Prop :=
  decodeHost 0x36#8 = .ok .resetHalt ∧ ∀ s : State, Ready s →
    (∀ w1 w2 w3, 1 ≤ w1 → w1 ≤ 20 → 1 ≤ w2 → w2 ≤ 20 → 1 ≤ w3 → w3 ≤ 20 →
      Answers s [.wd 0x02#8 w1, .wd 0x04#8 w2, .wd 0x01#8 w3] →
      ∃ t, exec .resetHalt s = .next t ∧
        OnWireEvents s t ([.ck false, .t 20, .ck true, .t Config.tSettle] ++
          eventsOf [.wa s.fpctlAddr, .wd 0x02#8 w1, .wd 0x04#8 w2, .wd 0x01#8 w3, .gap 30000]) (w1 + w2 + w3) ∧
        Succeeded s t ∧ SameBuf s t ∧ SameScratch s t) ∧
    ∀ (ws : List Nat) (d : Byte), (∀ w ∈ ws, 1 ≤ w ∧ w ≤ 20) → [0x02#8, 0x04#8, 0x01#8][ws.length]? = some d →
      let done := (ws.zip [0x02#8, 0x04#8, 0x01#8]).map fun x => Xact.wd x.2 x.1
      Answers s done → (∀ k < 20, s.line ((samplesOf done).length + k) = false) →
      ∃ t, exec .resetHalt s = .next t ∧ FailedWith s t .busTimeout false ∧
        OnWireEvents s t ([.ck false, .t 20, .ck true, .t Config.tSettle] ++ eventsOf (.wa s.fpctlAddr :: done) ++
          writeDrTimeoutEvents d) ((samplesOf done).length + 20)

/-- R207, R33: `GET_DEVICE_INFO` reads the registers 0x00 and 0x01; both captures, `RES0`, `RES1` and `INFO_VALID` are
written on success, and none of the captures when either read times out. -/
def Obligations.GetDeviceInfoCommandRuns : Prop :=
  ∀ (s : State) (id rev : Byte) (n m : Nat), Ready s → 1 ≤ n → n ≤ 50 → 1 ≤ m → m ≤ 50 →
    (Answers s [.wa 0x00#8, .rd id n, .wa 0x01#8, .rd rev m] →
      ∃ t, exec .getDeviceInfo s = .next t ∧ OnWire s t [.wa 0x00#8, .rd id n, .wa 0x01#8, .rd rev m] ∧
        EndedWith t 0#3 true (statusPiInfoValid s.status) ∧
        t.deviceId = id ∧ t.revisionId = rev ∧ t.res0 = id ∧ t.res1 = rev ∧
        SameInputs s t ∧ SamePi s t ∧ SameBuf s t ∧ SameScratch s t) ∧
    ((∀ k < 50, s.line k = false) →
      ∃ t, exec .getDeviceInfo s = .next t ∧ FailedWith s t .busTimeout false ∧
        OnWireEvents s t (writeArEvents 0x00#8 ++ readDrTimeoutEvents) 50) ∧
    (Answers s [.wa 0x00#8, .rd id n, .wa 0x01#8] → (∀ k < 50, s.line (n + 8 + k) = false) →
      ∃ t, exec .getDeviceInfo s = .next t ∧ FailedWith s t .busTimeout false ∧
        OnWireEvents s t (eventsOf [.wa 0x00#8, .rd id n, .wa 0x01#8] ++ readDrTimeoutEvents) (n + 8 + 50))

/-- R208, R34: `GET_PI_INFO` selects FPDAT and issues 0x01 and 0x02, each verified with a result byte; both captures, `RES0`,
`RES1` and `PI_INFO_VALID` are written. -/
def Obligations.GetPiInfoCommandRuns : Prop :=
  ∀ (s : State) (a b : QueryAnswer), Ready s → ctlFamilyValid s.familyCtl = true → a.ok s.pollOut.toNat = true →
    b.ok s.pollOut.toNat = true → Answers s (.wa s.fpdatAddr :: (a.xacts 0x01#8 ++ b.xacts 0x02#8)) →
    ∃ t, exec .getPiInfo s = .next t ∧ OnWire s t (.wa s.fpdatAddr :: (a.xacts 0x01#8 ++ b.xacts 0x02#8)) ∧
      EndedWith t 0#3 (statusInfoValid s.status) true ∧
      t.piVersion = a.val.value ∧ t.piDerivative = b.val.value ∧ t.res0 = a.val.value ∧ t.res1 = b.val.value ∧
      SameInputs s t ∧ SameDevice s t ∧ SameBuf s t ∧ SameScratch s t

/-- R191, R103: a target that rejects the command byte of an admitted family command ends it there: the selection, the byte,
its response, and no frame after them. A `BLOCK_READ` that was storing leaves BUF without a value (R259). `FLASH_CHUNK`, which
makes several selections, has its own statement (`FlashChunkRejectedInsideItsCycle`). -/
def Obligations.RejectedCommandByteEndsTheOperation : Prop :=
  ∀ (s : State) (op : Byte) (i : Instr) (cmd : Byte) (a : Taken) (g : Given), Ready s →
    (op, i, cmd) ∈ [(0x30#8, Instr.readDirect, Config.piCodes.directRead), (0x31#8, .writeDirect, Config.piCodes.directWrite),
      (0x32#8, .blockRead, Config.piCodes.blockRead), (0x33#8, .blockWrite, Config.piCodes.blockWrite),
      (0x34#8, .erasePage, Config.piCodes.pageErase), (0x35#8, .eraseDevice, Config.piCodes.deviceErase),
      (0x38#8, .getPiInfo, 0x01#8)] →
    admissionTable op s = none → (i = .blockRead ∨ i = .blockWrite → 0 < s.len.toNat) →
    a.ok = true → g.ok s.pollOut.toNat = true → g.value ≠ 0x0D#8 →
    Answers s (.wa s.fpdatAddr :: (a.xacts cmd ++ g.xacts)) →
    ∃ t, exec i s = .next t ∧ OnWire s t (.wa s.fpdatAddr :: (a.xacts cmd ++ g.xacts)) ∧
      FailedWith s t .protocolRejected (decide (i = .blockRead) && !flagDiscard s.flags)

/-- U21: with every sample 1 (no target, the pull-up alone; an assumption about the environment), Read AR gives 0xFF, which
is busy and ready; `PI_WRITE` times out after 20 polls, and `GET_DEVICE_INFO` and `RESET_HALT` succeed. -/
def Obligations.AbsentTargetReadsAsOnes : Prop :=
  ∀ s : State, Ready s → (∀ k < 161, s.line k = true) →
    (∃ t, exec .readAr s = .next t ∧ statusErr t.status = 0#3 ∧ t.res0 = 0xFF#8) ∧
    (∃ t, exec .piWrite s = .next t ∧ FailedWith s t .busTimeout false ∧
      OnWire s t (.wd s.byte0 1 :: exhaustedXacts 1 (List.replicate 20 0xFF#8))) ∧
    (∃ t, exec .getDeviceInfo s = .next t ∧ statusErr t.status = 0#3 ∧ t.deviceId = 0xFF#8 ∧ t.revisionId = 0xFF#8) ∧
    ∃ t, exec .resetHalt s = .next t ∧ statusErr t.status = 0#3

/-! ## Page write (spec/44_page_write.md) -/

/-- R220, R225, R226: an admitted `FLASH_CHUNK` reads the page if the request does not cover it, erases it, and writes back
the old bytes with the source bytes laid over them; `RES_LEN` is the number of bytes consumed; BUF is not written and
SCRATCH holds the page image. A source byte of BUF without a value is taken as a free one (log 4). -/
def Obligations.FlashChunkCommandRuns : Prop :=
  ∀ (s : State) (a : ChunkAnswer), Ready s → admissionTable 0x40#8 s = none →
    let p := s.pageSize.toNat
    let addr := s.addr.toNat
    let len := s.len.toNat
    let first := readsFirst addr len p
    let image := chunkImage a s addr len p
    a.ok s.pollOut.toNat (ctlErratumF5 s.familyCtl) first p = true →
    Answers s (a.xacts s.fpdatAddr (ctlErratumF5 s.familyCtl) first (pageOf addr p) (pageBase addr p) p image) →
    image.length = p ∧
    (∀ i < p, image[i]? =
      if chunkStart addr p ≤ i ∧ i < chunkStart addr p + chunkLen addr len p then
        (loadedBytes s.buf s.fresh 0 (chunkLen addr len p))[i - chunkStart addr p]?
      else (readBytesOf a.read)[i]?) ∧
    ∃ t, exec .flashChunk s = .next t ∧
      OnWire s t (a.xacts s.fpdatAddr (ctlErratumF5 s.familyCtl) first (pageOf addr p) (pageBase addr p) p image) ∧
      Succeeded s t ∧ t.resLen.toNat = chunkLen addr len p ∧ SameBuf s t ∧
      ∀ i, t.scratch.read i = if i < p then image[i]? else s.scratch.read i

/-- R220, R223, R191: where a target rejects the command byte of the page read, of the erase or of the page write, an admitted
`FLASH_CHUNK` fails there with the same kind: the frames of the steps that succeeded, the selection, the byte, its response,
and no frame after them. -/
def Obligations.FlashChunkRejectedInsideItsCycle : Prop :=
  ∀ (s : State) (a : ChunkAnswer) (x : Taken) (g : Given), Ready s → admissionTable 0x40#8 s = none →
    x.ok = true → g.ok s.pollOut.toNat = true → g.value ≠ 0x0D#8 →
    let p := s.pageSize.toNat
    let addr := s.addr.toNat
    let erratum := ctlErratumF5 s.familyCtl
    let first := readsFirst addr s.len.toNat p
    let pageRead := if first then .wa s.fpdatAddr :: readBlockXacts (pageBase addr p) p a.read else []
    let erase := a.erase.xacts s.fpdatAddr erratum (BitVec.ofNat 8 (pageOf addr p))
    let rejected := fun cmd : Byte => .wa s.fpdatAddr :: (x.xacts cmd ++ g.xacts)
    let endsWith := fun xs : List Xact => Answers s xs →
      ∃ t, exec .flashChunk s = .next t ∧ OnWire s t xs ∧ FailedWith s t .protocolRejected false
    (first = true → endsWith (rejected Config.piCodes.blockRead)) ∧
    ((first = true → readAnswersOk s.pollOut.toNat p a.read = true) →
      endsWith (pageRead ++ rejected Config.piCodes.pageErase)) ∧
    ((first = true → readAnswersOk s.pollOut.toNat p a.read = true) → a.erase.ok s.pollOut.toNat erratum = true →
      endsWith (pageRead ++ erase ++ rejected Config.piCodes.blockWrite))

/-- R221, R222: the page arithmetic for a power of two: quotients and remainders as shifts and masks, the window inside the
page, and the whole-page test. -/
def Obligations.PageArithmetic : Prop :=
  ∀ (addr length k : Nat), addr < 65536 → k < 32 →
    let p := 2 ^ k
    pageOf addr p = addr >>> k ∧ chunkStart addr p = addr &&& (p - 1) ∧ pageBase addr p + chunkStart addr p = addr ∧
    BitVec.ofNat 32 (pageBase addr p) = BitVec.ofNat 32 addr &&& ~~~ BitVec.ofNat 32 (p - 1) ∧
    chunkStart addr p < p ∧ 1 ≤ p - chunkStart addr p ∧ p - chunkStart addr p ≤ p ∧
    chunkLen addr length p = min length (p - chunkStart addr p) ∧
    chunkStart addr p + chunkLen addr length p ≤ p ∧
    (readsFirst addr length p = false ↔ chunkStart addr p = 0 ∧ p ≤ length) ∧
    (readsFirst addr length p = false → chunkLen addr length p = p)

/-- R224: the calls of `write_region`: one for each page the region touches, none empty, none past its page, at consecutive
addresses, every one after the first page-aligned, and together the whole length. -/
def Obligations.RegionCallsCoverEachPageOnce : Prop :=
  ∀ (addr length p : Nat), 0 < p →
    let calls := regionCalls p length addr length
    (calls.map fun c => c.2.2).sum = length ∧
    calls.length = (if length = 0 then 0 else (addr + length - 1) / p - addr / p + 1) ∧
    (∀ c ∈ calls, 1 ≤ c.2.2 ∧ c.2.2 = chunkLen c.1 c.2.1 p ∧ c.2.2 ≤ p - chunkStart c.1 p) ∧
    (∀ c ∈ calls.drop 1, chunkStart c.1 p = 0) ∧
    ∀ k, (h : k < calls.length) → calls[k].1 = addr + ((calls.take k).map fun c => c.2.2).sum

/-! ## Counts (R176, R209, R301) -/

/-- R176, R209: the frames of a byte written, of a byte got and of an exhausted poll for any number of polls, and those of a
block read of any length against a target that is never busy and always ready. -/
def Obligations.FramesPerOperation : Prop :=
  (∀ (a : Taken) (b : Byte), frameCount (a.xacts b) = 1 + (a.busy.length + 1)) ∧
  (∀ g : Given, frameCount g.xacts = (g.notReady.length + 1) + 1) ∧
  (∀ (gap : Nat) (rs : List Byte), frameCount (exhaustedXacts gap rs) = rs.length) ∧
  ∀ (n addr length : Nat) (as : List ReadAnswer), readAnswersOk n length as = true →
    (∀ a ∈ as, (∀ c ∈ [a.header.cmd, a.header.len], c.taken.busy = [] ∧ c.reply.notReady = []) ∧
      a.header.hi.busy = [] ∧ a.header.lo.busy = [] ∧ ∀ g ∈ a.data, g.notReady = []) →
    ∀ fpdat, frameCount (.wa fpdat :: readBlockXacts addr length as) = 1 + 12 * ((length + 255) / 256) + 2 * length

/-- R301, R251: whatever the target answers, a frame makes at most 64 strobes, `pi_write` at most 1 + 20 frames and `pi_get`
at most `POLL_OUT` + 1, so at most this many strobes. -/
def Obligations.StrobesAreBounded : Prop :=
  ∀ (s : State) (b : Byte) (n : Nat),
    (∃ es, ((writeDr b).run s).2.trace = s.trace ++ es ∧ strobeCount es ≤ 34) ∧
    (∃ es, (readDr.run s).2.trace = s.trace ++ es ∧ strobeCount es ≤ 64) ∧
    (∃ es, ((piWrite b).run s).2.trace = s.trace ++ es ∧ strobeCount es ≤ 34 + 20 * 12) ∧
    ∃ es, ((piGet n).run s).2.trace = s.trace ++ es ∧ strobeCount es ≤ 64 + n * 12

/-! ## The command port (spec/45_host_commands.md, spec/60_exceptions.md) -/

/-- R235, R238: a write of CMD while idle goes by the admission table: a request that fails a check ends at once with the
kind of the first check that fails and no event; an admitted one is started, `BUSY` set, `DONE` and `ERR` cleared. That a
refused `BLOCK_READ` that would store leaves BUF without a value is the model's reading (log 8). -/
def Obligations.AdmissionGoesByTheTable : Prop :=
  ∀ (s : State) (op : Byte), Ready s →
    (∀ k, admissionTable op s = some k →
      FailedWith s (startCommand op s) k (decide (op = 0x32#8) && !flagDiscard s.flags) ∧
      OnWireEvents s (startCommand op s) [] 0 ∧
      ∀ rest, s.port = .run op :: rest → step s = .next (startCommand op { s with port := rest })) ∧
    (admissionTable op s = none →
      (startCommand op s).seq = .run [] ∧ (startCommand op s).cmd = op ∧ (startCommand op s).busy = true ∧
      statusDone (startCommand op s).status = false ∧ statusErr (startCommand op s).status = 0#3 ∧
      OnWireEvents s (startCommand op s) [] 0 ∧ SameInputs s (startCommand op s) ∧ SameResults s (startCommand op s) ∧
      SameBuf s (startCommand op s) ∧ SameScratch s (startCommand op s))

/-- R28, R235: while `BUSY`, STATUS reads as it is, a write of a register, of BUF or of CMD is ignored, so no host command
starts; a read of another register or of BUF returns free data and changes nothing else (log 12). That a call of a row of a
lower layer is ignored too is the model's choice (log 9). -/
def Obligations.BusyCoreIgnoresTheHost : Prop :=
  ∀ (s : State) (i : Instr) (r : HReg) (v : Word32) (k : Nat) (b : Byte), s.busy = true →
    exec i s = .next s ∧ hostWrite r v s = .next s ∧ hostWriteBuf k b s = .next s ∧
    hostRead .status s = .next { s with hostData := s.status.setWidth 32 } ∧
    (r ≠ .status → hostRead r s = .next { s with hostData := Config.freeWord s.fresh, fresh := s.fresh + 1 }) ∧
    hostReadBuf k s = .next { s with hostData := Config.freeWord s.fresh, fresh := s.fresh + 1 }

/-- R27, R28, R30, R39: while idle, a write of a plain writable register is read back, cut to the register's width (the
reserved bits of FAMILY_CTL read 0, log 13), and changes no other register and nothing else of the state; a byte written to BUF
is read back, and every other byte and the rest of the state are as before; a read changes nothing but what the host got. What
the access column of R27 forbids is refused, and an index outside BUF is a fault (log 19). -/
def Obligations.HostReadsBackWhatItWrote : Prop :=
  ∀ (s : State) (r q : HReg) (v : Word32), s.busy = false →
    (r.writable = true → r ≠ .cmd → ∃ t, hostWrite r v s = .next t ∧ t.busy = false ∧
      t.readReg r = (if r = .familyCtl then v &&& 3#32 else v &&& BitVec.ofNat 32 (2 ^ r.width - 1)) ∧
      (q ≠ r → t.readReg q = s.readReg q) ∧
      t = { s with
        addr := t.addr, len := t.len, byte0 := t.byte0, byte1 := t.byte1, flags := t.flags, pollOut := t.pollOut,
        fpdatAddr := t.fpdatAddr, pageSize := t.pageSize, familyCtl := t.familyCtl, fpctlAddr := t.fpctlAddr }) ∧
    (q.readable = true → hostRead q s = .next { s with hostData := s.readReg q }) ∧
    (r.writable = false → hostWrite r v s = .refused .writeOfReadOnly) ∧
    (q.readable = false → hostRead q s = .refused .readOfWriteOnly) ∧
    ∀ (i j : Nat) (b : Byte),
      (i < Config.bufSize → ∃ t, hostWriteBuf i b s = .next t ∧ t = { s with buf := t.buf } ∧ t.buf.read i = some b ∧
        (j ≠ i → t.buf.read j = s.buf.read j) ∧ hostReadBuf i t = .next { t with hostData := b.setWidth 32 }) ∧
      (Config.bufSize ≤ i → hostWriteBuf i b s = .fault .bufIndexOutOfRange ∧
        hostReadBuf i s = .fault .bufIndexOutOfRange)

/-- R114, R239: `set_poll_out` and `set_family` are plain register writes made while idle; they produce no event and do not
touch STATUS. The queue of moves is the model's (log 11). -/
def Obligations.ConfigurationMovesAreRegisterWrites : Prop :=
  ∀ (s : State) (n size : Word32) (fpdat : Byte) (erratum : Bit) (rest : List PortMove), Ready s →
    (s.port = setPollOut n ++ rest → stepN 1 s = .next { s with pollOut := n, port := rest }) ∧
    (s.port = setFamily fpdat size erratum ++ rest →
      ∃ t, stepN 3 s = .next t ∧ t = { s with fpdatAddr := fpdat, pageSize := size, familyCtl := t.familyCtl, port := rest } ∧
        ctlFamilyValid t.familyCtl = true ∧ ctlErratumF5 t.familyCtl = erratum)

/-- R114, R66, R32: `read_device_id` and `read_revision_id`, run as the host's moves: Write AR of 0x00 or 0x01, Read DR, and
the host gets the byte. The queue of moves is the model's (log 11). -/
def Obligations.IdentityMovesReadTheRegisters : Prop :=
  ∀ (s : State) (id : Byte) (n : Nat) (rest : List PortMove) (a : Byte), Ready s → 1 ≤ n → n ≤ 50 →
    (s.port = readDeviceId ++ rest ∧ a = 0x00#8 ∨ s.port = readRevisionId ++ rest ∧ a = 0x01#8) →
    Answers s [.wa a, .rd id n] →
    ∃ t, stepN 4 s = .next t ∧ OnWire s t [.wa a, .rd id n] ∧ t.hostData = id.setWidth 32 ∧ t.port = rest ∧
      EndedWith t 0#3 (statusInfoValid s.status) (statusPiInfoValid s.status)

/-- R236, R237, R259, R301: every host command ends, whatever the target answers: `DONE`, not `BUSY`, an error code the core
produces, idle lines; operands and configuration unchanged; the captures change only by a `GET_DEVICE_INFO` or
`GET_PI_INFO` that succeeds, and the valid bits with them. -/
def Obligations.EveryHostCommandEnds : Prop :=
  ∀ (s : State) (op : Byte) (i : Instr), Ready s → decodeHost op = .ok i →
    ∃ t err, exec i s = .next t ∧ err ∈ [0#3, 1#3, 2#3, 3#3, 7#3] ∧ LinesIdle t ∧ SameInputs s t ∧ t.cmd = op ∧
      EndedWith t err (statusInfoValid s.status || decide (i = .getDeviceInfo ∧ err = 0#3))
        (statusPiInfoValid s.status || decide (i = .getPiInfo ∧ err = 0#3)) ∧
      (¬ (i = .getDeviceInfo ∧ err = 0#3) → SameDevice s t) ∧ (¬ (i = .getPiInfo ∧ err = 0#3) → SamePi s t)

/-- R35, R197, R259: what every host command leaves of the local memories, whatever the target answers: BUF is unchanged
unless the command is a `BLOCK_READ` that stores; SCRATCH is unchanged if the command succeeds and is no `FLASH_CHUNK`;
after a failure SCRATCH holds no value, nor does BUF if it was the destination. That BUF is as it was after any other failure,
and that a refused request counts as a failure here, is the model's reading of R35, R237 and R259 (log 8). -/
def Obligations.HostCommandsLeaveTheMemories : Prop :=
  ∀ (s t : State) (op : Byte) (i : Instr), Ready s → decodeHost op = .ok i → exec i s = .next t →
    (¬ (i = .blockRead ∧ flagDiscard s.flags = false) → SameBuf s t) ∧
    (statusErr t.status = 0#3 → i ≠ .flashChunk → SameScratch s t) ∧
    (statusErr t.status ≠ 0#3 → ∀ j, t.scratch.read j = none) ∧
    (statusErr t.status ≠ 0#3 → i = .blockRead → flagDiscard s.flags = false → ∀ j, t.buf.read j = none)

/-- R160, R255: every row of the lower layers ends, whatever the target answers, with idle lines, and leaves CMD, the
operands, the configuration, the captures and (but for PI_BLOCK_READ) BUF alone; if it does not fail it leaves the whole
host port alone. The layer call is the model's choice (log 9), and so is that a PI block row past 0xFFFF runs (log 26); that
BUF is as it was also after a row that fails is the model's reading of R35 and R259 (log 8). -/
def Obligations.EveryLayerRowEnds : Prop :=
  ∀ (s : State) (i : Instr), Ready s → i.space ≠ .host → i.wellFormed = true →
    ∃ t, exec i s = .next t ∧ Ready t ∧ SameInputs s t ∧ t.cmd = s.cmd ∧
      SameDevice s t ∧ SamePi s t ∧ ((∀ a n, i ≠ .piBlockRead a n) → SameBuf s t) ∧
      (SamePort s t ∧ SameScratch s t ∨
        (statusErr t.status = 1#3 ∨ statusErr t.status = 2#3) ∧ statusDone t.status = true)

/-- R20, R43: the trace records and influences nothing: a longer past on the wire changes the outcome of no instruction in
anything but that past. -/
def Obligations.TraceInfluencesNothing : Prop :=
  ∀ (i : Instr) (s t : State) (past : List Event), exec i s = .next t →
    exec i { s with trace := past ++ s.trace } = .next { t with trace := past ++ t.trace }

/-! ## The machine -/

/-- R45: the values reset gives. -/
def Obligations.ResetGivesTheTable : Prop :=
  State.reset.ck = true ∧ State.reset.dOe = false ∧ State.reset.dPullup = true ∧ State.reset.seq = .idle ∧
  State.reset.status = 0x00#8 ∧ State.reset.pollOut = 100#32 ∧ State.reset.familyCtl = 0x00#8 ∧
  State.reset.fpctlAddr = Config.fpctlAddr ∧ State.reset.trace = []

/-- R280, U20: reset at any moment, also in the middle of an operation: the core waits with the values of the reset table,
no event, no family, both valid bits clear and no byte of the local memories with a value. That the further moves and the
levels of the line outlive it is the model's choice (log 22). -/
def Obligations.ResetAtAnyMoment : Prop :=
  ∀ (s : State) (rest : List PortMove), s.port = .reset :: rest →
    ∃ t, step s = .next t ∧ Ready t ∧ t.dPullup = true ∧ t.seq = .idle ∧ t.status = 0x00#8 ∧ t.pollOut = 100#32 ∧
      t.familyCtl = 0x00#8 ∧ t.fpctlAddr = Config.fpctlAddr ∧ t.trace = [] ∧
      (∀ i, t.buf.read i = none ∧ t.scratch.read i = none) ∧ t.port = rest ∧ ∀ k, t.line k = s.line k

/-- The state after reset is safe. -/
def Obligations.ResetIsSafe : Prop := Inv State.reset

/-- Every step from a safe state, by whatever move, leads to a safe state (R23, R24, R29, R30, R36, R39, R40, R132,
R139). That the reserved bits of FAMILY_CTL are 0 is the model's reading (log 13). -/
def Obligations.StepKeepsSafety : Prop :=
  ∀ s t : State, Inv s → step s = .next t → Inv t

/-- R132, R285, U2: no primitive step from a safe state samples a driven line: the only faults are the host's accesses outside
BUF (log 19). A move that runs a whole procedure makes no such check (log 14), so of these the statement says that the procedure
keeps the line discipline at every primitive, whatever each sample answers: what is left of the operation a wait completes, and
the procedure of every row of the lower layers (log 9, log 26); of host commands AdmittedOperationsKeepTheDiscipline says it. -/
def Obligations.NoDrivenSampleFromASafeState : Prop :=
  ∀ s : State, Inv s →
    (∀ f, step s = .fault f → f = .bufIndexOutOfRange ∧ ∃ i rest, Config.bufSize ≤ i ∧
      (s.port = .readBuf i :: rest ∨ ∃ b, s.port = .writeBuf i b :: rest)) ∧
    (∀ p, s.remaining = some p → p.Safe s.ck s.dOe true false) ∧
    ∀ i : Instr, i.space ≠ .host → i.wellFormed = true →
      ∃ (α : Type) (p : Prog α) (bufWasDest : Bool), p.Safe true false true false ∧
        ∀ t, t.pollOut = s.pollOut → exec i t = .next (layerCall p bufWasDest t)

/-- R132, R138, R139, R296: every admitted operation keeps the line discipline and the memory bounds at every primitive,
whatever each sample answers, and ends with idle lines. -/
def Obligations.AdmittedOperationsKeepTheDiscipline : Prop :=
  ∀ (op : Byte) (o : Operation) (s : State), operationOf op = some o → o.admission s = none →
    (o.prog s).Safe true false true false

/-- When the next move is a command or a code of a lower layer that decodes, the step is `exec` of that instruction, the move
taken off the port; so is the step after a table word is placed (the model's form of a start: log 11). -/
def Obligations.StepRunsTheDecodedInstruction : Prop :=
  (∀ (s : State) (op : Byte) (i : Instr) (rest : List PortMove), s.port = .run op :: rest → decodeHost op = .ok i →
    step s = exec i { s with port := rest }) ∧
  (∀ (s : State) (sp : Space) (bytes tail : List Byte) (i : Instr) (rest : List PortMove),
    s.port = .layer sp bytes :: rest → decode sp bytes = .ok (i, tail) → step s = exec i { s with port := rest }) ∧
  ∀ (s : State) (nbits w : Nat) (i : Instr), decodeTableWord nbits w = some i →
    step (s.withFetchWord nbits w) = exec i s.idled

/-- R36, R37, R237: a started command that is left alone reaches, primitive by primitive, exactly the state that `exec` gives
for the whole operation, in finitely many steps, and stays there; no step of it faults. A host that starts the command and
waits gets the same. -/
def Obligations.PrimitiveStepsReachTheWholeOperation : Prop :=
  ∀ (s : State) (op : Byte) (i : Instr), Ready s → decodeHost op = .ok i →
    (s.port = [] → ∃ n t, exec i s = .next t ∧ ∀ m, stepN (n + m) (startCommand op s) = .next t) ∧
    ∀ rest, s.port = .write .cmd (op.setWidth 32) :: .wait :: rest → stepN 2 s = exec i { s with port := rest }

/-- Two local memories in canonical form that read alike are the same data (log 4). -/
def Obligations.CanonicalMemoriesThatReadAlikeAreEqual : Prop :=
  ∀ m m' : Memory, m.wf → m'.wf → (∀ i, m.read i = m'.read i) → m = m'
end

