-- ==== Sys2Proof/Laws/Memory.lean ====
section
/-! SUPPORT. The laws of a local memory: reading what was written, reading elsewhere, the canonical form and the bounds. -/

namespace Sys2Proof.Machine

@[simp] theorem Memory.read_nil (i : Nat) : Memory.read [] i = none := rfl

theorem Memory.read_write (m : Memory) (i j : Nat) (b : Byte) :
    (m.write i b).read j = if j = i then some b else m.read j := by
  induction m with
  | nil => simp [Memory.write, Memory.read]
  | cons c m ih =>
    obtain ⟨k, d⟩ := c
    simp only [Memory.write]
    split
    next => rfl
    next =>
      split
      next h => subst h; by_cases hj : j = i <;> simp [Memory.read, hj]
      next h =>
        simp only [Memory.read, ih]
        by_cases hj : j = k
        · subst hj; simp [Ne.symm h]
        · simp [hj]

@[simp] theorem Memory.read_write_same (m : Memory) (i : Nat) (b : Byte) : (m.write i b).read i = some b := by
  simp [Memory.read_write]

theorem Memory.read_write_other (m : Memory) {i j : Nat} (b : Byte) (h : j ≠ i) :
    (m.write i b).read j = m.read j := by
  simp [Memory.read_write, h]

/-- Writing lists no index but those listed and the one written. -/
theorem Memory.mem_write {m : Memory} {i : Nat} {b : Byte} {c : Host.Cell} (h : c ∈ m.write i b) :
    c.1 = i ∨ c ∈ m := by
  induction m with
  | nil => simp_all [Memory.write]
  | cons d m ih =>
    simp only [Memory.write] at h
    split at h
    next => simp only [List.mem_cons] at h ⊢; rcases h with rfl | h <;> simp_all
    next =>
      split at h
      next => simp only [List.mem_cons] at h ⊢; rcases h with rfl | h <;> simp_all
      next =>
        simp only [List.mem_cons] at h ⊢
        rcases h with rfl | h
        · exact .inr (.inl rfl)
        · rcases ih h with h | h
          · exact .inl h
          · exact .inr (.inr h)

/-- A write keeps the canonical form. -/
theorem Memory.wf_write {m : Memory} (h : m.wf) (i : Nat) (b : Byte) : (m.write i b).wf := by
  induction m with
  | nil => simp [Memory.write, Memory.wf]
  | cons c m ih =>
    obtain ⟨hc, hm⟩ := List.pairwise_cons.mp h
    simp only [Memory.write]
    split
    next hi =>
      refine List.pairwise_cons.mpr ⟨fun d hd => ?_, h⟩
      rcases List.mem_cons.mp hd with rfl | hd
      · exact hi
      · exact Nat.lt_trans hi (hc d hd)
    next hi =>
      split
      next he => subst he; exact List.pairwise_cons.mpr ⟨hc, hm⟩
      next he =>
        refine List.pairwise_cons.mpr ⟨fun d hd => ?_, ih hm⟩
        rcases Memory.mem_write hd with h | h
        · show c.1 < d.1; omega
        · exact hc d h

/-- A write inside the size keeps the memory inside the size. -/
theorem Memory.within_write {m : Memory} {size i : Nat} (h : m.within size) (hi : i < size) (b : Byte) :
    (m.write i b).within size := by
  refine ⟨Memory.wf_write h.1 i b, fun c hc => ?_⟩
  rcases Memory.mem_write hc with h' | h'
  · omega
  · exact h.2 c h'

theorem Memory.within_nil (size : Nat) : Memory.within [] size := ⟨List.Pairwise.nil, by simp⟩

/-- An index outside the size is not listed. -/
theorem Memory.read_outside {m : Memory} {size i : Nat} (h : m.within size) (hi : size ≤ i) : m.read i = none := by
  have h2 := h.2
  clear h
  induction m with
  | nil => rfl
  | cons c m ih =>
    obtain ⟨k, d⟩ := c
    have hk : k < size := h2 (k, d) (by simp)
    simp only [Memory.read]
    rw [if_neg (by omega), ih fun c hc => h2 c (by simp [hc])]

/-- Reset memory is in the canonical form. -/
theorem State.reset_memories_wf : State.reset.buf.wf ∧ State.reset.scratch.wf :=
  ⟨List.Pairwise.nil, List.Pairwise.nil⟩

end Sys2Proof.Machine
end

