-- ==== Sys2Proof/Laws/State.lean ====
section
/-! SUPPORT. One lemma per field per update of State, so that no proof unfolds a record update. -/

namespace Sys2Proof.Machine

variable (s : State)

/-! ## `State.emit` -/

@[simp] theorem State.emit_ck (es : List Event) : (s.emit es).ck = s.ck := rfl
@[simp] theorem State.emit_dOe (es : List Event) : (s.emit es).dOe = s.dOe := rfl
@[simp] theorem State.emit_dOut (es : List Event) : (s.emit es).dOut = s.dOut := rfl
@[simp] theorem State.emit_dPullup (es : List Event) : (s.emit es).dPullup = s.dPullup := rfl
@[simp] theorem State.emit_shift (es : List Event) : (s.emit es).shift = s.shift := rfl
@[simp] theorem State.emit_bitcnt (es : List Event) : (s.emit es).bitcnt = s.bitcnt := rfl
@[simp] theorem State.emit_trycnt (es : List Event) : (s.emit es).trycnt = s.trycnt := rfl
@[simp] theorem State.emit_cmd (es : List Event) : (s.emit es).cmd = s.cmd := rfl
@[simp] theorem State.emit_status (es : List Event) : (s.emit es).status = s.status := rfl
@[simp] theorem State.emit_addr (es : List Event) : (s.emit es).addr = s.addr := rfl
@[simp] theorem State.emit_len (es : List Event) : (s.emit es).len = s.len := rfl
@[simp] theorem State.emit_byte0 (es : List Event) : (s.emit es).byte0 = s.byte0 := rfl
@[simp] theorem State.emit_byte1 (es : List Event) : (s.emit es).byte1 = s.byte1 := rfl
@[simp] theorem State.emit_flags (es : List Event) : (s.emit es).flags = s.flags := rfl
@[simp] theorem State.emit_res0 (es : List Event) : (s.emit es).res0 = s.res0 := rfl
@[simp] theorem State.emit_res1 (es : List Event) : (s.emit es).res1 = s.res1 := rfl
@[simp] theorem State.emit_resLen (es : List Event) : (s.emit es).resLen = s.resLen := rfl
@[simp] theorem State.emit_pollOut (es : List Event) : (s.emit es).pollOut = s.pollOut := rfl
@[simp] theorem State.emit_fpdatAddr (es : List Event) : (s.emit es).fpdatAddr = s.fpdatAddr := rfl
@[simp] theorem State.emit_pageSize (es : List Event) : (s.emit es).pageSize = s.pageSize := rfl
@[simp] theorem State.emit_familyCtl (es : List Event) : (s.emit es).familyCtl = s.familyCtl := rfl
@[simp] theorem State.emit_fpctlAddr (es : List Event) : (s.emit es).fpctlAddr = s.fpctlAddr := rfl
@[simp] theorem State.emit_deviceId (es : List Event) : (s.emit es).deviceId = s.deviceId := rfl
@[simp] theorem State.emit_revisionId (es : List Event) : (s.emit es).revisionId = s.revisionId := rfl
@[simp] theorem State.emit_piVersion (es : List Event) : (s.emit es).piVersion = s.piVersion := rfl
@[simp] theorem State.emit_piDerivative (es : List Event) : (s.emit es).piDerivative = s.piDerivative := rfl
@[simp] theorem State.emit_buf (es : List Event) : (s.emit es).buf = s.buf := rfl
@[simp] theorem State.emit_scratch (es : List Event) : (s.emit es).scratch = s.scratch := rfl
@[simp] theorem State.emit_seq (es : List Event) : (s.emit es).seq = s.seq := rfl
@[simp] theorem State.emit_trace (es : List Event) : (s.emit es).trace = s.trace ++ es := rfl
@[simp] theorem State.emit_din (es : List Event) : (s.emit es).din = s.din := rfl
@[simp] theorem State.emit_samples (es : List Event) : (s.emit es).samples = s.samples := rfl
@[simp] theorem State.emit_fresh (es : List Event) : (s.emit es).fresh = s.fresh := rfl
@[simp] theorem State.emit_port (es : List Event) : (s.emit es).port = s.port := rfl
@[simp] theorem State.emit_hostData (es : List Event) : (s.emit es).hostData = s.hostData := rfl

/-! ## `State.afterSamples` -/

@[simp] theorem State.afterSamples_ck (n : Nat) : (s.afterSamples n).ck = s.ck := rfl
@[simp] theorem State.afterSamples_dOe (n : Nat) : (s.afterSamples n).dOe = s.dOe := rfl
@[simp] theorem State.afterSamples_dOut (n : Nat) : (s.afterSamples n).dOut = s.dOut := rfl
@[simp] theorem State.afterSamples_dPullup (n : Nat) : (s.afterSamples n).dPullup = s.dPullup := rfl
@[simp] theorem State.afterSamples_shift (n : Nat) : (s.afterSamples n).shift = s.shift := rfl
@[simp] theorem State.afterSamples_bitcnt (n : Nat) : (s.afterSamples n).bitcnt = s.bitcnt := rfl
@[simp] theorem State.afterSamples_trycnt (n : Nat) : (s.afterSamples n).trycnt = s.trycnt := rfl
@[simp] theorem State.afterSamples_cmd (n : Nat) : (s.afterSamples n).cmd = s.cmd := rfl
@[simp] theorem State.afterSamples_status (n : Nat) : (s.afterSamples n).status = s.status := rfl
@[simp] theorem State.afterSamples_addr (n : Nat) : (s.afterSamples n).addr = s.addr := rfl
@[simp] theorem State.afterSamples_len (n : Nat) : (s.afterSamples n).len = s.len := rfl
@[simp] theorem State.afterSamples_byte0 (n : Nat) : (s.afterSamples n).byte0 = s.byte0 := rfl
@[simp] theorem State.afterSamples_byte1 (n : Nat) : (s.afterSamples n).byte1 = s.byte1 := rfl
@[simp] theorem State.afterSamples_flags (n : Nat) : (s.afterSamples n).flags = s.flags := rfl
@[simp] theorem State.afterSamples_res0 (n : Nat) : (s.afterSamples n).res0 = s.res0 := rfl
@[simp] theorem State.afterSamples_res1 (n : Nat) : (s.afterSamples n).res1 = s.res1 := rfl
@[simp] theorem State.afterSamples_resLen (n : Nat) : (s.afterSamples n).resLen = s.resLen := rfl
@[simp] theorem State.afterSamples_pollOut (n : Nat) : (s.afterSamples n).pollOut = s.pollOut := rfl
@[simp] theorem State.afterSamples_fpdatAddr (n : Nat) : (s.afterSamples n).fpdatAddr = s.fpdatAddr := rfl
@[simp] theorem State.afterSamples_pageSize (n : Nat) : (s.afterSamples n).pageSize = s.pageSize := rfl
@[simp] theorem State.afterSamples_familyCtl (n : Nat) : (s.afterSamples n).familyCtl = s.familyCtl := rfl
@[simp] theorem State.afterSamples_fpctlAddr (n : Nat) : (s.afterSamples n).fpctlAddr = s.fpctlAddr := rfl
@[simp] theorem State.afterSamples_deviceId (n : Nat) : (s.afterSamples n).deviceId = s.deviceId := rfl
@[simp] theorem State.afterSamples_revisionId (n : Nat) : (s.afterSamples n).revisionId = s.revisionId := rfl
@[simp] theorem State.afterSamples_piVersion (n : Nat) : (s.afterSamples n).piVersion = s.piVersion := rfl
@[simp] theorem State.afterSamples_piDerivative (n : Nat) : (s.afterSamples n).piDerivative = s.piDerivative := rfl
@[simp] theorem State.afterSamples_buf (n : Nat) : (s.afterSamples n).buf = s.buf := rfl
@[simp] theorem State.afterSamples_scratch (n : Nat) : (s.afterSamples n).scratch = s.scratch := rfl
@[simp] theorem State.afterSamples_seq (n : Nat) : (s.afterSamples n).seq = s.seq := rfl
@[simp] theorem State.afterSamples_trace (n : Nat) : (s.afterSamples n).trace = s.trace := rfl
@[simp] theorem State.afterSamples_din (n : Nat) : (s.afterSamples n).din = s.din.drop n := rfl
@[simp] theorem State.afterSamples_samples (n : Nat) : (s.afterSamples n).samples = s.samples + n := rfl
@[simp] theorem State.afterSamples_fresh (n : Nat) : (s.afterSamples n).fresh = s.fresh := rfl
@[simp] theorem State.afterSamples_port (n : Nat) : (s.afterSamples n).port = s.port := rfl
@[simp] theorem State.afterSamples_hostData (n : Nat) : (s.afterSamples n).hostData = s.hostData := rfl

/-! ## `State.start` -/

@[simp] theorem State.start_ck (op : Byte) : (s.start op).ck = s.ck := rfl
@[simp] theorem State.start_dOe (op : Byte) : (s.start op).dOe = s.dOe := rfl
@[simp] theorem State.start_dOut (op : Byte) : (s.start op).dOut = s.dOut := rfl
@[simp] theorem State.start_dPullup (op : Byte) : (s.start op).dPullup = s.dPullup := rfl
@[simp] theorem State.start_shift (op : Byte) : (s.start op).shift = s.shift := rfl
@[simp] theorem State.start_bitcnt (op : Byte) : (s.start op).bitcnt = s.bitcnt := rfl
@[simp] theorem State.start_trycnt (op : Byte) : (s.start op).trycnt = s.trycnt := rfl
@[simp] theorem State.start_cmd (op : Byte) : (s.start op).cmd = op := rfl
@[simp] theorem State.start_status (op : Byte) : (s.start op).status = statusStart s.status := rfl
@[simp] theorem State.start_addr (op : Byte) : (s.start op).addr = s.addr := rfl
@[simp] theorem State.start_len (op : Byte) : (s.start op).len = s.len := rfl
@[simp] theorem State.start_byte0 (op : Byte) : (s.start op).byte0 = s.byte0 := rfl
@[simp] theorem State.start_byte1 (op : Byte) : (s.start op).byte1 = s.byte1 := rfl
@[simp] theorem State.start_flags (op : Byte) : (s.start op).flags = s.flags := rfl
@[simp] theorem State.start_res0 (op : Byte) : (s.start op).res0 = s.res0 := rfl
@[simp] theorem State.start_res1 (op : Byte) : (s.start op).res1 = s.res1 := rfl
@[simp] theorem State.start_resLen (op : Byte) : (s.start op).resLen = s.resLen := rfl
@[simp] theorem State.start_pollOut (op : Byte) : (s.start op).pollOut = s.pollOut := rfl
@[simp] theorem State.start_fpdatAddr (op : Byte) : (s.start op).fpdatAddr = s.fpdatAddr := rfl
@[simp] theorem State.start_pageSize (op : Byte) : (s.start op).pageSize = s.pageSize := rfl
@[simp] theorem State.start_familyCtl (op : Byte) : (s.start op).familyCtl = s.familyCtl := rfl
@[simp] theorem State.start_fpctlAddr (op : Byte) : (s.start op).fpctlAddr = s.fpctlAddr := rfl
@[simp] theorem State.start_deviceId (op : Byte) : (s.start op).deviceId = s.deviceId := rfl
@[simp] theorem State.start_revisionId (op : Byte) : (s.start op).revisionId = s.revisionId := rfl
@[simp] theorem State.start_piVersion (op : Byte) : (s.start op).piVersion = s.piVersion := rfl
@[simp] theorem State.start_piDerivative (op : Byte) : (s.start op).piDerivative = s.piDerivative := rfl
@[simp] theorem State.start_buf (op : Byte) : (s.start op).buf = s.buf := rfl
@[simp] theorem State.start_scratch (op : Byte) : (s.start op).scratch = s.scratch := rfl
@[simp] theorem State.start_seq (op : Byte) : (s.start op).seq = .run [] := rfl
@[simp] theorem State.start_trace (op : Byte) : (s.start op).trace = s.trace := rfl
@[simp] theorem State.start_din (op : Byte) : (s.start op).din = s.din := rfl
@[simp] theorem State.start_samples (op : Byte) : (s.start op).samples = s.samples := rfl
@[simp] theorem State.start_fresh (op : Byte) : (s.start op).fresh = s.fresh := rfl
@[simp] theorem State.start_port (op : Byte) : (s.start op).port = s.port := rfl
@[simp] theorem State.start_hostData (op : Byte) : (s.start op).hostData = s.hostData := rfl

/-! ## `State.putResults` -/

@[simp] theorem State.putResults_ck (r : Results) : (s.putResults r).ck = s.ck := rfl
@[simp] theorem State.putResults_dOe (r : Results) : (s.putResults r).dOe = s.dOe := rfl
@[simp] theorem State.putResults_dOut (r : Results) : (s.putResults r).dOut = s.dOut := rfl
@[simp] theorem State.putResults_dPullup (r : Results) : (s.putResults r).dPullup = s.dPullup := rfl
@[simp] theorem State.putResults_shift (r : Results) : (s.putResults r).shift = s.shift := rfl
@[simp] theorem State.putResults_bitcnt (r : Results) : (s.putResults r).bitcnt = s.bitcnt := rfl
@[simp] theorem State.putResults_trycnt (r : Results) : (s.putResults r).trycnt = s.trycnt := rfl
@[simp] theorem State.putResults_cmd (r : Results) : (s.putResults r).cmd = s.cmd := rfl
@[simp] theorem State.putResults_status (r : Results) : (s.putResults r).status = s.status := rfl
@[simp] theorem State.putResults_addr (r : Results) : (s.putResults r).addr = s.addr := rfl
@[simp] theorem State.putResults_len (r : Results) : (s.putResults r).len = s.len := rfl
@[simp] theorem State.putResults_byte0 (r : Results) : (s.putResults r).byte0 = s.byte0 := rfl
@[simp] theorem State.putResults_byte1 (r : Results) : (s.putResults r).byte1 = s.byte1 := rfl
@[simp] theorem State.putResults_flags (r : Results) : (s.putResults r).flags = s.flags := rfl
@[simp] theorem State.putResults_res0 (r : Results) :
    (s.putResults r).res0 = r.res0.getD (Config.freeByte s.fresh) := rfl
@[simp] theorem State.putResults_res1 (r : Results) :
    (s.putResults r).res1 = r.res1.getD (Config.freeByte (s.fresh + 1)) := rfl
@[simp] theorem State.putResults_resLen (r : Results) :
    (s.putResults r).resLen = r.resLen.getD (Config.freeWord (s.fresh + 2)) := rfl
@[simp] theorem State.putResults_pollOut (r : Results) : (s.putResults r).pollOut = s.pollOut := rfl
@[simp] theorem State.putResults_fpdatAddr (r : Results) : (s.putResults r).fpdatAddr = s.fpdatAddr := rfl
@[simp] theorem State.putResults_pageSize (r : Results) : (s.putResults r).pageSize = s.pageSize := rfl
@[simp] theorem State.putResults_familyCtl (r : Results) : (s.putResults r).familyCtl = s.familyCtl := rfl
@[simp] theorem State.putResults_fpctlAddr (r : Results) : (s.putResults r).fpctlAddr = s.fpctlAddr := rfl
@[simp] theorem State.putResults_deviceId (r : Results) : (s.putResults r).deviceId = s.deviceId := rfl
@[simp] theorem State.putResults_revisionId (r : Results) : (s.putResults r).revisionId = s.revisionId := rfl
@[simp] theorem State.putResults_piVersion (r : Results) : (s.putResults r).piVersion = s.piVersion := rfl
@[simp] theorem State.putResults_piDerivative (r : Results) : (s.putResults r).piDerivative = s.piDerivative := rfl
@[simp] theorem State.putResults_buf (r : Results) : (s.putResults r).buf = s.buf := rfl
@[simp] theorem State.putResults_scratch (r : Results) : (s.putResults r).scratch = s.scratch := rfl
@[simp] theorem State.putResults_seq (r : Results) : (s.putResults r).seq = s.seq := rfl
@[simp] theorem State.putResults_trace (r : Results) : (s.putResults r).trace = s.trace := rfl
@[simp] theorem State.putResults_din (r : Results) : (s.putResults r).din = s.din := rfl
@[simp] theorem State.putResults_samples (r : Results) : (s.putResults r).samples = s.samples := rfl
@[simp] theorem State.putResults_fresh (r : Results) : (s.putResults r).fresh = s.fresh + 3 := rfl
@[simp] theorem State.putResults_port (r : Results) : (s.putResults r).port = s.port := rfl
@[simp] theorem State.putResults_hostData (r : Results) : (s.putResults r).hostData = s.hostData := rfl

/-! ## `State.capture` -/

@[simp] theorem State.capture_ck (v : Option (Byte × Byte)) : (s.capture v).ck = s.ck := rfl
@[simp] theorem State.capture_dOe (v : Option (Byte × Byte)) : (s.capture v).dOe = s.dOe := rfl
@[simp] theorem State.capture_dOut (v : Option (Byte × Byte)) : (s.capture v).dOut = s.dOut := rfl
@[simp] theorem State.capture_dPullup (v : Option (Byte × Byte)) : (s.capture v).dPullup = s.dPullup := rfl
@[simp] theorem State.capture_shift (v : Option (Byte × Byte)) : (s.capture v).shift = s.shift := rfl
@[simp] theorem State.capture_bitcnt (v : Option (Byte × Byte)) : (s.capture v).bitcnt = s.bitcnt := rfl
@[simp] theorem State.capture_trycnt (v : Option (Byte × Byte)) : (s.capture v).trycnt = s.trycnt := rfl
@[simp] theorem State.capture_cmd (v : Option (Byte × Byte)) : (s.capture v).cmd = s.cmd := rfl
@[simp] theorem State.capture_status (v : Option (Byte × Byte)) :
    (s.capture v).status = if v.isSome then setInfoValid s.status else s.status := rfl
@[simp] theorem State.capture_addr (v : Option (Byte × Byte)) : (s.capture v).addr = s.addr := rfl
@[simp] theorem State.capture_len (v : Option (Byte × Byte)) : (s.capture v).len = s.len := rfl
@[simp] theorem State.capture_byte0 (v : Option (Byte × Byte)) : (s.capture v).byte0 = s.byte0 := rfl
@[simp] theorem State.capture_byte1 (v : Option (Byte × Byte)) : (s.capture v).byte1 = s.byte1 := rfl
@[simp] theorem State.capture_flags (v : Option (Byte × Byte)) : (s.capture v).flags = s.flags := rfl
@[simp] theorem State.capture_res0 (v : Option (Byte × Byte)) : (s.capture v).res0 = s.res0 := rfl
@[simp] theorem State.capture_res1 (v : Option (Byte × Byte)) : (s.capture v).res1 = s.res1 := rfl
@[simp] theorem State.capture_resLen (v : Option (Byte × Byte)) : (s.capture v).resLen = s.resLen := rfl
@[simp] theorem State.capture_pollOut (v : Option (Byte × Byte)) : (s.capture v).pollOut = s.pollOut := rfl
@[simp] theorem State.capture_fpdatAddr (v : Option (Byte × Byte)) : (s.capture v).fpdatAddr = s.fpdatAddr := rfl
@[simp] theorem State.capture_pageSize (v : Option (Byte × Byte)) : (s.capture v).pageSize = s.pageSize := rfl
@[simp] theorem State.capture_familyCtl (v : Option (Byte × Byte)) : (s.capture v).familyCtl = s.familyCtl := rfl
@[simp] theorem State.capture_fpctlAddr (v : Option (Byte × Byte)) : (s.capture v).fpctlAddr = s.fpctlAddr := rfl
@[simp] theorem State.capture_deviceId (v : Option (Byte × Byte)) :
    (s.capture v).deviceId = (v.map (·.1)).getD s.deviceId := rfl
@[simp] theorem State.capture_revisionId (v : Option (Byte × Byte)) :
    (s.capture v).revisionId = (v.map (·.2)).getD s.revisionId := rfl
@[simp] theorem State.capture_piVersion (v : Option (Byte × Byte)) : (s.capture v).piVersion = s.piVersion := rfl
@[simp] theorem State.capture_piDerivative (v : Option (Byte × Byte)) :
    (s.capture v).piDerivative = s.piDerivative := rfl
@[simp] theorem State.capture_buf (v : Option (Byte × Byte)) : (s.capture v).buf = s.buf := rfl
@[simp] theorem State.capture_scratch (v : Option (Byte × Byte)) : (s.capture v).scratch = s.scratch := rfl
@[simp] theorem State.capture_seq (v : Option (Byte × Byte)) : (s.capture v).seq = s.seq := rfl
@[simp] theorem State.capture_trace (v : Option (Byte × Byte)) : (s.capture v).trace = s.trace := rfl
@[simp] theorem State.capture_din (v : Option (Byte × Byte)) : (s.capture v).din = s.din := rfl
@[simp] theorem State.capture_samples (v : Option (Byte × Byte)) : (s.capture v).samples = s.samples := rfl
@[simp] theorem State.capture_fresh (v : Option (Byte × Byte)) : (s.capture v).fresh = s.fresh := rfl
@[simp] theorem State.capture_port (v : Option (Byte × Byte)) : (s.capture v).port = s.port := rfl
@[simp] theorem State.capture_hostData (v : Option (Byte × Byte)) : (s.capture v).hostData = s.hostData := rfl

/-! ## `State.capturePi` -/

@[simp] theorem State.capturePi_ck (v : Option (Byte × Byte)) : (s.capturePi v).ck = s.ck := rfl
@[simp] theorem State.capturePi_dOe (v : Option (Byte × Byte)) : (s.capturePi v).dOe = s.dOe := rfl
@[simp] theorem State.capturePi_dOut (v : Option (Byte × Byte)) : (s.capturePi v).dOut = s.dOut := rfl
@[simp] theorem State.capturePi_dPullup (v : Option (Byte × Byte)) : (s.capturePi v).dPullup = s.dPullup := rfl
@[simp] theorem State.capturePi_shift (v : Option (Byte × Byte)) : (s.capturePi v).shift = s.shift := rfl
@[simp] theorem State.capturePi_bitcnt (v : Option (Byte × Byte)) : (s.capturePi v).bitcnt = s.bitcnt := rfl
@[simp] theorem State.capturePi_trycnt (v : Option (Byte × Byte)) : (s.capturePi v).trycnt = s.trycnt := rfl
@[simp] theorem State.capturePi_cmd (v : Option (Byte × Byte)) : (s.capturePi v).cmd = s.cmd := rfl
@[simp] theorem State.capturePi_status (v : Option (Byte × Byte)) :
    (s.capturePi v).status = if v.isSome then setPiInfoValid s.status else s.status := rfl
@[simp] theorem State.capturePi_addr (v : Option (Byte × Byte)) : (s.capturePi v).addr = s.addr := rfl
@[simp] theorem State.capturePi_len (v : Option (Byte × Byte)) : (s.capturePi v).len = s.len := rfl
@[simp] theorem State.capturePi_byte0 (v : Option (Byte × Byte)) : (s.capturePi v).byte0 = s.byte0 := rfl
@[simp] theorem State.capturePi_byte1 (v : Option (Byte × Byte)) : (s.capturePi v).byte1 = s.byte1 := rfl
@[simp] theorem State.capturePi_flags (v : Option (Byte × Byte)) : (s.capturePi v).flags = s.flags := rfl
@[simp] theorem State.capturePi_res0 (v : Option (Byte × Byte)) : (s.capturePi v).res0 = s.res0 := rfl
@[simp] theorem State.capturePi_res1 (v : Option (Byte × Byte)) : (s.capturePi v).res1 = s.res1 := rfl
@[simp] theorem State.capturePi_resLen (v : Option (Byte × Byte)) : (s.capturePi v).resLen = s.resLen := rfl
@[simp] theorem State.capturePi_pollOut (v : Option (Byte × Byte)) : (s.capturePi v).pollOut = s.pollOut := rfl
@[simp] theorem State.capturePi_fpdatAddr (v : Option (Byte × Byte)) : (s.capturePi v).fpdatAddr = s.fpdatAddr := rfl
@[simp] theorem State.capturePi_pageSize (v : Option (Byte × Byte)) : (s.capturePi v).pageSize = s.pageSize := rfl
@[simp] theorem State.capturePi_familyCtl (v : Option (Byte × Byte)) : (s.capturePi v).familyCtl = s.familyCtl := rfl
@[simp] theorem State.capturePi_fpctlAddr (v : Option (Byte × Byte)) : (s.capturePi v).fpctlAddr = s.fpctlAddr := rfl
@[simp] theorem State.capturePi_deviceId (v : Option (Byte × Byte)) : (s.capturePi v).deviceId = s.deviceId := rfl
@[simp] theorem State.capturePi_revisionId (v : Option (Byte × Byte)) :
    (s.capturePi v).revisionId = s.revisionId := rfl
@[simp] theorem State.capturePi_piVersion (v : Option (Byte × Byte)) :
    (s.capturePi v).piVersion = (v.map (·.1)).getD s.piVersion := rfl
@[simp] theorem State.capturePi_piDerivative (v : Option (Byte × Byte)) :
    (s.capturePi v).piDerivative = (v.map (·.2)).getD s.piDerivative := rfl
@[simp] theorem State.capturePi_buf (v : Option (Byte × Byte)) : (s.capturePi v).buf = s.buf := rfl
@[simp] theorem State.capturePi_scratch (v : Option (Byte × Byte)) : (s.capturePi v).scratch = s.scratch := rfl
@[simp] theorem State.capturePi_seq (v : Option (Byte × Byte)) : (s.capturePi v).seq = s.seq := rfl
@[simp] theorem State.capturePi_trace (v : Option (Byte × Byte)) : (s.capturePi v).trace = s.trace := rfl
@[simp] theorem State.capturePi_din (v : Option (Byte × Byte)) : (s.capturePi v).din = s.din := rfl
@[simp] theorem State.capturePi_samples (v : Option (Byte × Byte)) : (s.capturePi v).samples = s.samples := rfl
@[simp] theorem State.capturePi_fresh (v : Option (Byte × Byte)) : (s.capturePi v).fresh = s.fresh := rfl
@[simp] theorem State.capturePi_port (v : Option (Byte × Byte)) : (s.capturePi v).port = s.port := rfl
@[simp] theorem State.capturePi_hostData (v : Option (Byte × Byte)) : (s.capturePi v).hostData = s.hostData := rfl

/-! ## `State.finish` -/

@[simp] theorem State.finish_ck (err : BitVec 3) : (s.finish err).ck = s.ck := rfl
@[simp] theorem State.finish_dOe (err : BitVec 3) : (s.finish err).dOe = s.dOe := rfl
@[simp] theorem State.finish_dOut (err : BitVec 3) : (s.finish err).dOut = s.dOut := rfl
@[simp] theorem State.finish_dPullup (err : BitVec 3) : (s.finish err).dPullup = s.dPullup := rfl
@[simp] theorem State.finish_shift (err : BitVec 3) : (s.finish err).shift = s.shift := rfl
@[simp] theorem State.finish_bitcnt (err : BitVec 3) : (s.finish err).bitcnt = s.bitcnt := rfl
@[simp] theorem State.finish_trycnt (err : BitVec 3) : (s.finish err).trycnt = s.trycnt := rfl
@[simp] theorem State.finish_cmd (err : BitVec 3) : (s.finish err).cmd = s.cmd := rfl
@[simp] theorem State.finish_status (err : BitVec 3) : (s.finish err).status = statusEnd s.status err := rfl
@[simp] theorem State.finish_addr (err : BitVec 3) : (s.finish err).addr = s.addr := rfl
@[simp] theorem State.finish_len (err : BitVec 3) : (s.finish err).len = s.len := rfl
@[simp] theorem State.finish_byte0 (err : BitVec 3) : (s.finish err).byte0 = s.byte0 := rfl
@[simp] theorem State.finish_byte1 (err : BitVec 3) : (s.finish err).byte1 = s.byte1 := rfl
@[simp] theorem State.finish_flags (err : BitVec 3) : (s.finish err).flags = s.flags := rfl
@[simp] theorem State.finish_res0 (err : BitVec 3) : (s.finish err).res0 = s.res0 := rfl
@[simp] theorem State.finish_res1 (err : BitVec 3) : (s.finish err).res1 = s.res1 := rfl
@[simp] theorem State.finish_resLen (err : BitVec 3) : (s.finish err).resLen = s.resLen := rfl
@[simp] theorem State.finish_pollOut (err : BitVec 3) : (s.finish err).pollOut = s.pollOut := rfl
@[simp] theorem State.finish_fpdatAddr (err : BitVec 3) : (s.finish err).fpdatAddr = s.fpdatAddr := rfl
@[simp] theorem State.finish_pageSize (err : BitVec 3) : (s.finish err).pageSize = s.pageSize := rfl
@[simp] theorem State.finish_familyCtl (err : BitVec 3) : (s.finish err).familyCtl = s.familyCtl := rfl
@[simp] theorem State.finish_fpctlAddr (err : BitVec 3) : (s.finish err).fpctlAddr = s.fpctlAddr := rfl
@[simp] theorem State.finish_deviceId (err : BitVec 3) : (s.finish err).deviceId = s.deviceId := rfl
@[simp] theorem State.finish_revisionId (err : BitVec 3) : (s.finish err).revisionId = s.revisionId := rfl
@[simp] theorem State.finish_piVersion (err : BitVec 3) : (s.finish err).piVersion = s.piVersion := rfl
@[simp] theorem State.finish_piDerivative (err : BitVec 3) : (s.finish err).piDerivative = s.piDerivative := rfl
@[simp] theorem State.finish_buf (err : BitVec 3) : (s.finish err).buf = s.buf := rfl
@[simp] theorem State.finish_scratch (err : BitVec 3) : (s.finish err).scratch = s.scratch := rfl
@[simp] theorem State.finish_seq (err : BitVec 3) : (s.finish err).seq = .idle := rfl
@[simp] theorem State.finish_trace (err : BitVec 3) : (s.finish err).trace = s.trace := rfl
@[simp] theorem State.finish_din (err : BitVec 3) : (s.finish err).din = s.din := rfl
@[simp] theorem State.finish_samples (err : BitVec 3) : (s.finish err).samples = s.samples := rfl
@[simp] theorem State.finish_fresh (err : BitVec 3) : (s.finish err).fresh = s.fresh := rfl
@[simp] theorem State.finish_port (err : BitVec 3) : (s.finish err).port = s.port := rfl
@[simp] theorem State.finish_hostData (err : BitVec 3) : (s.finish err).hostData = s.hostData := rfl

/-! ## `State.answerHost` -/

@[simp] theorem State.answerHost_ck (v : Word32) : (s.answerHost v).ck = s.ck := rfl
@[simp] theorem State.answerHost_dOe (v : Word32) : (s.answerHost v).dOe = s.dOe := rfl
@[simp] theorem State.answerHost_dOut (v : Word32) : (s.answerHost v).dOut = s.dOut := rfl
@[simp] theorem State.answerHost_dPullup (v : Word32) : (s.answerHost v).dPullup = s.dPullup := rfl
@[simp] theorem State.answerHost_shift (v : Word32) : (s.answerHost v).shift = s.shift := rfl
@[simp] theorem State.answerHost_bitcnt (v : Word32) : (s.answerHost v).bitcnt = s.bitcnt := rfl
@[simp] theorem State.answerHost_trycnt (v : Word32) : (s.answerHost v).trycnt = s.trycnt := rfl
@[simp] theorem State.answerHost_cmd (v : Word32) : (s.answerHost v).cmd = s.cmd := rfl
@[simp] theorem State.answerHost_status (v : Word32) : (s.answerHost v).status = s.status := rfl
@[simp] theorem State.answerHost_addr (v : Word32) : (s.answerHost v).addr = s.addr := rfl
@[simp] theorem State.answerHost_len (v : Word32) : (s.answerHost v).len = s.len := rfl
@[simp] theorem State.answerHost_byte0 (v : Word32) : (s.answerHost v).byte0 = s.byte0 := rfl
@[simp] theorem State.answerHost_byte1 (v : Word32) : (s.answerHost v).byte1 = s.byte1 := rfl
@[simp] theorem State.answerHost_flags (v : Word32) : (s.answerHost v).flags = s.flags := rfl
@[simp] theorem State.answerHost_res0 (v : Word32) : (s.answerHost v).res0 = s.res0 := rfl
@[simp] theorem State.answerHost_res1 (v : Word32) : (s.answerHost v).res1 = s.res1 := rfl
@[simp] theorem State.answerHost_resLen (v : Word32) : (s.answerHost v).resLen = s.resLen := rfl
@[simp] theorem State.answerHost_pollOut (v : Word32) : (s.answerHost v).pollOut = s.pollOut := rfl
@[simp] theorem State.answerHost_fpdatAddr (v : Word32) : (s.answerHost v).fpdatAddr = s.fpdatAddr := rfl
@[simp] theorem State.answerHost_pageSize (v : Word32) : (s.answerHost v).pageSize = s.pageSize := rfl
@[simp] theorem State.answerHost_familyCtl (v : Word32) : (s.answerHost v).familyCtl = s.familyCtl := rfl
@[simp] theorem State.answerHost_fpctlAddr (v : Word32) : (s.answerHost v).fpctlAddr = s.fpctlAddr := rfl
@[simp] theorem State.answerHost_deviceId (v : Word32) : (s.answerHost v).deviceId = s.deviceId := rfl
@[simp] theorem State.answerHost_revisionId (v : Word32) : (s.answerHost v).revisionId = s.revisionId := rfl
@[simp] theorem State.answerHost_piVersion (v : Word32) : (s.answerHost v).piVersion = s.piVersion := rfl
@[simp] theorem State.answerHost_piDerivative (v : Word32) : (s.answerHost v).piDerivative = s.piDerivative := rfl
@[simp] theorem State.answerHost_buf (v : Word32) : (s.answerHost v).buf = s.buf := rfl
@[simp] theorem State.answerHost_scratch (v : Word32) : (s.answerHost v).scratch = s.scratch := rfl
@[simp] theorem State.answerHost_seq (v : Word32) : (s.answerHost v).seq = s.seq := rfl
@[simp] theorem State.answerHost_trace (v : Word32) : (s.answerHost v).trace = s.trace := rfl
@[simp] theorem State.answerHost_din (v : Word32) : (s.answerHost v).din = s.din := rfl
@[simp] theorem State.answerHost_samples (v : Word32) : (s.answerHost v).samples = s.samples := rfl
@[simp] theorem State.answerHost_fresh (v : Word32) : (s.answerHost v).fresh = s.fresh := rfl
@[simp] theorem State.answerHost_port (v : Word32) : (s.answerHost v).port = s.port := rfl
@[simp] theorem State.answerHost_hostData (v : Word32) : (s.answerHost v).hostData = v := rfl

/-! ## `State.answerFree` -/

@[simp] theorem State.answerFree_ck : s.answerFree.ck = s.ck := rfl
@[simp] theorem State.answerFree_dOe : s.answerFree.dOe = s.dOe := rfl
@[simp] theorem State.answerFree_dOut : s.answerFree.dOut = s.dOut := rfl
@[simp] theorem State.answerFree_dPullup : s.answerFree.dPullup = s.dPullup := rfl
@[simp] theorem State.answerFree_shift : s.answerFree.shift = s.shift := rfl
@[simp] theorem State.answerFree_bitcnt : s.answerFree.bitcnt = s.bitcnt := rfl
@[simp] theorem State.answerFree_trycnt : s.answerFree.trycnt = s.trycnt := rfl
@[simp] theorem State.answerFree_cmd : s.answerFree.cmd = s.cmd := rfl
@[simp] theorem State.answerFree_status : s.answerFree.status = s.status := rfl
@[simp] theorem State.answerFree_addr : s.answerFree.addr = s.addr := rfl
@[simp] theorem State.answerFree_len : s.answerFree.len = s.len := rfl
@[simp] theorem State.answerFree_byte0 : s.answerFree.byte0 = s.byte0 := rfl
@[simp] theorem State.answerFree_byte1 : s.answerFree.byte1 = s.byte1 := rfl
@[simp] theorem State.answerFree_flags : s.answerFree.flags = s.flags := rfl
@[simp] theorem State.answerFree_res0 : s.answerFree.res0 = s.res0 := rfl
@[simp] theorem State.answerFree_res1 : s.answerFree.res1 = s.res1 := rfl
@[simp] theorem State.answerFree_resLen : s.answerFree.resLen = s.resLen := rfl
@[simp] theorem State.answerFree_pollOut : s.answerFree.pollOut = s.pollOut := rfl
@[simp] theorem State.answerFree_fpdatAddr : s.answerFree.fpdatAddr = s.fpdatAddr := rfl
@[simp] theorem State.answerFree_pageSize : s.answerFree.pageSize = s.pageSize := rfl
@[simp] theorem State.answerFree_familyCtl : s.answerFree.familyCtl = s.familyCtl := rfl
@[simp] theorem State.answerFree_fpctlAddr : s.answerFree.fpctlAddr = s.fpctlAddr := rfl
@[simp] theorem State.answerFree_deviceId : s.answerFree.deviceId = s.deviceId := rfl
@[simp] theorem State.answerFree_revisionId : s.answerFree.revisionId = s.revisionId := rfl
@[simp] theorem State.answerFree_piVersion : s.answerFree.piVersion = s.piVersion := rfl
@[simp] theorem State.answerFree_piDerivative : s.answerFree.piDerivative = s.piDerivative := rfl
@[simp] theorem State.answerFree_buf : s.answerFree.buf = s.buf := rfl
@[simp] theorem State.answerFree_scratch : s.answerFree.scratch = s.scratch := rfl
@[simp] theorem State.answerFree_seq : s.answerFree.seq = s.seq := rfl
@[simp] theorem State.answerFree_trace : s.answerFree.trace = s.trace := rfl
@[simp] theorem State.answerFree_din : s.answerFree.din = s.din := rfl
@[simp] theorem State.answerFree_samples : s.answerFree.samples = s.samples := rfl
@[simp] theorem State.answerFree_fresh : s.answerFree.fresh = s.fresh + 1 := rfl
@[simp] theorem State.answerFree_port : s.answerFree.port = s.port := rfl
@[simp] theorem State.answerFree_hostData : s.answerFree.hostData = Config.freeWord s.fresh := rfl

/-! ## `State.idled` -/

@[simp] theorem State.idled_ck : s.idled.ck = s.ck := rfl
@[simp] theorem State.idled_dOe : s.idled.dOe = s.dOe := rfl
@[simp] theorem State.idled_dOut : s.idled.dOut = s.dOut := rfl
@[simp] theorem State.idled_dPullup : s.idled.dPullup = s.dPullup := rfl
@[simp] theorem State.idled_shift : s.idled.shift = s.shift := rfl
@[simp] theorem State.idled_bitcnt : s.idled.bitcnt = s.bitcnt := rfl
@[simp] theorem State.idled_trycnt : s.idled.trycnt = s.trycnt := rfl
@[simp] theorem State.idled_cmd : s.idled.cmd = s.cmd := rfl
@[simp] theorem State.idled_status : s.idled.status = s.status &&& 0xFE#8 := rfl
@[simp] theorem State.idled_addr : s.idled.addr = s.addr := rfl
@[simp] theorem State.idled_len : s.idled.len = s.len := rfl
@[simp] theorem State.idled_byte0 : s.idled.byte0 = s.byte0 := rfl
@[simp] theorem State.idled_byte1 : s.idled.byte1 = s.byte1 := rfl
@[simp] theorem State.idled_flags : s.idled.flags = s.flags := rfl
@[simp] theorem State.idled_res0 : s.idled.res0 = s.res0 := rfl
@[simp] theorem State.idled_res1 : s.idled.res1 = s.res1 := rfl
@[simp] theorem State.idled_resLen : s.idled.resLen = s.resLen := rfl
@[simp] theorem State.idled_pollOut : s.idled.pollOut = s.pollOut := rfl
@[simp] theorem State.idled_fpdatAddr : s.idled.fpdatAddr = s.fpdatAddr := rfl
@[simp] theorem State.idled_pageSize : s.idled.pageSize = s.pageSize := rfl
@[simp] theorem State.idled_familyCtl : s.idled.familyCtl = s.familyCtl := rfl
@[simp] theorem State.idled_fpctlAddr : s.idled.fpctlAddr = s.fpctlAddr := rfl
@[simp] theorem State.idled_deviceId : s.idled.deviceId = s.deviceId := rfl
@[simp] theorem State.idled_revisionId : s.idled.revisionId = s.revisionId := rfl
@[simp] theorem State.idled_piVersion : s.idled.piVersion = s.piVersion := rfl
@[simp] theorem State.idled_piDerivative : s.idled.piDerivative = s.piDerivative := rfl
@[simp] theorem State.idled_buf : s.idled.buf = s.buf := rfl
@[simp] theorem State.idled_scratch : s.idled.scratch = s.scratch := rfl
@[simp] theorem State.idled_seq : s.idled.seq = .idle := rfl
@[simp] theorem State.idled_trace : s.idled.trace = s.trace := rfl
@[simp] theorem State.idled_din : s.idled.din = s.din := rfl
@[simp] theorem State.idled_samples : s.idled.samples = s.samples := rfl
@[simp] theorem State.idled_fresh : s.idled.fresh = s.fresh := rfl
@[simp] theorem State.idled_port : s.idled.port = s.port := rfl
@[simp] theorem State.idled_hostData : s.idled.hostData = s.hostData := rfl

/-! ## `State.succeed` -/

@[simp] theorem State.succeed_ck (r : Results) : (s.succeed r).ck = s.ck := rfl
@[simp] theorem State.succeed_dOe (r : Results) : (s.succeed r).dOe = s.dOe := rfl
@[simp] theorem State.succeed_dOut (r : Results) : (s.succeed r).dOut = s.dOut := rfl
@[simp] theorem State.succeed_dPullup (r : Results) : (s.succeed r).dPullup = s.dPullup := rfl
@[simp] theorem State.succeed_shift (r : Results) : (s.succeed r).shift = s.shift := rfl
@[simp] theorem State.succeed_bitcnt (r : Results) : (s.succeed r).bitcnt = s.bitcnt := rfl
@[simp] theorem State.succeed_trycnt (r : Results) : (s.succeed r).trycnt = s.trycnt := rfl
@[simp] theorem State.succeed_cmd (r : Results) : (s.succeed r).cmd = s.cmd := rfl
@[simp] theorem State.succeed_status (r : Results) :
    (s.succeed r).status = statusEnd (((s.putResults r).capture r.device).capturePi r.pi).status 0#3 := rfl
@[simp] theorem State.succeed_addr (r : Results) : (s.succeed r).addr = s.addr := rfl
@[simp] theorem State.succeed_len (r : Results) : (s.succeed r).len = s.len := rfl
@[simp] theorem State.succeed_byte0 (r : Results) : (s.succeed r).byte0 = s.byte0 := rfl
@[simp] theorem State.succeed_byte1 (r : Results) : (s.succeed r).byte1 = s.byte1 := rfl
@[simp] theorem State.succeed_flags (r : Results) : (s.succeed r).flags = s.flags := rfl
@[simp] theorem State.succeed_res0 (r : Results) : (s.succeed r).res0 = r.res0.getD (Config.freeByte s.fresh) := rfl
@[simp] theorem State.succeed_res1 (r : Results) :
    (s.succeed r).res1 = r.res1.getD (Config.freeByte (s.fresh + 1)) := rfl
@[simp] theorem State.succeed_resLen (r : Results) :
    (s.succeed r).resLen = r.resLen.getD (Config.freeWord (s.fresh + 2)) := rfl
@[simp] theorem State.succeed_pollOut (r : Results) : (s.succeed r).pollOut = s.pollOut := rfl
@[simp] theorem State.succeed_fpdatAddr (r : Results) : (s.succeed r).fpdatAddr = s.fpdatAddr := rfl
@[simp] theorem State.succeed_pageSize (r : Results) : (s.succeed r).pageSize = s.pageSize := rfl
@[simp] theorem State.succeed_familyCtl (r : Results) : (s.succeed r).familyCtl = s.familyCtl := rfl
@[simp] theorem State.succeed_fpctlAddr (r : Results) : (s.succeed r).fpctlAddr = s.fpctlAddr := rfl
@[simp] theorem State.succeed_deviceId (r : Results) :
    (s.succeed r).deviceId = (r.device.map (·.1)).getD s.deviceId := rfl
@[simp] theorem State.succeed_revisionId (r : Results) :
    (s.succeed r).revisionId = (r.device.map (·.2)).getD s.revisionId := rfl
@[simp] theorem State.succeed_piVersion (r : Results) :
    (s.succeed r).piVersion = (r.pi.map (·.1)).getD s.piVersion := rfl
@[simp] theorem State.succeed_piDerivative (r : Results) :
    (s.succeed r).piDerivative = (r.pi.map (·.2)).getD s.piDerivative := rfl
@[simp] theorem State.succeed_buf (r : Results) : (s.succeed r).buf = s.buf := rfl
@[simp] theorem State.succeed_scratch (r : Results) : (s.succeed r).scratch = s.scratch := rfl
@[simp] theorem State.succeed_seq (r : Results) : (s.succeed r).seq = .idle := rfl
@[simp] theorem State.succeed_trace (r : Results) : (s.succeed r).trace = s.trace := rfl
@[simp] theorem State.succeed_din (r : Results) : (s.succeed r).din = s.din := rfl
@[simp] theorem State.succeed_samples (r : Results) : (s.succeed r).samples = s.samples := rfl
@[simp] theorem State.succeed_fresh (r : Results) : (s.succeed r).fresh = s.fresh + 3 := rfl
@[simp] theorem State.succeed_port (r : Results) : (s.succeed r).port = s.port := rfl
@[simp] theorem State.succeed_hostData (r : Results) : (s.succeed r).hostData = s.hostData := rfl

/-! ## `State.fail` -/

@[simp] theorem State.fail_ck (k : FailKind) (d : Bool) : (s.fail k d).ck = s.ck := rfl
@[simp] theorem State.fail_dOe (k : FailKind) (d : Bool) : (s.fail k d).dOe = s.dOe := rfl
@[simp] theorem State.fail_dOut (k : FailKind) (d : Bool) : (s.fail k d).dOut = s.dOut := rfl
@[simp] theorem State.fail_dPullup (k : FailKind) (d : Bool) : (s.fail k d).dPullup = s.dPullup := rfl
@[simp] theorem State.fail_shift (k : FailKind) (d : Bool) : (s.fail k d).shift = s.shift := rfl
@[simp] theorem State.fail_bitcnt (k : FailKind) (d : Bool) : (s.fail k d).bitcnt = s.bitcnt := rfl
@[simp] theorem State.fail_trycnt (k : FailKind) (d : Bool) : (s.fail k d).trycnt = s.trycnt := rfl
@[simp] theorem State.fail_cmd (k : FailKind) (d : Bool) : (s.fail k d).cmd = s.cmd := rfl
@[simp] theorem State.fail_status (k : FailKind) (d : Bool) : (s.fail k d).status = statusEnd s.status k.code := rfl
@[simp] theorem State.fail_addr (k : FailKind) (d : Bool) : (s.fail k d).addr = s.addr := rfl
@[simp] theorem State.fail_len (k : FailKind) (d : Bool) : (s.fail k d).len = s.len := rfl
@[simp] theorem State.fail_byte0 (k : FailKind) (d : Bool) : (s.fail k d).byte0 = s.byte0 := rfl
@[simp] theorem State.fail_byte1 (k : FailKind) (d : Bool) : (s.fail k d).byte1 = s.byte1 := rfl
@[simp] theorem State.fail_flags (k : FailKind) (d : Bool) : (s.fail k d).flags = s.flags := rfl
@[simp] theorem State.fail_res0 (k : FailKind) (d : Bool) : (s.fail k d).res0 = Config.freeByte s.fresh := rfl
@[simp] theorem State.fail_res1 (k : FailKind) (d : Bool) : (s.fail k d).res1 = Config.freeByte (s.fresh + 1) := rfl
@[simp] theorem State.fail_resLen (k : FailKind) (d : Bool) :
    (s.fail k d).resLen = Config.freeWord (s.fresh + 2) := rfl
@[simp] theorem State.fail_pollOut (k : FailKind) (d : Bool) : (s.fail k d).pollOut = s.pollOut := rfl
@[simp] theorem State.fail_fpdatAddr (k : FailKind) (d : Bool) : (s.fail k d).fpdatAddr = s.fpdatAddr := rfl
@[simp] theorem State.fail_pageSize (k : FailKind) (d : Bool) : (s.fail k d).pageSize = s.pageSize := rfl
@[simp] theorem State.fail_familyCtl (k : FailKind) (d : Bool) : (s.fail k d).familyCtl = s.familyCtl := rfl
@[simp] theorem State.fail_fpctlAddr (k : FailKind) (d : Bool) : (s.fail k d).fpctlAddr = s.fpctlAddr := rfl
@[simp] theorem State.fail_deviceId (k : FailKind) (d : Bool) : (s.fail k d).deviceId = s.deviceId := rfl
@[simp] theorem State.fail_revisionId (k : FailKind) (d : Bool) : (s.fail k d).revisionId = s.revisionId := rfl
@[simp] theorem State.fail_piVersion (k : FailKind) (d : Bool) : (s.fail k d).piVersion = s.piVersion := rfl
@[simp] theorem State.fail_piDerivative (k : FailKind) (d : Bool) : (s.fail k d).piDerivative = s.piDerivative := rfl
@[simp] theorem State.fail_buf (k : FailKind) (d : Bool) : (s.fail k d).buf = if d then [] else s.buf := rfl
@[simp] theorem State.fail_scratch (k : FailKind) (d : Bool) : (s.fail k d).scratch = [] := rfl
@[simp] theorem State.fail_seq (k : FailKind) (d : Bool) : (s.fail k d).seq = .idle := rfl
@[simp] theorem State.fail_trace (k : FailKind) (d : Bool) : (s.fail k d).trace = s.trace := rfl
@[simp] theorem State.fail_din (k : FailKind) (d : Bool) : (s.fail k d).din = s.din := rfl
@[simp] theorem State.fail_samples (k : FailKind) (d : Bool) : (s.fail k d).samples = s.samples := rfl
@[simp] theorem State.fail_fresh (k : FailKind) (d : Bool) : (s.fail k d).fresh = s.fresh + 3 := rfl
@[simp] theorem State.fail_port (k : FailKind) (d : Bool) : (s.fail k d).port = s.port := rfl
@[simp] theorem State.fail_hostData (k : FailKind) (d : Bool) : (s.fail k d).hostData = s.hostData := rfl

/-! ## `State.resetCore`: the core's state is that of reset, its inputs go on -/

@[simp] theorem State.resetCore_din : s.resetCore.din = s.din := rfl
@[simp] theorem State.resetCore_samples : s.resetCore.samples = s.samples := rfl
@[simp] theorem State.resetCore_fresh : s.resetCore.fresh = s.fresh := rfl
@[simp] theorem State.resetCore_port : s.resetCore.port = s.port := rfl

@[simp] theorem State.resetCore_ck : s.resetCore.ck = State.reset.ck := rfl
@[simp] theorem State.resetCore_dOe : s.resetCore.dOe = State.reset.dOe := rfl
@[simp] theorem State.resetCore_dOut : s.resetCore.dOut = State.reset.dOut := rfl
@[simp] theorem State.resetCore_dPullup : s.resetCore.dPullup = State.reset.dPullup := rfl
@[simp] theorem State.resetCore_shift : s.resetCore.shift = State.reset.shift := rfl
@[simp] theorem State.resetCore_bitcnt : s.resetCore.bitcnt = State.reset.bitcnt := rfl
@[simp] theorem State.resetCore_trycnt : s.resetCore.trycnt = State.reset.trycnt := rfl
@[simp] theorem State.resetCore_cmd : s.resetCore.cmd = State.reset.cmd := rfl
@[simp] theorem State.resetCore_status : s.resetCore.status = State.reset.status := rfl
@[simp] theorem State.resetCore_addr : s.resetCore.addr = State.reset.addr := rfl
@[simp] theorem State.resetCore_len : s.resetCore.len = State.reset.len := rfl
@[simp] theorem State.resetCore_byte0 : s.resetCore.byte0 = State.reset.byte0 := rfl
@[simp] theorem State.resetCore_byte1 : s.resetCore.byte1 = State.reset.byte1 := rfl
@[simp] theorem State.resetCore_flags : s.resetCore.flags = State.reset.flags := rfl
@[simp] theorem State.resetCore_res0 : s.resetCore.res0 = State.reset.res0 := rfl
@[simp] theorem State.resetCore_res1 : s.resetCore.res1 = State.reset.res1 := rfl
@[simp] theorem State.resetCore_resLen : s.resetCore.resLen = State.reset.resLen := rfl
@[simp] theorem State.resetCore_pollOut : s.resetCore.pollOut = State.reset.pollOut := rfl
@[simp] theorem State.resetCore_fpdatAddr : s.resetCore.fpdatAddr = State.reset.fpdatAddr := rfl
@[simp] theorem State.resetCore_pageSize : s.resetCore.pageSize = State.reset.pageSize := rfl
@[simp] theorem State.resetCore_familyCtl : s.resetCore.familyCtl = State.reset.familyCtl := rfl
@[simp] theorem State.resetCore_fpctlAddr : s.resetCore.fpctlAddr = State.reset.fpctlAddr := rfl
@[simp] theorem State.resetCore_deviceId : s.resetCore.deviceId = State.reset.deviceId := rfl
@[simp] theorem State.resetCore_revisionId : s.resetCore.revisionId = State.reset.revisionId := rfl
@[simp] theorem State.resetCore_piVersion : s.resetCore.piVersion = State.reset.piVersion := rfl
@[simp] theorem State.resetCore_piDerivative : s.resetCore.piDerivative = State.reset.piDerivative := rfl
@[simp] theorem State.resetCore_buf : s.resetCore.buf = State.reset.buf := rfl
@[simp] theorem State.resetCore_scratch : s.resetCore.scratch = State.reset.scratch := rfl
@[simp] theorem State.resetCore_seq : s.resetCore.seq = State.reset.seq := rfl
@[simp] theorem State.resetCore_trace : s.resetCore.trace = State.reset.trace := rfl
@[simp] theorem State.resetCore_hostData : s.resetCore.hostData = State.reset.hostData := rfl

/-! ## The line -/

@[simp] theorem State.line_afterSamples (n k : Nat) : (s.afterSamples n).line k = s.line (n + k) := by
  simp [State.line, lineAt, List.getElem?_drop, Nat.add_assoc]

@[simp] theorem State.line_emit (es : List Event) (k : Nat) : (s.emit es).line k = s.line k := rfl

end Sys2Proof.Machine
end

