-- ==== Sys2Proof/Laws/Prog.lean ====
section
/-! SUPPORT. How procedures run: composition, resumption, and what no primitive touches. -/

namespace Sys2Proof.Machine

variable {α β : Type}

/-! ## Composition -/

@[simp] theorem run_ret (a : α) (s : State) : (Prog.ret a).run s = (.ok a, s) := rfl
@[simp] theorem run_raise (k : FailKind) (s : State) : (Prog.raise k : Prog α).run s = (.failed k, s) := rfl
@[simp] theorem run_prim (p : Prim) (next : Byte → Prog α) (s : State) :
    (Prog.prim p next).run s = (next (doPrim p s).2).run (doPrim p s).1 := rfl

/-- How a composition runs. -/
theorem run_bind (p : Prog α) (f : α → Prog β) (s : State) :
    (p.bind f).run s = match p.run s with
      | (.ok a, t) => (f a).run t
      | (.failed k, t) => (.failed k, t) := by
  induction p generalizing s with
  | ret a => rfl
  | raise k => rfl
  | prim q next ih => simp [Prog.bind, ih]

theorem run_bind_ok {p : Prog α} {s t : State} {a : α} (f : α → Prog β) (h : p.run s = (.ok a, t)) :
    (p.bind f).run s = (f a).run t := by
  rw [run_bind, h]

theorem run_bind_failed {p : Prog α} {s t : State} {k : FailKind} (f : α → Prog β) (h : p.run s = (.failed k, t)) :
    (p.bind f).run s = (.failed k, t) := by
  rw [run_bind, h]

theorem run_andThen_ok {p : Prog α} {s t : State} {a : α} (q : Prog β) (h : p.run s = (.ok a, t)) :
    (p.andThen q).run s = q.run t :=
  run_bind_ok _ h

theorem run_andThen_failed {p : Prog α} {s t : State} {k : FailKind} (q : Prog β) (h : p.run s = (.failed k, t)) :
    (p.andThen q).run s = (.failed k, t) :=
  run_bind_failed _ h

@[simp] theorem run_act (p : Prim) (s : State) : (act p).run s = (.ok (), (doPrim p s).1) := rfl

/-- A composition that returns: both parts return. -/
theorem run_bind_inv_ok {p : Prog α} {f : α → Prog β} {s t : State} {b : β} (h : (p.bind f).run s = (.ok b, t)) :
    ∃ a u, p.run s = (.ok a, u) ∧ (f a).run u = (.ok b, t) := by
  rw [run_bind] at h
  split at h
  next a u hp => exact ⟨a, u, hp, h⟩
  next => cases h

/-! ## Binding is associative -/

theorem bind_assoc {γ : Type} (p : Prog α) (f : α → Prog β) (g : β → Prog γ) :
    (p.bind f).bind g = p.bind fun a => (f a).bind g := by
  induction p with
  | ret a => rfl
  | raise k => rfl
  | prim q next ih => simp [Prog.bind, ih]

theorem bind_ret (p : Prog α) : (p.bind fun a => .ret a) = p := by
  induction p with
  | ret a => rfl
  | raise k => rfl
  | prim q next ih => simp [Prog.bind, ih]

/-! ## Resumption (10_state.md R36) -/

@[simp] theorem resume_nil (p : Prog α) : p.resume [] = p := by cases p <;> rfl

/-- One more answer: the residual moves on by one primitive. -/
theorem resume_append {p : Prog α} {bs : List Byte} {q : Prim} {next : Byte → Prog α} (b : Byte)
    (h : p.resume bs = .prim q next) : p.resume (bs ++ [b]) = next b := by
  induction bs generalizing p with
  | nil =>
    rw [resume_nil] at h
    subst h
    simp [Prog.resume]
  | cons c cs ih =>
    cases p with
    | ret a => simp [Prog.resume] at h
    | raise k => simp [Prog.resume] at h
    | prim r nx => exact ih h

/-! ## What no primitive touches -/

theorem SamePort.refl (s : State) : SamePort s s := by
  simp [SamePort, SameInputs, SameOperands, SameConfig, SameOutside, SameResults, SameDevice, SamePi]

theorem SamePort.trans {s t u : State} (h : SamePort s t) (g : SamePort t u) : SamePort s u := by
  simp_all [SamePort, SameInputs, SameOperands, SameConfig, SameOutside, SameResults, SameDevice, SamePi]

/-- Reading a local memory changes the counter of free values at most. -/
theorem readCell_fst (s : State) (m : Memory) (i : Nat) :
    (s.readCell m i).1 = { s with fresh := (s.readCell m i).1.fresh } := by
  unfold State.readCell; split <;> rfl

/-- A primitive leaves the host port alone. -/
theorem doPrim_samePort (p : Prim) (s : State) : SamePort s (doPrim p s).1 := by
  cases p with
  | setData l => cases l <;> exact SamePort.refl s
  | delay n => simp only [doPrim]; split <;> exact SamePort.refl s
  | loadBuf i => simp only [doPrim]; rw [readCell_fst]; exact SamePort.refl s
  | loadScratch i => simp only [doPrim]; rw [readCell_fst]; exact SamePort.refl s
  | _ => exact SamePort.refl s

/-- A procedure leaves the host port alone. -/
theorem run_samePort (p : Prog α) (s : State) : SamePort s (p.run s).2 := by
  induction p generalizing s with
  | ret a => exact SamePort.refl s
  | raise k => exact SamePort.refl s
  | prim q next ih => exact (doPrim_samePort q s).trans (ih _ _)

theorem run_samePort_of {p : Prog α} {s t : State} {e : Ending α} (h : p.run s = (e, t)) : SamePort s t := by
  have := run_samePort p s
  rwa [h] at this

/-! ## Loops -/

@[simp] theorem forUp_zero (body : Nat → Prog Unit) (i : Nat) : forUp body 0 i = .ret () := rfl
@[simp] theorem forUp_succ (body : Nat → Prog Unit) (n i : Nat) :
    forUp body (n + 1) i = (body i).andThen (forUp body n (i + 1)) := rfl

end Sys2Proof.Machine
end

