-- ==== Sys2Proof/Laws/Transport.lean ====
section
/-! SUPPORT. What the procedures of the bit transport do, each said once: the state they leave and the events they put on the
wire. -/

namespace Sys2Proof.Machine

theorem tSettle_ne_zero : Config.tSettle ≠ 0 := Nat.succ_ne_zero _

/-! ## Bits of a byte -/

@[simp] theorem getLsbD_bitByte (b : Bit) : (bitByte b).getLsbD 0 = b := by cases b <;> rfl

theorem serialise_assemble (b0 b1 b2 b3 b4 b5 b6 b7 : Bit) :
    serialise (assemble b0 b1 b2 b3 b4 b5 b6 b7) = [b0, b1, b2, b3, b4, b5, b6, b7] := by
  revert b0 b1 b2 b3 b4 b5 b6 b7; decide

theorem assemble_bits (v : Byte) :
    assemble (v.getLsbD 0) (v.getLsbD 1) (v.getLsbD 2) (v.getLsbD 3) (v.getLsbD 4) (v.getLsbD 5) (v.getLsbD 6)
      (v.getLsbD 7) = v := by
  revert v; decide

/-- Eight samples shifted into SHIFT, whatever it held, make the byte they assemble (30_encoding.md R101). -/
theorem shiftInto_eight (v : Byte) (b0 b1 b2 b3 b4 b5 b6 b7 : Bit) :
    shiftInto (shiftInto (shiftInto (shiftInto (shiftInto (shiftInto (shiftInto (shiftInto v b0) b1) b2) b3) b4) b5) b6)
      b7 = assemble b0 b1 b2 b3 b4 b5 b6 b7 := by
  have h : ∀ x : Byte, ∀ b : Bit, shiftInto x b = x >>> 1 ||| bitByte b <<< 7 := fun _ _ => rfl
  apply BitVec.eq_of_getLsbD_eq
  intro i hi
  have hb : ∀ b : Bit, ∀ j, (bitByte b).getLsbD j = (decide (j = 0) && b) := by
    intro b j; cases b <;> cases j <;> simp [bitByte]
  simp only [h, assemble, BitVec.getLsbD_or, BitVec.getLsbD_ushiftRight, BitVec.getLsbD_shiftLeft, hb]
  match i, hi with
  | 0, _ | 1, _ | 2, _ | 3, _ | 4, _ | 5, _ | 6, _ | 7, _ => simp

/-! ## Movements of the lines and of the framer -/

/-- `s` with the pins and the framer as given, the events `es` on the wire and `n` samples taken: all that the procedures of
the transport and the frames can change. -/
def State.moved (s : State) (ck oe out : Bit) (sh : Byte) (bits tries : Nat) (es : List Event) (n : Nat) : State :=
  { s with
    ck := ck, dOe := oe, dOut := out, shift := sh, bitcnt := bits, trycnt := tries
    trace := s.trace ++ es, din := s.din.drop n, samples := s.samples + n }

section
variable (s : State) (ck oe out : Bit) (sh : Byte) (bits tries n : Nat) (es : List Event)

theorem State.moved_zero : s.moved s.ck s.dOe s.dOut s.shift s.bitcnt s.trycnt [] 0 = s := by simp [State.moved]

@[simp] theorem State.moved_moved (ck' oe' out' : Bit) (sh' : Byte) (bits' tries' m : Nat) (fs : List Event) :
    (s.moved ck oe out sh bits tries es n).moved ck' oe' out' sh' bits' tries' fs m =
      s.moved ck' oe' out' sh' bits' tries' (es ++ fs) (n + m) := by
  simp [State.moved, Nat.add_assoc]

@[simp] theorem State.moved_ck : (s.moved ck oe out sh bits tries es n).ck = ck := rfl
@[simp] theorem State.moved_dOe : (s.moved ck oe out sh bits tries es n).dOe = oe := rfl
@[simp] theorem State.moved_dOut : (s.moved ck oe out sh bits tries es n).dOut = out := rfl
@[simp] theorem State.moved_shift : (s.moved ck oe out sh bits tries es n).shift = sh := rfl
@[simp] theorem State.moved_bitcnt : (s.moved ck oe out sh bits tries es n).bitcnt = bits := rfl
@[simp] theorem State.moved_trycnt : (s.moved ck oe out sh bits tries es n).trycnt = tries := rfl
@[simp] theorem State.moved_trace : (s.moved ck oe out sh bits tries es n).trace = s.trace ++ es := rfl
@[simp] theorem State.moved_din : (s.moved ck oe out sh bits tries es n).din = s.din.drop n := rfl
@[simp] theorem State.moved_samples : (s.moved ck oe out sh bits tries es n).samples = s.samples + n := rfl
@[simp] theorem State.moved_dPullup : (s.moved ck oe out sh bits tries es n).dPullup = s.dPullup := rfl
@[simp] theorem State.moved_cmd : (s.moved ck oe out sh bits tries es n).cmd = s.cmd := rfl
@[simp] theorem State.moved_status : (s.moved ck oe out sh bits tries es n).status = s.status := rfl
@[simp] theorem State.moved_addr : (s.moved ck oe out sh bits tries es n).addr = s.addr := rfl
@[simp] theorem State.moved_len : (s.moved ck oe out sh bits tries es n).len = s.len := rfl
@[simp] theorem State.moved_byte0 : (s.moved ck oe out sh bits tries es n).byte0 = s.byte0 := rfl
@[simp] theorem State.moved_byte1 : (s.moved ck oe out sh bits tries es n).byte1 = s.byte1 := rfl
@[simp] theorem State.moved_flags : (s.moved ck oe out sh bits tries es n).flags = s.flags := rfl
@[simp] theorem State.moved_res0 : (s.moved ck oe out sh bits tries es n).res0 = s.res0 := rfl
@[simp] theorem State.moved_res1 : (s.moved ck oe out sh bits tries es n).res1 = s.res1 := rfl
@[simp] theorem State.moved_resLen : (s.moved ck oe out sh bits tries es n).resLen = s.resLen := rfl
@[simp] theorem State.moved_pollOut : (s.moved ck oe out sh bits tries es n).pollOut = s.pollOut := rfl
@[simp] theorem State.moved_fpdatAddr : (s.moved ck oe out sh bits tries es n).fpdatAddr = s.fpdatAddr := rfl
@[simp] theorem State.moved_pageSize : (s.moved ck oe out sh bits tries es n).pageSize = s.pageSize := rfl
@[simp] theorem State.moved_familyCtl : (s.moved ck oe out sh bits tries es n).familyCtl = s.familyCtl := rfl
@[simp] theorem State.moved_fpctlAddr : (s.moved ck oe out sh bits tries es n).fpctlAddr = s.fpctlAddr := rfl
@[simp] theorem State.moved_deviceId : (s.moved ck oe out sh bits tries es n).deviceId = s.deviceId := rfl
@[simp] theorem State.moved_revisionId : (s.moved ck oe out sh bits tries es n).revisionId = s.revisionId := rfl
@[simp] theorem State.moved_piVersion : (s.moved ck oe out sh bits tries es n).piVersion = s.piVersion := rfl
@[simp] theorem State.moved_piDerivative : (s.moved ck oe out sh bits tries es n).piDerivative = s.piDerivative := rfl
@[simp] theorem State.moved_buf : (s.moved ck oe out sh bits tries es n).buf = s.buf := rfl
@[simp] theorem State.moved_scratch : (s.moved ck oe out sh bits tries es n).scratch = s.scratch := rfl
@[simp] theorem State.moved_seq : (s.moved ck oe out sh bits tries es n).seq = s.seq := rfl
@[simp] theorem State.moved_fresh : (s.moved ck oe out sh bits tries es n).fresh = s.fresh := rfl
@[simp] theorem State.moved_port : (s.moved ck oe out sh bits tries es n).port = s.port := rfl
@[simp] theorem State.moved_hostData : (s.moved ck oe out sh bits tries es n).hostData = s.hostData := rfl

@[simp] theorem State.moved_line (k : Nat) : (s.moved ck oe out sh bits tries es n).line k = s.line (n + k) := by
  simp [State.moved, State.line, lineAt, List.getElem?_drop, Nat.add_assoc]

end

/-! ## The procedures of the transport -/

theorem run_delay {n : Nat} (h : n ≠ 0) (s : State) :
    (delay n).run s = (.ok (), s.moved s.ck s.dOe s.dOut s.shift s.bitcnt s.trycnt [.t n] 0) := by
  simp [delay, doPrim, h, State.moved, State.emit]

theorem run_ckSet (b : Bit) (s : State) :
    (ckSet b).run s = (.ok (), s.moved b s.dOe s.dOut s.shift s.bitcnt s.trycnt [.ck b] 0) := by
  simp [ckSet, doPrim, State.moved]

/-- A strobe. -/
theorem run_strobeClock (s : State) :
    strobeClock.run s = (.ok (), s.moved true s.dOe s.dOut s.shift s.bitcnt s.trycnt strobeEvents 0) := by
  rw [strobeClock, run_andThen_ok _ (run_ckSet _ _), run_andThen_ok _ (run_delay tSettle_ne_zero _),
    run_andThen_ok _ (run_ckSet _ _), run_delay tSettle_ne_zero]
  simp [strobeEvents]

/-- The release of the data line. -/
theorem run_release (s : State) :
    (setData .z).run s = (.ok (), s.moved s.ck false s.dOut s.shift s.bitcnt s.trycnt releaseEvents 0) := by
  rw [setData, run_andThen_ok _ (run_act _ _), run_delay tSettle_ne_zero]
  simp [State.moved, releaseEvents, doPrim]

/-- A host-driven slot. -/
theorem run_sendBit (b : Bit) (s : State) :
    (sendBit b).run s = (.ok (), s.moved true true b s.shift s.bitcnt s.trycnt (sendBitEvents b) 0) := by
  rw [sendBit, setData, run_andThen_ok _ (by rw [run_andThen_ok _ (run_act _ _), run_delay tSettle_ne_zero]),
    run_strobeClock]
  cases b <;> simp [State.moved, sendBitEvents, doPrim, levelOf]

/-- A host-sampled slot: it answers the level of the line. -/
theorem run_recvBit (s : State) :
    recvBit.run s =
      (.ok (s.line 0), s.moved true s.dOe s.dOut s.shift s.bitcnt s.trycnt (recvBitEvents (s.line 0)) 1) := by
  rw [recvBit, run_andThen_ok _ (run_strobeClock _), readData, run_prim, run_ret]
  simp only [doPrim, getLsbD_bitByte, State.moved_line]
  simp [State.moved, State.emit, State.afterSamples, recvBitEvents]

/-- One pass of the loop of `sendByte`. -/
theorem run_sendStep (s : State) :
    (Prog.prim .readShift fun sh => (sendBit (sh.getLsbD 0)).andThen (act .shiftOut)).run s =
      (.ok (), s.moved true true (s.shift.getLsbD 0) (shiftRight s.shift) (s.bitcnt + 1) s.trycnt
        (sendBitEvents (s.shift.getLsbD 0)) 0) := by
  simp only [run_prim, doPrim]
  rw [run_andThen_ok _ (run_sendBit _ _), run_act]
  rfl

/-- One pass of the loop of `recvByte`. -/
theorem run_recvStep (s : State) :
    (recvBit.bind fun b => act (.shiftIn b)).run s =
      (.ok (), s.moved true s.dOe s.dOut (shiftInto s.shift (s.line 0)) (s.bitcnt + 1) s.trycnt
        (recvBitEvents (s.line 0)) 1) := by
  rw [run_bind_ok _ (run_recvBit s), run_act]
  rfl

theorem run_startField (s : State) :
    (act .startField).run s = (.ok (), s.moved s.ck s.dOe s.dOut s.shift 0 s.trycnt [] 0) := by
  simp [doPrim, State.moved]

theorem run_loadShift (v : Byte) (s : State) :
    (act (.loadShift v)).run s = (.ok (), s.moved s.ck s.dOe s.dOut v s.bitcnt s.trycnt [] 0) := by
  simp [doPrim, State.moved]

/-- START or STOP. -/
theorem run_idleField (s : State) :
    idleField.run s = (.ok (), s.moved true s.dOe s.dOut s.shift 0 s.trycnt strobeEvents 0) := by
  rw [idleField, idleSlot, run_andThen_ok _ (run_startField _), run_strobeClock]
  simp

/-- INS or LENGTH: two driven slots. -/
theorem run_sendPair (f : BitVec 2) (s : State) :
    (sendPair f).run s = (.ok (), s.moved true true (f.getLsbD 1) 0#8 2 s.trycnt
      (sendBitEvents (f.getLsbD 0) ++ sendBitEvents (f.getLsbD 1)) 0) := by
  rw [sendPair, sendField, run_andThen_ok _ (run_startField _), run_andThen_ok _ (run_loadShift _ _)]
  simp only [forUp_succ, forUp_zero]
  iterate 2 rw [run_andThen_ok _ (run_sendStep _)]
  have h0 : shiftRight (shiftRight (f.setWidth 8)) = 0#8 := by revert f; decide
  have h1 : (shiftRight (f.setWidth 8))[0] = f[1] := by revert f; decide
  simp [h0, h1]

/-- Eight driven slots. -/
theorem run_sendByte (v : Byte) (s : State) :
    (sendByte v).run s = (.ok (), s.moved true true (v.getLsbD 7) 0#8 8 s.trycnt (sendByteEvents v) 0) := by
  rw [sendByte, sendField, run_andThen_ok _ (run_startField _), run_andThen_ok _ (run_loadShift _ _)]
  simp only [forUp_succ, forUp_zero]
  iterate 8 rw [run_andThen_ok _ (run_sendStep _)]
  have h8 : v >>> 8 = 0#8 := by revert v; decide
  simp [sendByteEvents, serialise, shiftRight, ← BitVec.shiftRight_add, h8]

/-- Eight sampled slots: it answers the byte the samples make. -/
theorem run_recvByte (s : State) :
    recvByte.run s = (.ok (s.nextByte 0), s.moved true s.dOe s.dOut (s.nextByte 0) 8 s.trycnt
      (recvByteEvents (s.nextByte 0)) 8) := by
  rw [recvByte, run_andThen_ok _ (run_startField _), run_andThen_ok _ (run_loadShift _ _)]
  simp only [forUp_succ, forUp_zero]
  rw [run_andThen_ok _ (by iterate 8 rw [run_andThen_ok _ (run_recvStep _)]
                           exact run_ret _ _)]
  simp [doPrim, recvByteEvents, State.nextByte, serialise_assemble, shiftInto_eight]

end Sys2Proof.Machine
end

