-- ==== Sys2Proof/Laws/Frames.lean ====
section
/-! SUPPORT. What each frame does, whatever the line shows (spec/41_register_access.md). -/

namespace Sys2Proof.Machine

/-- `write_ar(a)` (R151). -/
theorem run_writeAr (a : Byte) (s : State) :
    (writeAr a).run s = (.ok (), s.moved true false (a.getLsbD 7) 0#8 0 s.trycnt (writeArEvents a) 0) := by
  rw [writeAr, run_andThen_ok _ (run_idleField _), run_andThen_ok _ (run_sendPair _ _),
    run_andThen_ok _ (run_sendByte _ _), run_andThen_ok _ (run_release _), run_idleField]
  simp [writeArEvents, insWriteAr]

/-- `read_ar()` (R152). -/
theorem run_readAr (s : State) :
    readAr.run s = (.ok (s.nextByte 0),
      s.moved true false true (s.nextByte 0) 0 s.trycnt (readArEvents (s.nextByte 0)) 8) := by
  rw [readAr, run_andThen_ok _ (run_idleField _), run_andThen_ok _ (run_sendPair _ _),
    run_andThen_ok _ (run_release _), run_bind_ok _ (run_recvByte _), run_andThen_ok _ (run_idleField _), run_ret]
  simp [readArEvents, State.nextByte, insReadAr]

/-! ## The WAIT field (R155) -/

theorem waitRetryEvents_succ (n : Nat) :
    waitRetryEvents (n + 1) = recvBitEvents false ++ [.t Config.waitGap] ++ waitRetryEvents n := by
  simp [waitRetryEvents, List.replicate_succ]

/-- Ready at try `n + 1`, within the budget. -/
theorem run_waitTries_ready {budget n : Nat} {s : State} (hn : n < budget) (hw : ∀ k < n, s.line k = false)
    (hr : s.line n = true) :
    (pollTries Config.waitGap recvBit budget).run s =
      (.ok (), s.moved true s.dOe s.dOut s.shift s.bitcnt (s.trycnt + (n + 1))
        (waitRetryEvents n ++ recvBitEvents true) (n + 1)) := by
  induction n generalizing budget s with
  | zero =>
    obtain ⟨m, rfl⟩ : ∃ m, budget = m + 1 := ⟨budget - 1, by omega⟩
    rw [pollTries, run_bind_ok _ (run_recvBit s), run_andThen_ok _ (run_act _ _), hr, if_pos rfl, run_ret]
    simp [doPrim, waitRetryEvents, State.moved]
  | succ n ih =>
    obtain ⟨m, rfl⟩ : ∃ m, budget = m + 1 := ⟨budget - 1, by omega⟩
    rw [pollTries, run_bind_ok _ (run_recvBit s), run_andThen_ok _ (run_act _ _), hw 0 (by omega),
      if_neg (by simp), if_neg (by omega), run_andThen_ok _ (run_delay (by decide) _), ih (by omega)]
    · simp [doPrim, waitRetryEvents_succ, State.moved]; omega
    · intro k hk
      have := hw (1 + k) (by omega)
      simpa [doPrim, State.line, lineAt, State.moved, List.getElem?_drop, Nat.add_assoc, Nat.add_comm 1 k] using this
    · have := hr
      simpa [doPrim, State.line, lineAt, State.moved, List.getElem?_drop, Nat.add_assoc, Nat.add_comm 1 n] using this

/-- Never ready: exactly `n + 1` tries are made. -/
theorem run_waitTries_never {n : Nat} {s : State} (hw : ∀ k < n + 1, s.line k = false) :
    (pollTries Config.waitGap recvBit (n + 1)).run s =
      (.failed .busTimeout, s.moved true s.dOe s.dOut s.shift s.bitcnt (s.trycnt + (n + 1))
        (waitRetryEvents n ++ recvBitEvents false) (n + 1)) := by
  induction n generalizing s with
  | zero =>
    rw [pollTries, run_bind_ok _ (run_recvBit s), run_andThen_ok _ (run_act _ _), hw 0 (by omega), if_neg (by simp),
      if_pos rfl, run_raise]
    simp [doPrim, waitRetryEvents, State.moved]
  | succ n ih =>
    rw [pollTries, run_bind_ok _ (run_recvBit s), run_andThen_ok _ (run_act _ _), hw 0 (by omega),
      if_neg (by simp), if_neg (by omega), run_andThen_ok _ (run_delay (by decide) _), ih]
    · simp [doPrim, waitRetryEvents_succ, State.moved]; omega
    · intro k hk
      have := hw (1 + k) (by omega)
      simpa [doPrim, State.line, lineAt, State.moved, List.getElem?_drop, Nat.add_assoc, Nat.add_comm 1 k] using this

theorem run_clearTry (s : State) :
    (act .clearTry).run s = (.ok (), s.moved s.ck s.dOe s.dOut s.shift s.bitcnt 0 [] 0) := by
  simp [doPrim, State.moved]

theorem run_waitField_ready {budget n : Nat} {s : State} (hn : n < budget) (hw : ∀ k < n, s.line k = false)
    (hr : s.line n = true) :
    (waitField budget).run s = (.ok (), s.moved true s.dOe s.dOut s.shift 0 (n + 1)
      (waitRetryEvents n ++ recvBitEvents true) (n + 1)) := by
  rw [waitField, run_andThen_ok _ (run_startField s), poll, run_andThen_ok _ (run_clearTry _), run_waitTries_ready hn (by simpa using hw) (by simpa using hr)]
  simp

theorem run_waitField_never {budget n : Nat} {s : State} (hb : budget = n + 1) (hw : ∀ k < budget, s.line k = false) :
    (waitField budget).run s = (.failed .busTimeout, s.moved true s.dOe s.dOut s.shift 0 budget
      (waitRetryEvents n ++ recvBitEvents false) budget) := by
  subst hb
  rw [waitField, run_andThen_ok _ (run_startField s), poll, run_andThen_ok _ (run_clearTry _), run_waitTries_never (by simpa using hw)]
  simp

/-! ## The DR frames -/

/-- `write_dr(d)`, ready at try `n + 1` (R153). -/
theorem run_writeDr_ready {n : Nat} {s : State} (d : Byte) (hn : n < Config.waitTriesWr)
    (hw : ∀ k < n, s.line k = false) (hr : s.line n = true) :
    (writeDr d).run s = (.ok (), s.moved true false (d.getLsbD 7) 0#8 0 (n + 1) (writeDrEvents d (n + 1)) (n + 1)) := by
  rw [writeDr, run_andThen_ok _ (run_idleField _)]
  iterate 2 rw [run_andThen_ok _ (run_sendPair _ _)]
  rw [run_andThen_ok _ (run_sendByte _ _), run_andThen_ok _ (run_release _),
    run_andThen_ok _ (run_waitField_ready hn (by simpa using hw) (by simpa using hr)), run_idleField]
  simp [writeDrEvents, writeDrHead, insWriteDr, length1Byte]

/-- `write_dr(d)`, never ready: truncated after the WAIT field (R156). -/
theorem run_writeDr_never {s : State} (d : Byte) (hw : ∀ k < Config.waitTriesWr, s.line k = false) :
    (writeDr d).run s = (.failed .busTimeout,
      s.moved true false (d.getLsbD 7) 0#8 0 Config.waitTriesWr (writeDrTimeoutEvents d) Config.waitTriesWr) := by
  rw [writeDr, run_andThen_ok _ (run_idleField _)]
  iterate 2 rw [run_andThen_ok _ (run_sendPair _ _)]
  rw [run_andThen_ok _ (run_sendByte _ _), run_andThen_ok _ (run_release _),
    run_andThen_failed _ (run_waitField_never (budget := Config.waitTriesWr) (n := 19) rfl (by simpa using hw))]
  simp [writeDrTimeoutEvents, writeDrHead, insWriteDr, length1Byte, Config.waitTriesWr]

/-- `read_dr()`, ready at try `n + 1` (R154). -/
theorem run_readDr_ready {n : Nat} {s : State} (hn : n < Config.waitTriesRd) (hw : ∀ k < n, s.line k = false)
    (hr : s.line n = true) :
    readDr.run s = (.ok (s.nextByte (n + 1)), s.moved true false false (s.nextByte (n + 1)) 0 (n + 1)
      (readDrEvents (s.nextByte (n + 1)) (n + 1)) (n + 9)) := by
  rw [readDr, run_andThen_ok _ (run_idleField _)]
  iterate 2 rw [run_andThen_ok _ (run_sendPair _ _)]
  rw [run_andThen_ok _ (run_release _),
    run_andThen_ok _ (run_waitField_ready hn (by simpa using hw) (by simpa using hr)), run_bind_ok _ (run_recvByte _),
    run_andThen_ok _ (run_idleField _), run_ret]
  simp [readDrEvents, readDrHead, insReadDr, length1Byte, State.nextByte, Nat.add_assoc]

/-- `read_dr()`, never ready: truncated after the WAIT field (R156). -/
theorem run_readDr_never {s : State} (hw : ∀ k < Config.waitTriesRd, s.line k = false) :
    readDr.run s = (.failed .busTimeout,
      s.moved true false false 0#8 0 Config.waitTriesRd readDrTimeoutEvents Config.waitTriesRd) := by
  rw [readDr, run_andThen_ok _ (run_idleField _)]
  iterate 2 rw [run_andThen_ok _ (run_sendPair _ _)]
  rw [run_andThen_ok _ (run_release _),
    run_andThen_failed _ (run_waitField_never (budget := Config.waitTriesRd) (n := 49) rfl (by simpa using hw))]
  simp [readDrTimeoutEvents, readDrHead, insReadDr, length1Byte, Config.waitTriesRd]

end Sys2Proof.Machine
end

