-- ==== Sys2Proof/Laws/Sequences.lean ====
section
/-! SUPPORT. What a procedure does against a target that answers as a sequence of frames needs, and how such facts compose. -/

namespace Sys2Proof.Machine

variable {α β : Type}

/-! ## Samples -/

@[simp] theorem State.length_lines (s : State) (n : Nat) : (s.lines n).length = n := by simp [State.lines]

/-- The lines show a list exactly if each sample does. -/
theorem lines_eq_iff {s : State} {l : List Bit} : s.lines l.length = l ↔ ∀ k, (h : k < l.length) → s.line k = l[k] := by
  constructor
  · intro h k hk
    have : (s.lines l.length)[k]'(by simpa using hk) = l[k] := by simp [h]
    simpa [State.lines] using this
  · intro h
    apply List.ext_getElem (by simp)
    intro k _ hk
    simpa [State.lines] using h k hk

theorem line_of_moved {s t : State} {n : Nat} (hd : t.din = s.din.drop n) (hs : t.samples = s.samples + n) (k : Nat) :
    t.line k = s.line (n + k) := by
  simp [State.line, lineAt, hd, hs, List.getElem?_drop, Nat.add_assoc]

theorem samplesOf_append (xs ys : List Xact) : samplesOf (xs ++ ys) = samplesOf xs ++ samplesOf ys := by
  simp [samplesOf]

theorem eventsOf_append (xs ys : List Xact) : eventsOf (xs ++ ys) = eventsOf xs ++ eventsOf ys := by
  simp [eventsOf]

/-- A queue of answers that begins with a sequence's samples answers it. -/
theorem answers_of_din {s : State} {xs : List Xact} {rest : List Bit} (h : s.din = samplesOf xs ++ rest) :
    Answers s xs := by
  refine lines_eq_iff.mpr fun k hk => ?_
  simp [State.line, lineAt, h, List.getElem?_append_left hk, List.getElem?_eq_getElem hk]

theorem Answers.left {s : State} {xs ys : List Xact} (h : Answers s (xs ++ ys)) : Answers s xs := by
  rw [Answers, samplesOf_append] at h
  have h := lines_eq_iff.mp h
  refine lines_eq_iff.mpr fun k hk => ?_
  rw [h k (by simp only [List.length_append]; omega), List.getElem_append_left hk]

theorem Answers.right {s t : State} {xs ys : List Xact} (h : Answers s (xs ++ ys)) (hw : OnWire s t xs) :
    Answers t ys := by
  rw [Answers, samplesOf_append] at h
  have h := lines_eq_iff.mp h
  refine lines_eq_iff.mpr fun k hk => ?_
  rw [line_of_moved hw.2.1 hw.2.2.1, h _ (by simp only [List.length_append]; omega)]
  simp

/-! ## The wire -/

theorem OnWire.refl {s : State} (h : LinesIdle s) : OnWire s s [] := by
  simp [OnWire, OnWireEvents, eventsOf, samplesOf, h]

theorem OnWireEvents.trans {s t u : State} {es fs : List Event} {n m : Nat} (h : OnWireEvents s t es n)
    (g : OnWireEvents t u fs m) : OnWireEvents s u (es ++ fs) (n + m) := by
  obtain ⟨h1, h2, h3, -⟩ := h
  obtain ⟨g1, g2, g3, g4⟩ := g
  exact ⟨by simp [g1, h1], by simp [g2, h2], by omega, g4⟩

theorem OnWire.trans {s t u : State} {xs ys : List Xact} (h : OnWire s t xs) (g : OnWire t u ys) :
    OnWire s u (xs ++ ys) := by
  unfold OnWire
  rw [eventsOf_append, samplesOf_append, List.length_append]
  exact OnWireEvents.trans h g

theorem OnWireEvents.idle {s t : State} {es : List Event} {n : Nat} (h : OnWireEvents s t es n) : LinesIdle t :=
  h.2.2.2

theorem OnWire.idle {s t : State} {xs : List Xact} (h : OnWire s t xs) : LinesIdle t := h.2.2.2

/-- What `State.moved` puts on the wire, the lines left idle. -/
theorem moved_onWire (s : State) (out : Bit) (sh : Byte) (bits tries n : Nat) (es : List Event) :
    OnWireEvents s (s.moved true false out sh bits tries es n) es n := by
  simp [OnWireEvents, LinesIdle]

/-! ## Procedures that leave the local memories alone -/

/-- The local memories and the counter of free values are the same. -/
def Quiet (s t : State) : Prop := t.buf = s.buf ∧ t.scratch = s.scratch ∧ t.fresh = s.fresh

theorem Quiet.refl (s : State) : Quiet s s := ⟨rfl, rfl, rfl⟩

theorem Quiet.trans {s t u : State} (h : Quiet s t) (g : Quiet t u) : Quiet s u := by
  simp_all [Quiet]

/-- Against a target that answers as `xs` needs, the procedure returns `v` with exactly `xs` on the wire, leaves the
memories alone, and ends in a state with `Q`. -/
def Does (p : Prog α) (v : α) (xs : List Xact) (Q : State → Prop) : Prop :=
  ∀ s, LinesIdle s → Answers s xs → ∃ t, p.run s = (.ok v, t) ∧ OnWire s t xs ∧ Quiet s t ∧ Q t

/-- Nothing more is said of the last state. -/
def Anything : State → Prop := fun _ => True

theorem Does.weaken {p : Prog α} {v : α} {xs : List Xact} {Q : State → Prop} (h : Does p v xs Q) :
    Does p v xs Anything := by
  intro s hi ha
  obtain ⟨t, h1, h2, h3, -⟩ := h s hi ha
  exact ⟨t, h1, h2, h3, trivial⟩

theorem does_ret (v : α) : Does (.ret v) v [] Anything := fun s hi _ => ⟨s, rfl, OnWire.refl hi, Quiet.refl s, trivial⟩

theorem Does.bind {p : Prog α} {f : α → Prog β} {v : α} {w : β} {xs ys : List Xact} {Q R : State → Prop}
    (h : Does p v xs Q) (g : Does (f v) w ys R) : Does (p.bind f) w (xs ++ ys) R := by
  intro s hi ha
  obtain ⟨t, h1, h2, h3, -⟩ := h s hi ha.left
  obtain ⟨u, g1, g2, g3, g4⟩ := g t h2.idle (ha.right h2)
  exact ⟨u, by rw [run_bind_ok _ h1, g1], h2.trans g2, h3.trans g3, g4⟩

theorem Does.andThen {p : Prog α} {q : Prog β} {v : α} {w : β} {xs ys : List Xact} {Q R : State → Prop}
    (h : Does p v xs Q) (g : Does q w ys R) : Does (p.andThen q) w (xs ++ ys) R :=
  h.bind g

/-- A returned value changes nothing of what was done. -/
theorem Does.bindRet {p : Prog α} {f : α → β} {v : α} {xs : List Xact} {Q : State → Prop} (h : Does p v xs Q) :
    Does (p.bind fun a => .ret (f a)) (f v) xs Q := by
  intro s hi ha
  obtain ⟨t, h1, h2, h3, h4⟩ := h s hi ha
  exact ⟨t, by rw [run_bind_ok _ h1, run_ret], h2, h3, h4⟩

theorem Does.andThenRet {p : Prog α} {w : β} {v : α} {xs : List Xact} {Q : State → Prop} (h : Does p v xs Q) :
    Does (p.andThen (.ret w)) w xs Q :=
  h.bindRet (f := fun _ => w)

/-! ## Frames and gaps -/

theorem does_writeAr (a : Byte) : Does (writeAr a) () [.wa a] Anything := fun s _ _ =>
  ⟨_, run_writeAr a s, by simpa [OnWire, eventsOf, samplesOf, Xact.events, Xact.samples] using moved_onWire s _ _ _ _ _ _,
    ⟨rfl, rfl, rfl⟩, trivial⟩

/-- The answers that eight samples are one byte. -/
theorem nextByte_of_lines {s : State} {r : Byte} (k : Nat) (h : ∀ i, (hi : i < 8) → s.line (k + i) = r.getLsbD i) :
    s.nextByte k = r := by
  rw [State.nextByte, ← assemble_bits r]
  have h0 := h 0 (by omega); have h1 := h 1 (by omega); have h2 := h 2 (by omega); have h3 := h 3 (by omega)
  have h4 := h 4 (by omega); have h5 := h 5 (by omega); have h6 := h 6 (by omega); have h7 := h 7 (by omega)
  rw [Nat.add_zero] at h0
  rw [h0, h1, h2, h3, h4, h5, h6, h7, assemble_bits]

theorem getElem_serialise (r : Byte) (i : Nat) (hi : i < 8) : (serialise r)[i]'(by simpa [serialise] using hi) = r.getLsbD i := by
  match i, hi with
  | 0, _ | 1, _ | 2, _ | 3, _ | 4, _ | 5, _ | 6, _ | 7, _ => rfl

@[simp] theorem length_serialise (r : Byte) : (serialise r).length = 8 := rfl

theorem does_readAr (r : Byte) : Does readAr r [.ra r] (fun t => t.shift = r) := by
  intro s _ ha
  have h : s.nextByte 0 = r := by
    have ha : s.lines (serialise r).length = serialise r := by
      simpa [Answers, samplesOf, Xact.samples] using ha
    refine nextByte_of_lines 0 fun i hi => ?_
    rw [Nat.zero_add, lines_eq_iff.mp ha i (by simpa using hi), getElem_serialise r i hi]
  have hrun := run_readAr s
  rw [h] at hrun
  refine ⟨_, hrun, ?_, ⟨rfl, rfl, rfl⟩, rfl⟩
  simpa [OnWire, eventsOf, samplesOf, Xact.events, Xact.samples] using moved_onWire s _ _ _ _ _ _

/-- What the samples of a WAIT field that is ready at try `n` say of the lines. -/
theorem wait_lines {s : State} {n : Nat} {rest : List Bit} (hn : 1 ≤ n)
    (h : s.lines (List.replicate (n - 1) false ++ [true] ++ rest).length = List.replicate (n - 1) false ++ [true] ++ rest) :
    (∀ k < n - 1, s.line k = false) ∧ s.line (n - 1) = true ∧
      ∀ i, (hi : i < rest.length) → s.line (n + i) = rest[i] := by
  have h := lines_eq_iff.mp h
  refine ⟨fun k hk => ?_, ?_, fun i hi => ?_⟩
  · rw [h k (by simp; omega), List.getElem_append_left (by simp; omega), List.getElem_append_left (by simpa using hk)]
    simp
  · rw [h (n - 1) (by simp), List.getElem_append_left (by simp), List.getElem_append_right (by simp)]
    simp
  · rw [h (n + i) (by simp; omega), List.getElem_append_right (by simp; omega)]
    congr 1
    simp; omega

theorem does_writeDr (d : Byte) {n : Nat} (h1 : 1 ≤ n) (h2 : n ≤ Config.waitTriesWr) :
    Does (writeDr d) () [.wd d n] Anything := by
  intro s _ ha
  have ha : s.lines (List.replicate (n - 1) false ++ [true] ++ []).length = List.replicate (n - 1) false ++ [true] ++ [] := by
    simpa [Answers, samplesOf, Xact.samples] using ha
  obtain ⟨hw, hr, -⟩ := wait_lines h1 ha
  have he : n - 1 + 1 = n := by omega
  refine ⟨_, run_writeDr_ready d (by omega) hw hr, ?_, ⟨rfl, rfl, rfl⟩, trivial⟩
  rw [he]
  have hl : (samplesOf [Xact.wd d n]).length = n := by simp [samplesOf, Xact.samples]; omega
  rw [OnWire, hl]
  simpa [eventsOf, Xact.events] using moved_onWire s _ _ _ _ _ _

theorem does_readDr (r : Byte) {n : Nat} (h1 : 1 ≤ n) (h2 : n ≤ Config.waitTriesRd) :
    Does readDr r [.rd r n] (fun t => t.shift = r) := by
  intro s _ ha
  have ha : s.lines (List.replicate (n - 1) false ++ [true] ++ serialise r).length =
      List.replicate (n - 1) false ++ [true] ++ serialise r := by
    simpa [Answers, samplesOf, Xact.samples] using ha
  obtain ⟨hw, hr, hd⟩ := wait_lines h1 ha
  have he : n - 1 + 1 = n := by omega
  have hb : s.nextByte (n - 1 + 1) = r := by
    rw [he]
    refine nextByte_of_lines n fun i hi => ?_
    rw [hd i (by simpa using hi), getElem_serialise r i hi]
  have hrun := run_readDr_ready (by omega) hw hr
  rw [hb, he] at hrun
  refine ⟨_, hrun, ?_, ⟨rfl, rfl, rfl⟩, rfl⟩
  have hl : (samplesOf [Xact.rd r n]).length = n - 1 + 9 := by simp [samplesOf, Xact.samples]
  rw [OnWire, hl]
  simpa [eventsOf, Xact.events] using moved_onWire s _ _ _ _ _ _

theorem does_delay {n : Nat} (h : n ≠ 0) : Does (delay n) () [.gap n] Anything := by
  intro s hi _
  refine ⟨_, run_delay h s, ?_, ⟨rfl, rfl, rfl⟩, trivial⟩
  simp [OnWire, OnWireEvents, LinesIdle, eventsOf, samplesOf, Xact.events, Xact.samples, hi.1, hi.2]

theorem does_clearTry : Does (act .clearTry) () [] Anything := by
  intro s hi _
  refine ⟨_, run_clearTry s, ?_, ⟨rfl, rfl, rfl⟩, trivial⟩
  simp [OnWire, OnWireEvents, LinesIdle, eventsOf, samplesOf, hi.1, hi.2]

theorem does_countTry : Does (act .countTry) () [] Anything := by
  intro s hi _
  refine ⟨_, run_act _ s, ?_, ⟨rfl, rfl, rfl⟩, trivial⟩
  simp [doPrim, OnWire, OnWireEvents, LinesIdle, eventsOf, samplesOf, hi.1, hi.2]

/-! ## Polls of Read AR (42_pi_protocol.md R171, R172) -/

theorem does_arPoll {gap : Nat} (hg : gap ≠ 0) (pass : Byte → Bool) {budget : Nat} {bad : List Byte} {good : Byte}
    (hb : bad.length < budget) (hbad : bad.all (fun r => !pass r) = true) (hgood : pass good = true) :
    Does (poll gap (readAr.bind fun r => .ret (pass r)) budget) ()
      ((bad.flatMap fun r => [.ra r, .gap gap]) ++ [.ra good]) Anything := by
  have h : Does (pollTries gap (readAr.bind fun r => .ret (pass r)) budget) ()
      ((bad.flatMap fun r => [.ra r, .gap gap]) ++ [.ra good]) Anything := by
    induction bad generalizing budget with
    | nil =>
      obtain ⟨m, rfl⟩ : ∃ m, budget = m + 1 := ⟨budget - 1, by omega⟩
      rw [pollTries, List.flatMap_nil, List.nil_append, ← List.append_nil [Xact.ra good]]
      refine (does_readAr good).bindRet.bind ?_
      rw [hgood, if_pos rfl]
      exact does_countTry.andThenRet
    | cons r bad ih =>
      obtain ⟨m, rfl⟩ : ∃ m, budget = m + 1 := ⟨budget - 1, by omega⟩
      simp only [List.length_cons] at hb
      simp only [List.all_cons, Bool.and_eq_true, Bool.not_eq_true'] at hbad
      have hm : m ≠ 0 := by omega
      rw [pollTries, List.flatMap_cons, List.append_assoc]
      show Does _ _ ([Xact.ra r] ++ ([] ++ ([Xact.gap gap] ++ _))) _
      refine (does_readAr r).bindRet.bind (does_countTry.andThen ?_)
      rw [hbad.1, if_neg (by simp), if_neg hm]
      exact (does_delay hg).andThen (ih (by omega) hbad.2)
  exact does_clearTry.andThen h

/-! ## Failures -/

/-- From `s` the procedure fails with `k` in `t`, with exactly the events `es` and `n` samples, the memories alone. -/
def Fails (p : Prog α) (s : State) (k : FailKind) (es : List Event) (n : Nat) (t : State) : Prop :=
  p.run s = (.failed k, t) ∧ OnWireEvents s t es n ∧ Quiet s t

/-- The first failure of a composition is the failure of the whole (43_flash_block_ops.md R191). -/
theorem Fails.bind {p : Prog α} {s t : State} {k : FailKind} {es : List Event} {n : Nat} (h : Fails p s k es n t)
    (f : α → Prog β) : Fails (p.bind f) s k es n t :=
  ⟨run_bind_failed f h.1, h.2⟩

theorem Fails.andThen {p : Prog α} {s t : State} {k : FailKind} {es : List Event} {n : Nat} (h : Fails p s k es n t)
    (q : Prog β) : Fails (p.andThen q) s k es n t :=
  h.bind _

/-- A failure after a part that returned. -/
theorem Fails.after {p : Prog α} {f : α → Prog β} {s t u : State} {v : α} {k : FailKind} {es fs : List Event}
    {n m : Nat} (h1 : p.run s = (.ok v, t)) (h2 : OnWireEvents s t es n) (h3 : Quiet s t) (g : Fails (f v) t k fs m u) :
    Fails (p.bind f) s k (es ++ fs) (n + m) u :=
  ⟨by rw [run_bind_ok _ h1, g.1], h2.trans g.2.1, h3.trans g.2.2⟩

/-- Write DR, the line never ready (41_register_access.md R156). -/
theorem fails_writeDr {s : State} (d : Byte) (hw : ∀ k < Config.waitTriesWr, s.line k = false) :
    ∃ t, Fails (writeDr d) s .busTimeout (writeDrTimeoutEvents d) Config.waitTriesWr t :=
  ⟨_, run_writeDr_never d hw, moved_onWire s _ _ _ _ _ _, ⟨rfl, rfl, rfl⟩⟩

/-- Read DR, the line never ready (41_register_access.md R156). -/
theorem fails_readDr {s : State} (hw : ∀ k < Config.waitTriesRd, s.line k = false) :
    ∃ t, Fails readDr s .busTimeout readDrTimeoutEvents Config.waitTriesRd t :=
  ⟨_, run_readDr_never hw, moved_onWire s _ _ _ _ _ _, ⟨rfl, rfl, rfl⟩⟩

/-- Against a target that answers as `xs` needs, the procedure fails with `k` after exactly `xs`. -/
def DoesFail (p : Prog α) (k : FailKind) (xs : List Xact) : Prop :=
  ∀ s, LinesIdle s → Answers s xs → ∃ t, Fails p s k (eventsOf xs) (samplesOf xs).length t

theorem doesFail_raise (k : FailKind) : DoesFail (.raise k : Prog α) k [] := fun s hi _ =>
  ⟨s, rfl, OnWire.refl hi, Quiet.refl s⟩

theorem Does.bindFail {p : Prog α} {f : α → Prog β} {v : α} {k : FailKind} {xs ys : List Xact} {Q : State → Prop}
    (h : Does p v xs Q) (g : DoesFail (f v) k ys) : DoesFail (p.bind f) k (xs ++ ys) := by
  intro s hi ha
  obtain ⟨t, h1, h2, h3, -⟩ := h s hi ha.left
  obtain ⟨u, hu⟩ := g t h2.idle (ha.right h2)
  refine ⟨u, ?_⟩
  rw [eventsOf_append, samplesOf_append, List.length_append]
  exact Fails.after h1 h2 h3 hu

theorem Does.andThenFail {p : Prog α} {q : Prog β} {v : α} {k : FailKind} {xs ys : List Xact} {Q : State → Prop}
    (h : Does p v xs Q) (g : DoesFail q k ys) : DoesFail (p.andThen q) k (xs ++ ys) :=
  h.bindFail g

theorem DoesFail.bind {p : Prog α} {k : FailKind} {xs : List Xact} (h : DoesFail p k xs) (f : α → Prog β) :
    DoesFail (p.bind f) k xs := fun s hi ha =>
  (h s hi ha).imp fun _ ht => ht.bind f

theorem DoesFail.andThen {p : Prog α} {k : FailKind} {xs : List Xact} (h : DoesFail p k xs) (q : Prog β) :
    DoesFail (p.andThen q) k xs :=
  h.bind _

/-- A failure of a part that follows frames which were answered. -/
theorem Does.failsAfter {p : Prog α} {f : α → Prog β} {v : α} {k : FailKind} {xs : List Xact} {es : List Event} {n : Nat}
    {Q : State → Prop} (h : Does p v xs Q) {s : State} (hi : LinesIdle s) (ha : Answers s xs)
    (g : ∀ t, OnWire s t xs → ∃ u, Fails (f v) t k es n u) :
    ∃ u, Fails (p.bind f) s k (eventsOf xs ++ es) ((samplesOf xs).length + n) u := by
  obtain ⟨t, h1, h2, h3, -⟩ := h s hi ha
  obtain ⟨u, hu⟩ := g t h2
  exact ⟨u, Fails.after h1 h2 h3 hu⟩

/-- A poll of Read AR that never passes makes exactly its budget of frames. -/
theorem doesFail_arPoll {gap : Nat} (hg : gap ≠ 0) (pass : Byte → Bool) {bad : List Byte} {budget : Nat}
    (hb : bad.length = budget) (hbad : bad.all (fun r => !pass r) = true) :
    DoesFail (poll gap (readAr.bind fun r => .ret (pass r)) budget) .busTimeout (exhaustedXacts gap bad) := by
  subst hb
  have loop : DoesFail (pollTries gap (readAr.bind fun r => .ret (pass r)) bad.length) .busTimeout
      (exhaustedXacts gap bad) := by
    induction bad with
    | nil => exact doesFail_raise _
    | cons r bad ih =>
      simp only [List.all_cons, Bool.and_eq_true, Bool.not_eq_true'] at hbad
      rw [List.length_cons, pollTries]
      cases bad with
      | nil =>
        show DoesFail _ _ ([Xact.ra r] ++ ([] ++ []))
        refine (does_readAr r).bindRet.bindFail (does_countTry.andThenFail ?_)
        rw [hbad.1, if_neg (by simp), List.length_nil, if_pos rfl]
        exact doesFail_raise _
      | cons r2 bad =>
        show DoesFail _ _ ([Xact.ra r] ++ ([] ++ ([Xact.gap gap] ++ exhaustedXacts gap (r2 :: bad))))
        refine (does_readAr r).bindRet.bindFail (does_countTry.andThenFail ?_)
        rw [hbad.1, if_neg (by simp), if_neg (by simp)]
        exact (does_delay hg).andThenFail (ih hbad.2)
  exact does_clearTry.andThenFail loop

end Sys2Proof.Machine
end

