-- ==== Sys2Proof/Laws/Pi.lean ====
section
/-! SUPPORT. The PI protocol and the flash operations that move no block, against a target that answers within the budgets. -/

namespace Sys2Proof.Machine

/-! ## PI protocol (spec/42_pi_protocol.md) -/

theorem does_piWrite {a : Taken} (h : a.ok = true) (b : Byte) : Does (piWrite b) () (a.xacts b) Anything := by
  simp only [Taken.ok, Bool.and_eq_true, decide_eq_true_eq] at h
  obtain ⟨⟨⟨⟨h1, h2⟩, h3⟩, h4⟩, h5⟩ := h
  exact (does_writeDr b h1 h2).andThen (does_arPoll (by decide) (fun r => !arBusy r) h3 (by simpa using h4) h5)

theorem does_readyPoll {n : Nat} {g : Given} (h : g.pollOk n = true) :
    Does (readyPoll n) () g.pollXacts Anything := by
  simp only [Given.pollOk, Bool.and_eq_true, decide_eq_true_eq] at h
  exact does_arPoll (by decide) arReady h.1.1 h.1.2 h.2

theorem does_busyPoll {bad : List Byte} {good : Byte} (h1 : bad.length < Config.busyTries) (h2 : bad.all arBusy = true)
    (h3 : arBusy good = false) :
    Does busyPoll () ((bad.flatMap fun r => [.ra r, .gap Config.busyGap]) ++ [.ra good]) Anything :=
  does_arPoll (by decide) (fun r => !arBusy r) h1 (by simpa using h2) (by simp [h3])

theorem does_piGet {n : Nat} {g : Given} (h : g.ok n = true) :
    Does (piGet n) g.value g.xacts (fun t => t.shift = g.value) := by
  simp only [Given.ok, Bool.and_eq_true, decide_eq_true_eq] at h
  exact (does_readyPoll h.1.1).andThen (does_readDr g.value h.1.2 h.2)

theorem does_piCheckOk {n : Nat} {g : Given} (h : g.ok n = true) (hv : g.value = Config.piRespOk) :
    Does (piCheckOk n) () g.xacts Anything := by
  rw [← List.append_nil g.xacts]
  refine (does_piGet h).bind ?_
  rw [checkResponse, if_pos hv]
  exact does_ret ()

theorem Checked.ok_iff {n : Nat} {c : Checked} :
    c.ok n = true ↔ c.taken.ok = true ∧ c.reply.ok n = true ∧ c.reply.value = Config.piRespOk := by
  simp [Checked.ok, and_assoc]

theorem does_piCommand_unverified {n : Nat} {a : Taken} (h : a.ok = true) (b : Byte) (wr : Bit) :
    Does (piCommand n b false wr) none (a.xacts b) Anything :=
  (does_piWrite h b).andThenRet

theorem does_piCommand_verified {n : Nat} {c : Checked} (h : c.ok n = true) (b : Byte) :
    Does (piCommand n b true false) none (c.xacts b) Anything := by
  obtain ⟨h1, h2, h3⟩ := Checked.ok_iff.mp h
  exact (does_piWrite h1 b).andThen (does_piCheckOk h2 h3).andThenRet

theorem does_piCommand_result {n : Nat} {a : QueryAnswer} (h : a.ok n = true) (b : Byte) :
    Does (piCommand n b true true) (some a.val.value) (a.xacts b) (fun t => t.shift = a.val.value) := by
  simp only [QueryAnswer.ok, Bool.and_eq_true] at h
  obtain ⟨h1, h2, h3⟩ := Checked.ok_iff.mp h.1
  have := (does_piWrite h1 b).andThen ((does_piCheckOk h2 h3).andThen ((does_piGet h.2).bindRet (f := some)))
  simpa [QueryAnswer.xacts, Checked.xacts, piCommand] using this

theorem does_piVerified {n : Nat} {c : Checked} (h : c.ok n = true) (b : Byte) :
    Does (piVerified n b) () (c.xacts b) Anything :=
  (does_piCommand_verified h b).andThenRet

theorem does_piUnverified {n : Nat} {a : Taken} (h : a.ok = true) (b : Byte) :
    Does (piUnverified n b) () (a.xacts b) Anything :=
  (does_piCommand_unverified h b false).andThenRet

theorem does_piQuery {n : Nat} {a : QueryAnswer} (h : a.ok n = true) (b : Byte) :
    Does (piQuery n b) a.val.value (a.xacts b) (fun t => t.shift = a.val.value) := by
  have := (does_piCommand_result h b).bindRet (f := fun r => r.getD 0#8)
  rwa [Option.getD_some] at this

/-! ## Failures of the PI protocol (R171 to R174) -/

theorem doesFail_busy {a : Taken} (h1 : 1 ≤ a.tries) (h2 : a.tries ≤ Config.waitTriesWr) {bad : List Byte}
    (hl : bad.length = Config.busyTries) (hb : bad.all arBusy = true) (b : Byte) :
    DoesFail (piWrite b) .busTimeout (.wd b a.tries :: exhaustedXacts Config.busyGap bad) :=
  (does_writeDr b h1 h2).andThenFail (doesFail_arPoll (by decide) (fun r => !arBusy r) hl (by simpa using hb))

theorem doesFail_notReady {n : Nat} {bad : List Byte} (hl : bad.length = n) (hb : bad.all (fun r => !arReady r) = true) :
    DoesFail (piGet n) .busTimeout (exhaustedXacts Config.readyGap bad) :=
  (doesFail_arPoll (by decide) arReady hl hb).andThen _

theorem doesFail_rejected {n : Nat} {g : Given} (h : g.ok n = true) (hv : g.value ≠ Config.piRespOk) :
    DoesFail (piCheckOk n) .protocolRejected g.xacts := by
  rw [← List.append_nil g.xacts]
  refine (does_piGet h).bindFail ?_
  rw [checkResponse, if_neg hv]
  exact doesFail_raise _

theorem doesFail_piVerified {n : Nat} {a : Taken} {g : Given} (ha : a.ok = true) (hg : g.ok n = true)
    (hv : g.value ≠ Config.piRespOk) (b : Byte) :
    DoesFail (piVerified n b) .protocolRejected (a.xacts b ++ g.xacts) :=
  ((does_piWrite ha b).andThenFail ((doesFail_rejected hg hv).andThen _)).andThen _

/-! ## Direct access (43_flash_block_ops.md R192, R193) -/

theorem does_directReadBytes {n : Nat} {a : DirectReadAnswer} (h : a.ok n = true) (reg : Byte) :
    Does (directReadBytes n reg) a.val.value (a.xacts reg) (fun t => t.shift = a.val.value) := by
  simp only [DirectReadAnswer.ok, Bool.and_eq_true] at h
  have := (does_piVerified h.1.1.1 Config.piCodes.directRead).andThen ((does_piUnverified (n := n) h.1.1.2 reg).andThen
    ((does_piUnverified (n := n) h.1.2 Config.directLen).andThen (does_piGet h.2)))
  simpa [DirectReadAnswer.xacts, directReadBytes] using this

theorem does_readDirect {n : Nat} {a : DirectReadAnswer} (h : a.ok n = true) (fpdat reg : Byte) :
    Does (readDirect n fpdat reg) a.val.value (.wa fpdat :: a.xacts reg) (fun t => t.shift = a.val.value) :=
  (does_writeAr fpdat).andThen (does_directReadBytes h reg)

theorem does_directWriteBytes {n : Nat} {a : DirectWriteAnswer} (h : a.ok n = true) (reg v : Byte) :
    Does (directWriteBytes n reg v) () (a.xacts reg v) Anything := by
  simp only [DirectWriteAnswer.ok, Bool.and_eq_true] at h
  have := (does_piVerified h.1.1.1 Config.piCodes.directWrite).andThen ((does_piUnverified (n := n) h.1.1.2 reg).andThen
    ((does_piUnverified (n := n) h.1.2 Config.directLen).andThen (does_piUnverified (n := n) h.2 v)))
  simpa [DirectWriteAnswer.xacts, directWriteBytes] using this

theorem does_writeDirect {n : Nat} {a : DirectWriteAnswer} (h : a.ok n = true) (fpdat reg v : Byte) :
    Does (writeDirect n fpdat reg v) () (.wa fpdat :: a.xacts reg v) Anything :=
  (does_writeAr fpdat).andThen (does_directWriteBytes h reg v)

/-! ## Block header (R196) -/

theorem does_blockHeader {n : Nat} {h : HeaderAnswer} (ok : h.ok n = true) (cmd : Byte) (addr sub : Nat) :
    Does (blockHeader n cmd addr sub) () (h.xacts cmd addr sub) Anything := by
  simp only [HeaderAnswer.ok, Bool.and_eq_true] at ok
  have := (does_piVerified ok.1.1.1 cmd).andThen ((does_piUnverified (n := n) ok.1.1.2 (addrHiByte addr)).andThen
    ((does_piUnverified (n := n) ok.1.2 (addrLoByte addr)).andThen (does_piVerified ok.2 (subBlockByte sub))))
  simpa [HeaderAnswer.xacts, blockHeader] using this

/-! ## Erase (R198 to R200) -/

theorem does_pageEraseBytes {n : Nat} {a : PageEraseAnswer} (h : a.ok n = true) (page : Byte) :
    Does (pageEraseBytes n page) () (a.xacts page) Anything := by
  simp only [PageEraseAnswer.ok, Bool.and_eq_true] at h
  have := (does_piVerified h.1.1 Config.piCodes.pageErase).andThen ((does_piVerified h.1.2 page).andThen
    (does_piVerified h.2 Config.eraseTerm))
  simpa [PageEraseAnswer.xacts, pageEraseBytes] using this

theorem does_erasePage {n : Nat} {erratum : Bit} {a : ErasePageAnswer} (h : a.ok n erratum = true)
    (fpdat page : Byte) : Does (erasePage n fpdat erratum page) () (a.xacts fpdat erratum page) Anything := by
  simp only [ErasePageAnswer.ok, Bool.and_eq_true, Bool.or_eq_true, Bool.not_eq_true'] at h
  cases erratum with
  | false =>
    have := (does_writeAr fpdat).andThen ((does_pageEraseBytes h.1 page).andThen (does_ret ()))
    simpa [ErasePageAnswer.xacts, erasePage] using this
  | true =>
    have h2 : a.restore.ok n = true := by simpa using h.2
    have := (does_writeAr fpdat).andThen ((does_pageEraseBytes h.1 page).andThen
      (does_writeDirect h2 fpdat Config.erratumReg Config.erratumVal))
    simpa [ErasePageAnswer.xacts, erasePage] using this

theorem does_deviceEraseBytes {n : Nat} {a : DeviceEraseAnswer} (h : a.ok n = true) :
    Does (deviceEraseBytes n) () a.xacts Anything := by
  simp only [DeviceEraseAnswer.ok, Bool.and_eq_true, decide_eq_true_eq] at h
  obtain ⟨⟨⟨⟨⟨h1, h2⟩, h3⟩, h4⟩, h5⟩, h6⟩ := h
  have := (does_piVerified h1 Config.piCodes.deviceErase).andThen ((does_piWrite h2 Config.eraseKey0).andThen
    ((does_piWrite h3 Config.eraseKey1).andThen ((does_piWrite h4 Config.eraseKey2).andThen (does_piCheckOk h5 h6))))
  simpa [DeviceEraseAnswer.xacts, deviceEraseBytes, Config.eraseKey0, Config.eraseKey1, Config.eraseKey2] using this

theorem does_eraseDevice {n : Nat} {a : DeviceEraseAnswer} (h : a.ok n = true) (fpdat : Byte) :
    Does (eraseDevice n fpdat) () (.wa fpdat :: a.xacts) Anything :=
  (does_writeAr fpdat).andThen (does_deviceEraseBytes h)

/-! ## Identification (R207, R208) -/

theorem does_memReadC2 (a r : Byte) {n : Nat} (h1 : 1 ≤ n) (h2 : n ≤ Config.waitTriesRd) :
    Does (memReadC2 a) r [.wa a, .rd r n] (fun t => t.shift = r) :=
  (does_writeAr a).andThen (does_readDr r h1 h2)

theorem does_memWriteC2 (a v : Byte) {n : Nat} (h1 : 1 ≤ n) (h2 : n ≤ Config.waitTriesWr) :
    Does (memWriteC2 a v) () [.wa a, .wd v n] Anything :=
  (does_writeAr a).andThen (does_writeDr v h1 h2)

theorem does_getDeviceInfo (id rev : Byte) {n m : Nat} (h1 : 1 ≤ n) (h2 : n ≤ Config.waitTriesRd) (h3 : 1 ≤ m)
    (h4 : m ≤ Config.waitTriesRd) :
    Does getDeviceInfo (id, rev) [.wa 0x00#8, .rd id n, .wa 0x01#8, .rd rev m] Anything :=
  (does_memReadC2 Config.arDeviceId id h1 h2).bind
    ((does_memReadC2 Config.arRevId rev h3 h4).bindRet (f := fun r => (id, r))).weaken

theorem does_getPiInfo {n : Nat} {a b : QueryAnswer} (ha : a.ok n = true) (hb : b.ok n = true) (fpdat : Byte) :
    Does (getPiInfo n fpdat) (a.val.value, b.val.value) (.wa fpdat :: (a.xacts 0x01#8 ++ b.xacts 0x02#8)) Anything :=
  (does_writeAr fpdat).andThen ((does_piQuery ha Config.piGetVersion).bind
    ((does_piQuery hb Config.piGetDerivative).bindRet (f := fun r => (a.val.value, r))).weaken)

/-! ## Reset and halt (R206): the one sequence that begins with the clock alone -/

/-- The events of the reset pulse. -/
def resetPulseEvents : List Event := [.ck false, .t Config.resetLow, .ck true, .t Config.tSettle]

theorem run_resetPulse (s : State) :
    resetPulse.run s = (.ok (), s.moved true s.dOe s.dOut s.shift s.bitcnt s.trycnt resetPulseEvents 0) := by
  rw [resetPulse, run_andThen_ok _ (run_ckSet _ _), run_andThen_ok _ (run_delay (by decide) _),
    run_andThen_ok _ (run_ckSet _ _), run_delay tSettle_ne_zero]
  simp [resetPulseEvents]

end Sys2Proof.Machine
end

