-- ==== Sys2Proof/Laws/Blocks.lean ====
section
/-! SUPPORT. The operations that move blocks between the target and the local memories (43_flash_block_ops.md R194 to R197,
44_page_write.md R220). -/

namespace Sys2Proof.Machine

variable {α β : Type}

/-! ## Lists of bytes in a memory -/

/-- Store a list of bytes from index `k` on. -/
def Memory.writeList : Memory → Nat → List Byte → Memory
  | m, _, [] => m
  | m, k, b :: bs => (m.write k b).writeList (k + 1) bs

theorem Memory.writeList_append (m : Memory) (k : Nat) (as bs : List Byte) :
    m.writeList k (as ++ bs) = (m.writeList k as).writeList (k + as.length) bs := by
  induction as generalizing m k with
  | nil => rfl
  | cons a as ih => simp [Memory.writeList, ih, Nat.add_assoc, Nat.add_comm 1]

theorem Memory.read_writeList (m : Memory) (k i : Nat) (bs : List Byte) :
    (m.writeList k bs).read i = if k ≤ i ∧ i < k + bs.length then bs[i - k]? else m.read i := by
  induction bs generalizing m k with
  | nil => rw [if_neg (by simp only [List.length_nil]; omega)]; rfl
  | cons b bs ih =>
    rw [Memory.writeList, ih, Memory.read_write]
    simp only [List.length_cons]
    by_cases h : i = k
    · subst h; rw [if_neg (by omega), if_pos rfl, if_pos (by omega)]; simp
    · by_cases h2 : k + 1 ≤ i ∧ i < k + 1 + bs.length
      · have h3 : i - k = i - (k + 1) + 1 := by omega
        rw [if_pos h2, if_pos (by omega), h3, List.getElem?_cons_succ]
      · rw [if_neg h2, if_neg h, if_neg (by omega)]

/-- How many of the `n` bytes from index `k` on hold no value. -/
def missing (m : Memory) : (k n : Nat) → Nat
  | _, 0 => 0
  | k, n + 1 => (if (m.read k).isSome then 0 else 1) + missing m (k + 1) n

@[simp] theorem length_loadedBytes (m : Memory) (fresh k n : Nat) : (loadedBytes m fresh k n).length = n := by
  induction n generalizing fresh k with
  | zero => rfl
  | succ n ih => unfold loadedBytes; split <;> simp [ih]

theorem loadedBytes_add (m : Memory) (fresh k a b : Nat) :
    loadedBytes m fresh k (a + b) =
      loadedBytes m fresh k a ++ loadedBytes m (fresh + missing m k a) (k + a) b := by
  induction a generalizing fresh k with
  | zero => simp [loadedBytes, missing]
  | succ a ih =>
    rw [show a + 1 + b = (a + b) + 1 by omega]
    simp only [loadedBytes, missing]
    have hk : k + (a + 1) = k + 1 + a := by omega
    split
    next h => simp [ih, h, hk]
    next h => simp [ih, h, hk, Nat.add_assoc]

theorem missing_add (m : Memory) (k a b : Nat) : missing m k (a + b) = missing m k a + missing m (k + a) b := by
  induction a generalizing k with
  | zero => simp [missing]
  | succ a ih =>
    rw [show a + 1 + b = (a + b) + 1 by omega]
    simp [missing, ih, Nat.add_assoc, Nat.add_comm 1]

/-- Where every byte holds a value, the bytes read are those. -/
theorem loadedBytes_of_full {m : Memory} {bs : List Byte} {k : Nat} (fresh : Nat)
    (h : ∀ i, (hi : i < bs.length) → m.read (k + i) = some bs[i]) :
    loadedBytes m fresh k bs.length = bs ∧ missing m k bs.length = 0 := by
  induction bs generalizing k with
  | nil => exact ⟨rfl, rfl⟩
  | cons b bs ih =>
    have h0 := h 0 (by simp)
    have ih := ih (k := k + 1) fun i hi => by
      have := h (i + 1) (by simpa using hi)
      rw [show k + 1 + i = k + (i + 1) by omega]
      simpa using this
    rw [Nat.add_zero] at h0
    simp only [List.getElem_cons_zero] at h0
    refine ⟨?_, ?_⟩
    · simp [loadedBytes, h0, ih.1]
    · simp [missing, h0, ih.2]

/-! ## Procedures that move bytes -/

/-- From `s` the procedure returns `v` in `t` with exactly `xs` on the wire. -/
def Goes (p : Prog α) (s : State) (v : α) (xs : List Xact) (t : State) : Prop := p.run s = (.ok v, t) ∧ OnWire s t xs

theorem Does.goes {p : Prog α} {v : α} {xs : List Xact} {Q : State → Prop} (h : Does p v xs Q) {s : State}
    (hi : LinesIdle s) (ha : Answers s xs) : ∃ t, Goes p s v xs t ∧ Quiet s t ∧ Q t := by
  obtain ⟨t, h1, h2, h3, h4⟩ := h s hi ha
  exact ⟨t, ⟨h1, h2⟩, h3, h4⟩

theorem Goes.bind {p : Prog α} {f : α → Prog β} {v : α} {w : β} {xs ys : List Xact} {s t u : State}
    (h : Goes p s v xs t) (g : Goes (f v) t w ys u) : Goes (p.bind f) s w (xs ++ ys) u :=
  ⟨by rw [run_bind_ok _ h.1, g.1], h.2.trans g.2⟩

theorem Goes.andThen {p : Prog α} {q : Prog β} {v : α} {w : β} {xs ys : List Xact} {s t u : State}
    (h : Goes p s v xs t) (g : Goes q t w ys u) : Goes (p.andThen q) s w (xs ++ ys) u :=
  h.bind g

/-- A failure of a part that follows one which returned. -/
theorem Goes.bindFail {p : Prog α} {f : α → Prog β} {v : α} {k : FailKind} {xs ys : List Xact} {s t : State}
    (h : Goes p s v xs t) (g : DoesFail (f v) k ys) (ha : Answers s (xs ++ ys)) :
    ∃ u, (p.bind f).run s = (.failed k, u) ∧ OnWire s u (xs ++ ys) ∧ Quiet t u := by
  obtain ⟨u, hu, hw, hq⟩ := g t h.2.idle (ha.right h.2)
  exact ⟨u, by rw [run_bind_ok _ h.1, hu], h.2.trans hw, hq⟩

theorem goes_ret (v : α) {s : State} (h : LinesIdle s) : Goes (.ret v) s v [] s := ⟨rfl, OnWire.refl h⟩

/-- A procedure that only touches memory puts nothing on the wire. -/
theorem onWire_nil {s t : State} (h : LinesIdle s) (ht : t.trace = s.trace) (hd : t.din = s.din)
    (hs : t.samples = s.samples) (hc : t.ck = s.ck) (ho : t.dOe = s.dOe) : OnWire s t [] := by
  simp_all [OnWire, OnWireEvents, LinesIdle, eventsOf, samplesOf]

/-- The bytes `bs` went to `dest` from index `k` on, and nothing else of the memories changed. -/
def Stored (dest : Dest) (s t : State) (k : Nat) (bs : List Byte) : Prop :=
  t.fresh = s.fresh ∧
    match dest with
    | .buf => t.buf = s.buf.writeList k bs ∧ t.scratch = s.scratch
    | .scratch => t.scratch = s.scratch.writeList k bs ∧ t.buf = s.buf
    | .null => t.buf = s.buf ∧ t.scratch = s.scratch

theorem Stored.nil (dest : Dest) (s : State) (k : Nat) : Stored dest s s k [] := by
  cases dest <;> simp [Stored, Memory.writeList]

theorem Stored.append {dest : Dest} {s t u : State} {k : Nat} {as bs : List Byte} (h : Stored dest s t k as)
    (g : Stored dest t u (k + as.length) bs) : Stored dest s u k (as ++ bs) := by
  cases dest <;> simp_all [Stored, Memory.writeList_append]

theorem Stored.of_quiet {dest : Dest} {s t u : State} {k : Nat} {bs : List Byte} (h : Quiet s t)
    (g : Stored dest t u k bs) : Stored dest s u k bs := by
  obtain ⟨h1, h2, h3⟩ := h
  cases dest <;> simp_all [Stored]

theorem goes_storeTo (dest : Dest) (k : Nat) (b : Byte) {s : State} (hi : LinesIdle s) :
    ∃ t, Goes (storeTo dest k b) s () [] t ∧ Stored dest s t k [b] := by
  cases dest with
  | buf => exact ⟨_, ⟨run_act _ _, onWire_nil hi rfl rfl rfl rfl rfl⟩, by simp [Stored, Memory.writeList, doPrim]⟩
  | scratch => exact ⟨_, ⟨run_act _ _, onWire_nil hi rfl rfl rfl rfl rfl⟩, by simp [Stored, Memory.writeList, doPrim]⟩
  | null => exact ⟨s, goes_ret () hi, by simp [Stored]⟩

/-- The data phase of a block read (R194). -/
theorem goes_readData {n : Nat} (dest : Dest) {gs : List Given} (hg : gs.all (·.ok n) = true) (k i : Nat) {s : State}
    (hi : LinesIdle s) (ha : Answers s (gs.flatMap Given.xacts)) :
    ∃ t, Goes (forUp (fun i => (piGet n).bind fun b => storeTo dest (k + i) b) gs.length i) s ()
      (gs.flatMap Given.xacts) t ∧ Stored dest s t (k + i) (gs.map Given.value) := by
  induction gs generalizing s i with
  | nil => exact ⟨s, goes_ret () hi, Stored.nil dest s _⟩
  | cons g gs ih =>
    simp only [List.all_cons, Bool.and_eq_true] at hg
    rw [List.flatMap_cons] at ha
    obtain ⟨t, ht, hq, -⟩ := (does_piGet hg.1).goes hi ha.left
    obtain ⟨u, hu, hst⟩ := goes_storeTo dest (k + i) g.value ht.2.idle
    obtain ⟨w, hw, hst2⟩ := ih hg.2 (i + 1) hu.2.idle ((ha.right ht.2).right (xs := []) hu.2)
    refine ⟨w, ?_, ?_⟩
    · have := (ht.bind hu).andThen hw
      simpa using this
    · have := (Stored.of_quiet hq hst).append (by simpa [Nat.add_assoc] using hst2)
      simpa using this

/-- One sub-block of a block read (R194). -/
theorem goes_readSubBlock {n sub : Nat} (dest : Dest) {a : ReadAnswer} (h : a.ok n sub = true) (addr k : Nat) {s : State}
    (hi : LinesIdle s) (ha : Answers s (a.xacts addr sub)) :
    ∃ t, Goes (readSubBlock n dest addr sub k) s () (a.xacts addr sub) t ∧
      Stored dest s t k (a.data.map Given.value) := by
  simp only [ReadAnswer.ok, Bool.and_eq_true, decide_eq_true_eq] at h
  obtain ⟨⟨h1, rfl⟩, h3⟩ := h
  obtain ⟨t, ht, hq, -⟩ := (does_blockHeader h1 Config.piCodes.blockRead addr a.data.length).goes hi ha.left
  obtain ⟨u, hu, hst⟩ := goes_readData dest h3 k 0 ht.2.idle (ha.right ht.2)
  exact ⟨u, ht.andThen hu, Stored.of_quiet hq hst⟩

theorem subSize_pos {length : Nat} (h : length ≠ 0) : 1 ≤ subSize length := by
  unfold subSize; split <;> simp_all [Config.subblockMax]; omega

theorem subSize_le (length : Nat) : subSize length ≤ length := by
  unfold subSize; split <;> simp_all [Config.subblockMax]; omega

theorem blockLoop_zero (body : (addr sub k : Nat) → Prog Unit) (fuel addr k : Nat) :
    blockLoop body fuel addr 0 k = .ret () := by
  cases fuel <;> simp [blockLoop]

/-- The loop of a block read (R194). -/
theorem goes_readLoop {n : Nat} (dest : Dest) {as : List ReadAnswer} {fuel addr length k : Nat}
    (h : readAnswersOk n length as = true) (hf : length ≤ fuel) {s : State} (hi : LinesIdle s)
    (ha : Answers s (readBlockXacts addr length as)) :
    ∃ t, Goes (blockLoop (readSubBlock n dest) fuel addr length k) s () (readBlockXacts addr length as) t ∧
      Stored dest s t k (readBytesOf as) ∧ (readBytesOf as).length = length := by
  induction as generalizing fuel addr length k s with
  | nil =>
    obtain rfl : length = 0 := by simpa [readAnswersOk] using h
    rw [blockLoop_zero]
    exact ⟨s, goes_ret () hi, Stored.nil dest s _, rfl⟩
  | cons a as ih =>
    simp only [readAnswersOk, Bool.and_eq_true, decide_eq_true_eq] at h
    obtain ⟨⟨h0, h1⟩, h2⟩ := h
    have hp := subSize_pos h0
    have hl := subSize_le length
    obtain ⟨m, rfl⟩ : ∃ m, fuel = m + 1 := ⟨fuel - 1, by omega⟩
    rw [blockLoop, if_neg h0]
    obtain ⟨t, ht, hst⟩ := goes_readSubBlock dest h1 addr k hi ha.left
    obtain ⟨u, hu, hst2, hlen⟩ := ih (fuel := m) (addr := addr + subSize length) (k := k + subSize length) h2 (by omega)
      ht.2.idle (ha.right ht.2)
    have hd : a.data.length = subSize length := by
      simp only [ReadAnswer.ok, Bool.and_eq_true, decide_eq_true_eq] at h1
      exact h1.1.2
    refine ⟨u, ht.andThen hu, ?_, ?_⟩
    · exact hst.append (bs := readBytesOf as) (by simpa [hd] using hst2)
    · have : (readBytesOf (a :: as)).length = a.data.length + (readBytesOf as).length := by simp [readBytesOf]
      omega

/-- `block_read` (R194). -/
theorem goes_blockRead {n : Nat} (fpdat : Byte) (dest : Dest) {as : List ReadAnswer} {addr length : Nat}
    (h : readAnswersOk n length as = true) {s : State} (hi : LinesIdle s)
    (ha : Answers s (.wa fpdat :: readBlockXacts addr length as)) :
    ∃ t, Goes (blockRead n fpdat addr length dest) s () (.wa fpdat :: readBlockXacts addr length as) t ∧
      Stored dest s t 0 (readBytesOf as) ∧ (readBytesOf as).length = length := by
  obtain ⟨t, ht, hq, -⟩ := (does_writeAr fpdat).goes hi (Answers.left (ys := readBlockXacts addr length as) ha)
  obtain ⟨u, hu, hst, hlen⟩ := goes_readLoop dest (k := 0) h (Nat.le_refl _) ht.2.idle
    (Answers.right (xs := [.wa fpdat]) ha ht.2)
  exact ⟨u, ht.andThen hu, Stored.of_quiet hq hst, hlen⟩

/-! ## Block write (R195) -/

/-- The memory a block write takes its bytes from. -/
def Source.memory (src : Source) (s : State) : Memory :=
  match src with
  | .buf => s.buf
  | .scratch => s.scratch

/-- The memories are the same, and `n` free values were drawn. -/
def Drew (s t : State) (n : Nat) : Prop := t.buf = s.buf ∧ t.scratch = s.scratch ∧ t.fresh = s.fresh + n

theorem Drew.trans {s t u : State} {n m : Nat} (h : Drew s t n) (g : Drew t u m) : Drew s u (n + m) := by
  obtain ⟨h1, h2, h3⟩ := h
  obtain ⟨g1, g2, g3⟩ := g
  exact ⟨by rw [g1, h1], by rw [g2, h2], by omega⟩

theorem Quiet.drew {s t : State} (h : Quiet s t) : Drew s t 0 := h

theorem Drew.memory {s t : State} {n : Nat} (h : Drew s t n) (src : Source) : src.memory t = src.memory s := by
  cases src
  · exact h.1
  · exact h.2.1

theorem Goes.of_fresh {s t : State} (hi : LinesIdle s) (h : t = { s with fresh := t.fresh }) : OnWire s t [] := by
  rw [h]; exact onWire_nil hi rfl rfl rfl rfl rfl

/-- A load answers the first of the bytes read from its index on. -/
theorem goes_loadFrom (src : Source) (k n : Nat) {s : State} (hi : LinesIdle s) :
    ∃ b t, Goes (loadFrom src k) s b [] t ∧ Drew s t (missing (src.memory s) k 1) ∧
      loadedBytes (src.memory s) s.fresh k (n + 1) =
        b :: loadedBytes (src.memory s) (s.fresh + missing (src.memory s) k 1) (k + 1) n := by
  have main : ∀ m : Memory, Drew s (s.readCell m k).1 (missing m k 1) ∧
      loadedBytes m s.fresh k (n + 1) =
        (s.readCell m k).2 :: loadedBytes m (s.fresh + missing m k 1) (k + 1) n := by
    intro m
    simp only [State.readCell, missing, loadedBytes]
    cases hm : m.read k <;> simp [Drew]
  cases src with
  | buf => exact ⟨_, _, ⟨rfl, Goes.of_fresh hi (readCell_fst s s.buf k)⟩, main s.buf⟩
  | scratch => exact ⟨_, _, ⟨rfl, Goes.of_fresh hi (readCell_fst s s.scratch k)⟩, main s.scratch⟩

/-- The data phase of a block write (R195). -/
theorem goes_writeData {n : Nat} (src : Source) {ts : List Taken} (hg : ts.all Taken.ok = true) (k i : Nat) {s : State}
    (hi : LinesIdle s)
    (ha : Answers s ((ts.zip (loadedBytes (src.memory s) s.fresh (k + i) ts.length)).flatMap fun x => x.1.xacts x.2)) :
    ∃ t, Goes (forUp (fun i => (loadFrom src (k + i)).bind fun b => piUnverified n b) ts.length i) s ()
      ((ts.zip (loadedBytes (src.memory s) s.fresh (k + i) ts.length)).flatMap fun x => x.1.xacts x.2) t ∧
      Drew s t (missing (src.memory s) (k + i) ts.length) := by
  induction ts generalizing s i with
  | nil => exact ⟨s, goes_ret () hi, by simp [Drew, missing]⟩
  | cons a ts ih =>
    simp only [List.all_cons, Bool.and_eq_true] at hg
    obtain ⟨b, t, ht, hd, hb⟩ := goes_loadFrom src (k + i) ts.length hi
    rw [List.length_cons, hb, List.zip_cons_cons, List.flatMap_cons] at ha ⊢
    have ha2 := Answers.right (xs := []) ha ht.2
    obtain ⟨u, hu, hq, -⟩ := (does_piUnverified (n := n) hg.1 b).goes ht.2.idle ha2.left
    have hdu := hd.trans hq.drew
    have hm := hdu.memory src
    have hfresh : u.fresh = s.fresh + missing (src.memory s) (k + i) 1 := hdu.2.2
    obtain ⟨w, hw, hd2⟩ := ih hg.2 (i + 1) hu.2.idle (by
      rw [hm, hfresh]
      exact ha2.right hu.2)
    rw [hm, hfresh] at hw
    rw [hm] at hd2
    refine ⟨w, ?_, ?_⟩
    · exact (ht.bind hu).andThen hw
    · have := hdu.trans hd2
      rw [Nat.add_comm ts.length 1, missing_add]
      exact this

/-- One sub-block of a block write (R195). -/
theorem goes_writeSubBlock {n sub : Nat} (src : Source) {a : WriteAnswer} (h : a.ok n sub = true) (addr k : Nat)
    {s : State} (hi : LinesIdle s)
    (ha : Answers s (a.xacts addr sub (loadedBytes (src.memory s) s.fresh k sub))) :
    ∃ t, Goes (writeSubBlock n src addr sub k) s () (a.xacts addr sub (loadedBytes (src.memory s) s.fresh k sub)) t ∧
      Drew s t (missing (src.memory s) k sub) := by
  simp only [WriteAnswer.ok, Bool.and_eq_true, decide_eq_true_eq] at h
  obtain ⟨⟨h1, rfl⟩, h3⟩ := h
  obtain ⟨t, ht, hq, -⟩ := (does_blockHeader h1 Config.piCodes.blockWrite addr a.data.length).goes hi ha.left
  have hm := hq.drew.memory src
  obtain ⟨u, hu, hd⟩ := goes_writeData (n := n) src h3 k 0 ht.2.idle (by
    rw [hm, hq.2.2]
    exact ha.right ht.2)
  rw [hm, hq.2.2] at hu
  rw [hm] at hd
  exact ⟨u, ht.andThen hu, by simpa using hq.drew.trans hd⟩

/-- The loop of a block write (R195). -/
theorem goes_writeLoop {n : Nat} (src : Source) {as : List WriteAnswer} {fuel addr length k : Nat}
    (h : writeAnswersOk n length as = true) (hf : length ≤ fuel) {s : State} (hi : LinesIdle s)
    (ha : Answers s (writeBlockXacts addr length (loadedBytes (src.memory s) s.fresh k length) as)) :
    ∃ t, Goes (blockLoop (writeSubBlock n src) fuel addr length k) s ()
      (writeBlockXacts addr length (loadedBytes (src.memory s) s.fresh k length) as) t ∧
      Drew s t (missing (src.memory s) k length) := by
  induction as generalizing fuel addr length k s with
  | nil =>
    obtain rfl : length = 0 := by simpa [writeAnswersOk] using h
    rw [blockLoop_zero]
    exact ⟨s, goes_ret () hi, by simp [Drew, missing]⟩
  | cons a as ih =>
    simp only [writeAnswersOk, Bool.and_eq_true, decide_eq_true_eq] at h
    obtain ⟨⟨h0, h1⟩, h2⟩ := h
    have hp := subSize_pos h0
    have hl := subSize_le length
    obtain ⟨m, rfl⟩ : ∃ m, fuel = m + 1 := ⟨fuel - 1, by omega⟩
    rw [blockLoop, if_neg h0]
    obtain ⟨r, hr⟩ : ∃ r, length = subSize length + r := ⟨length - subSize length, by omega⟩
    have hsplit : loadedBytes (src.memory s) s.fresh k length =
        loadedBytes (src.memory s) s.fresh k (subSize length) ++
          loadedBytes (src.memory s) (s.fresh + missing (src.memory s) k (subSize length)) (k + subSize length)
            (length - subSize length) := by
      rw [show length - subSize length = r by omega, ← loadedBytes_add, ← hr]
    have htake := List.take_left' (l₁ := loadedBytes (src.memory s) s.fresh k (subSize length))
      (l₂ := loadedBytes (src.memory s) (s.fresh + missing (src.memory s) k (subSize length)) (k + subSize length)
        (length - subSize length)) (length_loadedBytes _ _ _ _)
    have hdrop := List.drop_left' (l₁ := loadedBytes (src.memory s) s.fresh k (subSize length))
      (l₂ := loadedBytes (src.memory s) (s.fresh + missing (src.memory s) k (subSize length)) (k + subSize length)
        (length - subSize length)) (length_loadedBytes _ _ _ _)
    rw [writeBlockXacts, hsplit, htake, hdrop] at ha ⊢
    obtain ⟨t, ht, hd⟩ := goes_writeSubBlock src h1 addr k hi ha.left
    have hm := hd.memory src
    have hfresh := hd.2.2
    obtain ⟨u, hu, hd2⟩ := ih (fuel := m) (addr := addr + subSize length) (k := k + subSize length) h2 (by omega)
      ht.2.idle (by rw [hm, hfresh]; exact ha.right ht.2)
    rw [hm, hfresh] at hu
    rw [hm] at hd2
    refine ⟨u, ht.andThen hu, ?_⟩
    have := hd.trans hd2
    rwa [← missing_add, show subSize length + (length - subSize length) = length by omega] at this

/-- `block_write` (R195). -/
theorem goes_blockWrite {n : Nat} (fpdat : Byte) (src : Source) {as : List WriteAnswer} {addr length : Nat}
    (h : writeAnswersOk n length as = true) {s : State} (hi : LinesIdle s)
    (ha : Answers s (.wa fpdat :: writeBlockXacts addr length (loadedBytes (src.memory s) s.fresh 0 length) as)) :
    ∃ t, Goes (blockWrite n fpdat addr length src) s ()
      (.wa fpdat :: writeBlockXacts addr length (loadedBytes (src.memory s) s.fresh 0 length) as) t ∧
      Drew s t (missing (src.memory s) 0 length) := by
  obtain ⟨t, ht, hq, -⟩ := (does_writeAr fpdat).goes hi
    (Answers.left (ys := writeBlockXacts addr length (loadedBytes (src.memory s) s.fresh 0 length) as) ha)
  have hm := hq.drew.memory src
  obtain ⟨u, hu, hd⟩ := goes_writeLoop src (k := 0) h (Nat.le_refl _) ht.2.idle (by
    rw [hm, hq.2.2]
    exact Answers.right (xs := [.wa fpdat]) ha ht.2)
  rw [hm, hq.2.2] at hu
  rw [hm] at hd
  exact ⟨u, ht.andThen hu, by simpa using hq.drew.trans hd⟩

/-! ## Page write (44_page_write.md R220) -/

/-- The overlay: the bytes read from BUF go to SCRATCH from `start` on (R220 step 4). -/
theorem goes_overlay (start n i : Nat) {s : State} (hi : LinesIdle s) :
    ∃ t, Goes (forUp (fun i => .prim (.loadBuf i) fun b => act (.storeScratch (start + i) b)) n i) s () [] t ∧
      t.buf = s.buf ∧ t.scratch = s.scratch.writeList (start + i) (loadedBytes s.buf s.fresh i n) ∧
      t.fresh = s.fresh + missing s.buf i n := by
  induction n generalizing s i with
  | zero => exact ⟨s, goes_ret () hi, rfl, rfl, rfl⟩
  | succ n ih =>
    have hload : ∃ b u, (doPrim (.loadBuf i) s) = (u, b) ∧ u = { s with fresh := s.fresh + missing s.buf i 1 } ∧
        loadedBytes s.buf s.fresh i (n + 1) = b :: loadedBytes s.buf (s.fresh + missing s.buf i 1) (i + 1) n := by
      simp only [doPrim, State.readCell, missing, loadedBytes]
      cases hm : s.buf.read i
      · exact ⟨_, _, rfl, rfl, rfl⟩
      · exact ⟨_, _, rfl, rfl, rfl⟩
    obtain ⟨b, u, h1, h2, h3⟩ := hload
    have hgo : Goes (.prim (.loadBuf i) fun b => act (.storeScratch (start + i) b)) s () []
        { u with scratch := u.scratch.write (start + i) b } := by
      refine ⟨by rw [run_prim, h1]; rfl, ?_⟩
      rw [h2]
      exact onWire_nil hi rfl rfl rfl rfl rfl
    obtain ⟨w, hw, hb, hs, hf⟩ := ih (i + 1) (s := { u with scratch := u.scratch.write (start + i) b }) hgo.2.idle
    refine ⟨w, hgo.andThen hw, ?_, ?_, ?_⟩
    · rw [hb, h2]
    · rw [hs, h3, h2]
      simp [Memory.writeList, Nat.add_assoc]
    · rw [hf, h2, show n + 1 = 1 + n by omega, missing_add, Nat.add_assoc]

theorem length_pageImage {old src : List Byte} {start p : Nat} (ho : old.length = p ∨ (start = 0 ∧ src.length = p ∧ old = []))
    (h : start + src.length ≤ p) : (pageImage old start src).length = p := by
  rcases ho with ho | ⟨rfl, hs, rfl⟩
  · simp [pageImage, ho]; omega
  · simp [pageImage, hs]

/-- Laying bytes over a full page image gives the page image. -/
theorem read_overlay {m : Memory} {old src : List Byte} {start : Nat} (h : start + src.length ≤ old.length)
    (hm : ∀ i < old.length, m.read i = old[i]?) (i : Nat) (hi : i < old.length) :
    (m.writeList start src).read i = (pageImage old start src)[i]? := by
  have ht : (old.take start).length = start := by simp; omega
  rw [Memory.read_writeList]
  unfold pageImage
  by_cases h1 : start ≤ i ∧ i < start + src.length
  · rw [if_pos h1, List.getElem?_append_left (by simp; omega), List.getElem?_append_right (by omega), ht]
  · rw [if_neg h1, hm i hi]
    by_cases h2 : i < start
    · rw [List.getElem?_append_left (by simp; omega), List.getElem?_append_left (by omega),
        List.getElem?_take_of_lt h2]
    · rw [List.getElem?_append_right (by simp; omega), List.getElem?_drop]
      congr 1
      simp; omega

theorem chunk_window {addr length p : Nat} (hp : 0 < p) : chunkStart addr p + chunkLen addr length p ≤ p := by
  have h := Nat.mod_lt addr hp
  have h2 := Nat.div_add_mod addr p
  simp only [chunkStart, chunkLen, pageBase, pageOf]
  rw [Nat.mul_comm] at h2
  omega

theorem chunk_whole {addr length p : Nat} (h : readsFirst addr length p = false) :
    chunkStart addr p = 0 ∧ chunkLen addr length p = p := by
  simp only [readsFirst, Bool.or_eq_false_iff, decide_eq_false_iff_not, Nat.not_lt, ne_eq, Decidable.not_not] at h
  simp [chunkLen, h.1, h.2]

/-- `flash_chunk` (R220). -/
theorem goes_flashChunk {n : Nat} (fpdat : Byte) (erratum : Bit) {addr length p : Nat} (hp : 0 < p) {a : ChunkAnswer}
    (ok : a.ok n erratum (readsFirst addr length p) p = true) {s : State} (hi : LinesIdle s)
    (ha : Answers s (a.xacts fpdat erratum (readsFirst addr length p) (pageOf addr p) (pageBase addr p) p
      (chunkImage a s addr length p))) :
    ∃ t, Goes (flashChunk n fpdat erratum addr length p) s (chunkLen addr length p)
        (a.xacts fpdat erratum (readsFirst addr length p) (pageOf addr p) (pageBase addr p) p
          (chunkImage a s addr length p)) t ∧
      t.buf = s.buf ∧ (chunkImage a s addr length p).length = p ∧
      ∀ i, t.scratch.read i = if i < p then (chunkImage a s addr length p)[i]? else s.scratch.read i := by
  simp only [ChunkAnswer.ok, Bool.and_eq_true, Bool.or_eq_true, Bool.not_eq_true'] at ok
  obtain ⟨⟨h1, h2⟩, h3⟩ := ok
  have hwin := chunk_window (addr := addr) (length := length) hp
  rw [ChunkAnswer.xacts, List.append_assoc] at ha ⊢
  -- step 3: the page read
  have step3 : ∃ t, Goes (if readsFirst addr length p then blockRead n fpdat (pageBase addr p) p .scratch else .ret ()) s ()
      (if readsFirst addr length p then .wa fpdat :: readBlockXacts (pageBase addr p) p a.read else []) t ∧
      t.buf = s.buf ∧ t.fresh = s.fresh ∧
      ((chunkImage a s addr length p).length = p ∧ ∀ i, (t.scratch.writeList (chunkStart addr p)
        (chunkSource s addr length p)).read i =
          if i < p then (chunkImage a s addr length p)[i]? else s.scratch.read i) := by
    cases hr : readsFirst addr length p with
    | true =>
      rw [hr] at ha h1
      simp only [if_pos] at ha ⊢
      obtain ⟨t, ht, hst, hlen⟩ := goes_blockRead (n := n) fpdat .scratch (as := a.read)
        (h1.resolve_left (by simp)) hi ha.left
      have hold : chunkOld a addr length p = readBytesOf a.read := by simp [chunkOld, hr]
      have hfit : chunkStart addr p + (chunkSource s addr length p).length ≤ (readBytesOf a.read).length := by
        rw [hlen, chunkSource, length_loadedBytes]; exact hwin
      have himg : (chunkImage a s addr length p).length = p := by
        rw [chunkImage, hold]; exact length_pageImage (.inl hlen) (hlen ▸ hfit)
      refine ⟨t, ht, hst.2.2, hst.1, himg, fun i => ?_⟩
      by_cases hip : i < p
      · rw [if_pos hip, chunkImage, hold]
        refine read_overlay hfit (fun j hj => ?_) i (by omega)
        rw [hst.2.1, Memory.read_writeList, if_pos (by omega), Nat.sub_zero]
      · rw [if_neg hip, Memory.read_writeList, if_neg (by rw [hlen] at hfit; omega), hst.2.1, Memory.read_writeList,
          if_neg (by omega)]
    | false =>
      simp only [Bool.false_eq_true, if_false]
      obtain ⟨w1, w2⟩ := chunk_whole hr
      have hold : chunkOld a addr length p = [] := by simp [chunkOld, hr]
      have himg : chunkImage a s addr length p = chunkSource s addr length p := by
        simp [chunkImage, hold, w1, pageImage]
      have hsl : (chunkSource s addr length p).length = p := by rw [chunkSource, length_loadedBytes, w2]
      refine ⟨s, goes_ret () hi, rfl, rfl, by rw [himg, hsl], fun i => ?_⟩
      rw [himg, Memory.read_writeList, w1, hsl]
      simp
  obtain ⟨t, ht, hbuf, hfresh, himg, hscr⟩ := step3
  -- step 4: the overlay
  obtain ⟨u, hu, ub, us, uf⟩ := goes_overlay (chunkStart addr p) (chunkLen addr length p) 0 ht.2.idle
  have hus : ∀ i, u.scratch.read i =
      if i < p then (chunkImage a s addr length p)[i]? else s.scratch.read i := by
    intro i
    rw [us, hbuf, hfresh]
    exact hscr i
  -- step 5: the erase
  have ha5 := Answers.right (xs := []) (ha.right ht.2) hu.2
  obtain ⟨v, hv, vq, -⟩ := (does_erasePage h2 fpdat (BitVec.ofNat 8 (pageOf addr p))).goes hu.2.idle ha5.left
  have hvs : ∀ i, v.scratch.read i =
      if i < p then (chunkImage a s addr length p)[i]? else s.scratch.read i := by
    intro i; rw [vq.2.1]; exact hus i
  -- step 6: the page write
  have hfull := loadedBytes_of_full (m := v.scratch) (bs := chunkImage a s addr length p) (k := 0) v.fresh fun i hi' => by
    rw [Nat.zero_add, hvs i, if_pos (by omega), List.getElem?_eq_getElem hi']
  rw [himg] at hfull
  have ha6 := Answers.right (xs := a.erase.xacts fpdat erratum (BitVec.ofNat 8 (pageOf addr p))) ha5 hv.2
  obtain ⟨w, hw, wd⟩ := goes_blockWrite (n := n) fpdat .scratch h3 hv.2.idle (by
    simp only [Source.memory]; rw [hfull.1]; exact ha6)
  simp only [Source.memory, hfull.1] at hw
  refine ⟨w, ?_, ?_, himg, fun i => ?_⟩
  · have := ht.andThen (hu.andThen (hv.andThen (hw.andThen (goes_ret (chunkLen addr length p) hw.2.idle))))
    simpa [flashChunk, overlay] using this
  · rw [wd.1, vq.1, ub, hbuf]
  · rw [wd.2.1]; exact hvs i

end Sys2Proof.Machine
end

