-- ==== Sys2Proof/Laws/Status.lean ====
section
/-! SUPPORT. The fields of STATUS after each update of it (10_state.md R29), and what the start and the end of an operation
leave. -/

namespace Sys2Proof.Machine

/-! ## STATUS -/

@[simp] theorem statusBusy_start (st : Byte) : statusBusy (statusStart st) = true := by
  simp [statusBusy, statusStart]
@[simp] theorem statusDone_start (st : Byte) : statusDone (statusStart st) = false := by
  revert st; decide
@[simp] theorem statusErr_start (st : Byte) : statusErr (statusStart st) = 0#3 := by
  revert st; decide
@[simp] theorem statusInfoValid_start (st : Byte) : statusInfoValid (statusStart st) = statusInfoValid st := by
  revert st; decide
@[simp] theorem statusPiInfoValid_start (st : Byte) : statusPiInfoValid (statusStart st) = statusPiInfoValid st := by
  revert st; decide
theorem status7_start (st : Byte) : (statusStart st).getLsbD 7 = false := by
  revert st; decide

/-- `statusEnd` looks at bits 6:5 of STATUS only. -/
theorem statusEnd_and (st : Byte) (err : BitVec 3) : statusEnd st err = statusEnd (st &&& 0x60#8) err := by
  simp [statusEnd, BitVec.and_assoc]

@[simp] theorem statusBusy_end (st : Byte) (err : BitVec 3) : statusBusy (statusEnd st err) = false := by
  simp [statusBusy, statusEnd]
@[simp] theorem statusDone_end (st : Byte) (err : BitVec 3) : statusDone (statusEnd st err) = true := by
  simp [statusDone, statusEnd]
@[simp] theorem statusErr_end (st : Byte) (err : BitVec 3) : statusErr (statusEnd st err) = err := by
  apply BitVec.eq_of_getLsbD_eq
  intro i hi
  match i, hi with
  | 0, _ | 1, _ | 2, _ => simp [statusErr, statusEnd]
@[simp] theorem statusInfoValid_end (st : Byte) (err : BitVec 3) :
    statusInfoValid (statusEnd st err) = statusInfoValid st := by
  simp [statusInfoValid, statusEnd]
@[simp] theorem statusPiInfoValid_end (st : Byte) (err : BitVec 3) :
    statusPiInfoValid (statusEnd st err) = statusPiInfoValid st := by
  simp [statusPiInfoValid, statusEnd]
theorem status7_end (st : Byte) (err : BitVec 3) : (statusEnd st err).getLsbD 7 = false := by
  simp [statusEnd]

@[simp] theorem statusInfoValid_set (st : Byte) : statusInfoValid (setInfoValid st) = true := by
  revert st; decide
@[simp] theorem statusPiInfoValid_setInfo (st : Byte) : statusPiInfoValid (setInfoValid st) = statusPiInfoValid st := by
  revert st; decide
@[simp] theorem statusPiInfoValid_set (st : Byte) : statusPiInfoValid (setPiInfoValid st) = true := by
  revert st; decide
@[simp] theorem statusInfoValid_setPi (st : Byte) : statusInfoValid (setPiInfoValid st) = statusInfoValid st := by
  revert st; decide

/-! ## The start and the end of an operation -/

/-- What an operation that ended with `err` shows of itself. -/
theorem ended_finish (s : State) (err : BitVec 3) :
    EndedWith (s.finish err) err (statusInfoValid s.status) (statusPiInfoValid s.status) :=
  ⟨rfl, by simp, by simp, by simp, by simp, by simp, status7_end _ _⟩

theorem sameInputs_of_samePort {s t : State} (h : SamePort s t) : SameInputs s t := h.2.2.2.1

end Sys2Proof.Machine
end

