-- ==== Sys2Proof/Laws/Commands.lean ====
section
/-! SUPPORT. How an operation of the command port and a call of a lower layer begin and end (45_host_commands.md R235, R237;
60_exceptions.md R255, R259). -/

namespace Sys2Proof.Machine

variable {α : Type}

/-! ## Starting -/

@[simp] theorem line_start (s : State) (op : Byte) (k : Nat) : (s.start op).line k = s.line k := rfl

theorem linesIdle_start {s : State} (h : LinesIdle s) (op : Byte) : LinesIdle (s.start op) := h

theorem answers_start {s : State} {xs : List Xact} (h : Answers s xs) (op : Byte) : Answers (s.start op) xs := h

/-! ## Ending -/

/-- What success leaves of the wire and of what it does not write. -/
theorem succeed_onWire {s t : State} {op : Byte} {es : List Event} {n : Nat} (r : Results)
    (h : OnWireEvents (s.start op) t es n) : OnWireEvents s (t.succeed r) es n := h

theorem fail_onWire {s t : State} {op : Byte} {es : List Event} {n : Nat} (k : FailKind) (d : Bool)
    (h : OnWireEvents (s.start op) t es n) : OnWireEvents s (t.fail k d) es n := h

/-- Success without a capture. -/
theorem succeeded {s t : State} {op : Byte} {r : Results} (h : SamePort (s.start op) t) (hd : r.device = none)
    (hp : r.pi = none) : Succeeded s (t.succeed r) := by
  obtain ⟨-, hst, -, hin, -, hdev, hpi⟩ := h
  have hst' : (((t.putResults r).capture r.device).capturePi r.pi).status = statusStart s.status := by
    rw [hd, hp]; simpa using hst
  refine ⟨⟨rfl, by simp, by simp, by simp, ?_, ?_, by rw [State.succeed_status]; exact status7_end _ _⟩, ?_, ?_, ?_⟩
  · rw [State.succeed_status, hst']; simp
  · rw [State.succeed_status, hst']; simp
  · simpa [SameInputs, SameOperands, SameConfig, SameOutside] using hin
  · simpa [SameDevice, hd] using hdev
  · simpa [SamePi, hp] using hpi

/-- The failure of a command that had started (R237, R255, R259). -/
theorem failedWith {s t : State} {op : Byte} (h : SamePort (s.start op) t) (k : FailKind) (d : Bool)
    (hb : d = false → SameBuf s t) : FailedWith s (t.fail k d) k d := by
  obtain ⟨-, hst, -, hin, -, hdev, hpi⟩ := h
  have hst : t.status = statusStart s.status := hst
  refine ⟨⟨rfl, by simp, by simp, by simp, ?_, ?_, by rw [State.fail_status]; exact status7_end _ _⟩, ?_, ?_, ?_,
    fun i => rfl, ?_⟩
  · rw [State.fail_status, hst]; simp
  · rw [State.fail_status, hst]; simp
  · simpa [SameInputs, SameOperands, SameConfig, SameOutside] using hin
  · simpa [SameDevice] using hdev
  · simpa [SamePi] using hpi
  · cases d with
    | true => simp
    | false => simpa [SameBuf] using hb rfl

/-! ## Whole commands -/

theorem runOperation_goes {op : Byte} {o : Operation} {s t : State} {v : Results} {xs : List Xact}
    (hb : s.busy = false) (ha : o.admission (s.start op) = none) (h : Goes (o.prog (s.start op)) (s.start op) v xs t) :
    runOperation op o s = t.succeed v := by
  simp [runOperation, hb, ha, h.1, conclude]

/-- A command that returns no capture and leaves the memories as they read. -/
theorem command_goes {op : Byte} {o : Operation} {s t : State} {v : Results} {xs : List Xact}
    (hb : s.busy = false) (ha : o.admission (s.start op) = none) (h : Goes (o.prog (s.start op)) (s.start op) v xs t)
    (hd : v.device = none) (hp : v.pi = none) (hbuf : SameBuf s t) (hscr : SameScratch s t) :
    CommandDone s (runOperation op o s) xs := by
  rw [runOperation_goes hb ha h]
  exact ⟨succeed_onWire v h.2, succeeded (run_samePort_of h.1) hd hp, hbuf, hscr⟩

/-- A command whose procedure leaves the memories alone, against a target that answers as it needs. -/
theorem command_does {op : Byte} {o : Operation} {s : State} {v : Results} {xs : List Xact} {Q : State → Prop}
    (hi : LinesIdle s) (hb : s.busy = false) (ha : o.admission (s.start op) = none) (hans : Answers s xs)
    (hd : Does (o.prog (s.start op)) v xs Q) (hdev : v.device = none) (hpi : v.pi = none) :
    CommandDone s (runOperation op o s) xs ∧ (∀ b, v.res0 = some b → (runOperation op o s).res0 = b) := by
  obtain ⟨t, ht, hq, -⟩ := hd.goes (linesIdle_start hi op) (answers_start hans op)
  refine ⟨command_goes hb ha ht hdev hpi (fun i => by rw [hq.1]; rfl) (fun i => by rw [hq.2.1]; rfl), fun b h => ?_⟩
  rw [runOperation_goes hb ha ht, State.succeed_res0, h, Option.getD_some]

/-- A command whose procedure fails: taken as every failure is (R255, R259), BUF as the procedure left it unless it was the
destination. -/
theorem command_runFails {op : Byte} {o : Operation} {s t : State} {k : FailKind} {es : List Event} {n : Nat}
    (hb : s.busy = false) (ha : o.admission (s.start op) = none)
    (hr : (o.prog (s.start op)).run (s.start op) = (.failed k, t)) (hw : OnWireEvents (s.start op) t es n)
    (hbuf : t.buf = s.buf) :
    OnWireEvents s (runOperation op o s) es n ∧ FailedWith s (runOperation op o s) k (s.start op).bufIsDest := by
  have hp := run_samePort_of hr
  have hd : t.bufIsDest = (s.start op).bufIsDest := by
    have h1 : t.cmd = (s.start op).cmd := hp.1
    have h2 : t.flags = (s.start op).flags := hp.2.2.2.1.1.2.2.2.2
    unfold State.bufIsDest
    rw [h1, h2]
  have he : runOperation op o s = t.fail k (s.start op).bufIsDest := by
    simp [runOperation, hb, ha, hr, conclude, hd]
  rw [he]
  exact ⟨fail_onWire k _ hw, failedWith hp k _ fun _ i => by rw [hbuf]⟩

/-- A command whose procedure fails and leaves the memories alone. -/
theorem command_fails {op : Byte} {o : Operation} {s t : State} {k : FailKind} {es : List Event} {n : Nat}
    (hb : s.busy = false) (ha : o.admission (s.start op) = none)
    (h : Fails (o.prog (s.start op)) (s.start op) k es n t) :
    OnWireEvents s (runOperation op o s) es n ∧ FailedWith s (runOperation op o s) k (s.start op).bufIsDest :=
  command_runFails hb ha h.1 h.2.1 h.2.2.1

/-- An operation with no admission check of its own and no need of a family is admitted. -/
theorem admit_free {o : Operation} (hf : o.needsFamily = false) (hc : ∀ s, o.checks s = []) (s : State) :
    o.admission s = none := by
  simp [Operation.admission, firstFailure, hf, hc]

/-- An operation with no admission check of its own is admitted once a family is selected. -/
theorem admit_family {o : Operation} (hc : ∀ s, o.checks s = []) {s : State} (h : ctlFamilyValid s.familyCtl = true) :
    o.admission s = none := by
  simp [Operation.admission, firstFailure, h, hc]

/-! ## Calls of a layer -/

theorem layerCall_ok {p : Prog α} {d : Bool} {s t : State} {v : α} (hb : s.busy = false) (h : p.run s = (.ok v, t)) :
    layerCall p d s = t := by
  simp [layerCall, hb, h]

theorem layerCall_failed {p : Prog α} {d : Bool} {s t : State} {k : FailKind} (hb : s.busy = false)
    (h : p.run s = (.failed k, t)) : layerCall p d s = t.fail k d := by
  simp [layerCall, hb, h]

theorem layer_does {p : Prog α} {d : Bool} {s : State} {v : α} {xs : List Xact} {Q : State → Prop}
    (hi : LinesIdle s) (hb : s.busy = false) (ha : Answers s xs) (h : Does p v xs Q) :
    LayerDone s (layerCall p d s) xs ∧ Q (layerCall p d s) := by
  obtain ⟨t, h1, h2, h3, h4⟩ := h s hi ha
  rw [layerCall_ok hb h1]
  exact ⟨⟨h2, run_samePort_of h1, fun i => by rw [h3.1], fun i => by rw [h3.2.1]⟩, h4⟩

/-- A busy core runs no command. -/
theorem runOperation_busy {s : State} (h : s.busy = true) (op : Byte) (o : Operation) : runOperation op o s = s := by
  rw [runOperation, if_pos h]

/-- A busy core makes no layer call (log 9). -/
theorem layerCall_busy {α : Type} {s : State} (h : s.busy = true) (p : Prog α) (bufWasDest : Bool) :
    layerCall p bufWasDest s = s := by
  rw [layerCall, if_pos h]

/-- The failure of a layer call (log 9). -/
theorem layer_failedWith {s t : State} (h : SamePort s t) (k : FailKind) (d : Bool) (hb : d = false → SameBuf s t) :
    FailedWith s (t.fail k d) k d := by
  obtain ⟨-, hst, -, hin, -, hdev, hpi⟩ := h
  refine ⟨⟨rfl, by simp, by simp, by simp, ?_, ?_, by rw [State.fail_status]; exact status7_end _ _⟩, ?_, ?_, ?_,
    fun i => rfl, ?_⟩
  · rw [State.fail_status, hst]; simp
  · rw [State.fail_status, hst]; simp
  · simpa [SameInputs, SameOperands, SameConfig, SameOutside] using hin
  · simpa [SameDevice] using hdev
  · simpa [SamePi] using hpi
  · cases d with
    | true => simp
    | false => simpa [SameBuf] using hb rfl

/-- A layer call whose procedure fails, the memories alone. -/
theorem layer_fails {p : Prog α} {d : Bool} {s t : State} {k : FailKind} {es : List Event} {n : Nat}
    (hb : s.busy = false) (h : Fails p s k es n t) :
    OnWireEvents s (layerCall p d s) es n ∧ FailedWith s (layerCall p d s) k d := by
  rw [layerCall_failed hb h.1]
  exact ⟨h.2.1, layer_failedWith (run_samePort_of h.1) k d fun _ i => by rw [h.2.2.1]⟩

end Sys2Proof.Machine
end

