-- ==== Sys2Proof/Laws/PerInstr.lean ====
section
/-! SUPPORT. Statements made of every instruction as syntax, one lemma per constructor. -/

namespace Sys2Proof.Laws

/-- A code is one to four bytes, and a code of the one-byte spaces is one byte: a host opcode, a response, an FPCTL byte and a
mask (30_encoding.md R105 to R109); a frame word is two (R92). Whatever the OPEN command bytes are. -/
def CodeLength.Statement (i : Instr) : Prop :=
  ∀ c : Config.PiCodes,
    1 ≤ (encodeWith c i).length ∧ (encodeWith c i).length ≤ 4 ∧
    (i.space = .frame → (encodeWith c i).length = 2) ∧
    (i.space ≠ .frame → i.space ≠ .pi → (encodeWith c i).length = 1)

theorem CodeLength.writeArFrame (a : Byte) : CodeLength.Statement (.writeArFrame a) := by
  intro c; simp [encodeWith, Instr.space, frameBytes]
theorem CodeLength.readArFrame : CodeLength.Statement .readArFrame := by
  intro c; simp [encodeWith, Instr.space, frameBytes]
theorem CodeLength.writeDrFrame (d : Byte) : CodeLength.Statement (.writeDrFrame d) := by
  intro c; simp [encodeWith, Instr.space, frameBytes]
theorem CodeLength.readDrFrame : CodeLength.Statement .readDrFrame := by
  intro c; simp [encodeWith, Instr.space, frameBytes]
theorem CodeLength.piGetVersion : CodeLength.Statement .piGetVersion := by
  intro c; simp [encodeWith, Instr.space]
theorem CodeLength.piGetDerivative : CodeLength.Statement .piGetDerivative := by
  intro c; simp [encodeWith, Instr.space]
theorem CodeLength.piDeviceErase : CodeLength.Statement .piDeviceErase := by
  intro c; simp [encodeWith, Instr.space]
theorem CodeLength.piBlockRead (addr : Word16) (n : Nat) : CodeLength.Statement (.piBlockRead addr n) := by
  intro c; simp [encodeWith, Instr.space]
theorem CodeLength.piBlockWrite (addr : Word16) (n : Nat) : CodeLength.Statement (.piBlockWrite addr n) := by
  intro c; simp [encodeWith, Instr.space]
theorem CodeLength.piPageErase (page : Byte) : CodeLength.Statement (.piPageErase page) := by
  intro c; simp [encodeWith, Instr.space]
theorem CodeLength.piDirectRead (reg : Byte) : CodeLength.Statement (.piDirectRead reg) := by
  intro c; simp [encodeWith, Instr.space]
theorem CodeLength.piDirectWrite (reg : Byte) (v : Byte) : CodeLength.Statement (.piDirectWrite reg v) := by
  intro c; simp [encodeWith, Instr.space]
theorem CodeLength.piRespOk : CodeLength.Statement .piRespOk := by
  intro c; simp [encodeWith, Instr.space]
theorem CodeLength.piRespInvalid : CodeLength.Statement .piRespInvalid := by
  intro c; simp [encodeWith, Instr.space]
theorem CodeLength.piRespFailed : CodeLength.Statement .piRespFailed := by
  intro c; simp [encodeWith, Instr.space]
theorem CodeLength.fpctlReset : CodeLength.Statement .fpctlReset := by
  intro c; simp [encodeWith, Instr.space]
theorem CodeLength.fpctlCoreReset : CodeLength.Statement .fpctlCoreReset := by
  intro c; simp [encodeWith, Instr.space]
theorem CodeLength.fpctlHalt : CodeLength.Statement .fpctlHalt := by
  intro c; simp [encodeWith, Instr.space]
theorem CodeLength.arOutReady : CodeLength.Statement .arOutReady := by
  intro c; simp [encodeWith, Instr.space]
theorem CodeLength.arInBusy : CodeLength.Statement .arInBusy := by
  intro c; simp [encodeWith, Instr.space]
theorem CodeLength.writeAr : CodeLength.Statement .writeAr := by
  intro c; simp [encodeWith, Instr.space]
theorem CodeLength.readAr : CodeLength.Statement .readAr := by
  intro c; simp [encodeWith, Instr.space]
theorem CodeLength.writeDr : CodeLength.Statement .writeDr := by
  intro c; simp [encodeWith, Instr.space]
theorem CodeLength.readDr : CodeLength.Statement .readDr := by
  intro c; simp [encodeWith, Instr.space]
theorem CodeLength.piWrite : CodeLength.Statement .piWrite := by
  intro c; simp [encodeWith, Instr.space]
theorem CodeLength.piGet : CodeLength.Statement .piGet := by
  intro c; simp [encodeWith, Instr.space]
theorem CodeLength.piCheckOk : CodeLength.Statement .piCheckOk := by
  intro c; simp [encodeWith, Instr.space]
theorem CodeLength.piCommand : CodeLength.Statement .piCommand := by
  intro c; simp [encodeWith, Instr.space]
theorem CodeLength.readDirect : CodeLength.Statement .readDirect := by
  intro c; simp [encodeWith, Instr.space]
theorem CodeLength.writeDirect : CodeLength.Statement .writeDirect := by
  intro c; simp [encodeWith, Instr.space]
theorem CodeLength.blockRead : CodeLength.Statement .blockRead := by
  intro c; simp [encodeWith, Instr.space]
theorem CodeLength.blockWrite : CodeLength.Statement .blockWrite := by
  intro c; simp [encodeWith, Instr.space]
theorem CodeLength.erasePage : CodeLength.Statement .erasePage := by
  intro c; simp [encodeWith, Instr.space]
theorem CodeLength.eraseDevice : CodeLength.Statement .eraseDevice := by
  intro c; simp [encodeWith, Instr.space]
theorem CodeLength.resetHalt : CodeLength.Statement .resetHalt := by
  intro c; simp [encodeWith, Instr.space]
theorem CodeLength.getDeviceInfo : CodeLength.Statement .getDeviceInfo := by
  intro c; simp [encodeWith, Instr.space]
theorem CodeLength.getPiInfo : CodeLength.Statement .getPiInfo := by
  intro c; simp [encodeWith, Instr.space]
theorem CodeLength.flashChunk : CodeLength.Statement .flashChunk := by
  intro c; simp [encodeWith, Instr.space]

end Sys2Proof.Laws
end

