-- ==== Sys2Proof/Laws/Safe.lean ====
section
/-! SUPPORT. Which procedures keep the line discipline and the memory bounds (`Prog.Safe`), and what a run of such a
procedure keeps (10_state.md R24; 40_bit_transport.md R132, R138, R139). -/

namespace Sys2Proof.Machine

variable {α β : Type}

/-! ## Composition -/

theorem Prog.Safe.bind {p : Prog α} {f : α → Prog β} {ck oe ck' oe' ck'' oe'' : Bit} (h : p.Safe ck oe ck' oe')
    (g : ∀ a, (f a).Safe ck' oe' ck'' oe'') : (p.bind f).Safe ck oe ck'' oe'' := by
  induction p generalizing ck oe with
  | ret a => obtain ⟨rfl, rfl⟩ := h; exact g a
  | raise k => exact h
  | prim q next ih => exact ⟨h.1, fun b => ih b (h.2 b)⟩

theorem Prog.Safe.andThen {p : Prog α} {q : Prog β} {ck oe ck' oe' ck'' oe'' : Bit} (h : p.Safe ck oe ck' oe')
    (g : q.Safe ck' oe' ck'' oe'') : (p.andThen q).Safe ck oe ck'' oe'' :=
  h.bind fun _ => g

theorem safe_ret (a : α) (ck oe : Bit) : (Prog.ret a).Safe ck oe ck oe := ⟨rfl, rfl⟩

theorem safe_raise (k : FailKind) : (Prog.raise k : Prog α).Safe true false true false := ⟨rfl, rfl⟩

theorem safe_forUp {body : Nat → Prog Unit} {ck oe : Bit} (n i : Nat)
    (h : ∀ j, i ≤ j → j < i + n → (body j).Safe ck oe ck oe) : (forUp body n i).Safe ck oe ck oe := by
  induction n generalizing i with
  | zero => exact safe_ret _ _ _
  | succ n ih =>
    exact (h i (Nat.le_refl _) (by omega)).andThen (ih (i + 1) fun j h1 h2 => h j (by omega) (by omega))

/-! ## The transport -/

theorem safe_delay (n : Nat) (ck oe : Bit) : (delay n).Safe ck oe ck oe := ⟨trivial, fun _ => safe_ret _ _ _⟩

theorem safe_strobe (oe : Bit) : strobeClock.Safe true oe true oe :=
  Prog.Safe.andThen (ck' := false) (oe' := oe) ⟨rfl, fun _ => safe_ret _ _ _⟩ <|
    (safe_delay _ _ _).andThen <|
    Prog.Safe.andThen (ck' := true) (oe' := oe) ⟨rfl, fun _ => safe_ret _ _ _⟩ (safe_delay _ _ _)

theorem safe_release (oe : Bit) : (setData .z).Safe true oe true false :=
  Prog.Safe.andThen (ck' := true) (oe' := false) ⟨rfl, fun _ => safe_ret _ _ _⟩ (safe_delay _ _ _)

theorem safe_sendBit (b : Bit) (oe : Bit) : (sendBit b).Safe true oe true true := by
  refine Prog.Safe.andThen (ck' := true) (oe' := true) ?_ (safe_strobe true)
  refine Prog.Safe.andThen (ck' := true) (oe' := true) ⟨rfl, fun _ => ?_⟩ (safe_delay _ _ _)
  cases b <;> exact ⟨rfl, rfl⟩

theorem safe_recvBit : recvBit.Safe true false true false :=
  (safe_strobe false).andThen ⟨⟨rfl, rfl⟩, fun _ => safe_ret _ _ _⟩

/-- A primitive that touches neither the lines nor a local memory. -/
theorem safe_field (p : Prim) (oe : Bit) (h : p.allowed true oe := by trivial) (hc : p.ckAfter true = true := by rfl)
    (ho : p.oeAfter oe = oe := by rfl) : (act p).Safe true oe true oe :=
  ⟨h, fun _ => ⟨hc, ho⟩⟩

theorem safe_idleField (oe : Bit) : idleField.Safe true oe true oe := (safe_field .startField oe).andThen (safe_strobe oe)

/-- A driven field, whether the line was driven before it or not. -/
theorem safe_sendField (n : Nat) (v : Byte) (oe : Bit) : (sendField (n + 1) v).Safe true oe true true := by
  have pass : ∀ oe, (Prog.prim .readShift fun sh => (sendBit (sh.getLsbD 0)).andThen (act .shiftOut)).Safe true oe true true :=
    fun oe => ⟨trivial, fun _ => (safe_sendBit _ oe).andThen ⟨trivial, fun _ => safe_ret _ _ _⟩⟩
  exact (safe_field .startField oe).andThen <| (safe_field (.loadShift v) oe).andThen <|
    (pass oe).andThen (safe_forUp n 1 fun _ _ _ => pass true)

theorem safe_sendPair (f : BitVec 2) (oe : Bit) : (sendPair f).Safe true oe true true := safe_sendField 1 _ oe
theorem safe_sendByte (v : Byte) (oe : Bit) : (sendByte v).Safe true oe true true := safe_sendField 7 v oe

theorem safe_recvByte : recvByte.Safe true false true false :=
  (safe_field .startField false).andThen <| (safe_field (.loadShift 0#8) false).andThen <|
    (safe_forUp 8 0 fun _ _ _ => by exact safe_recvBit.bind fun _ => ⟨trivial, fun _ => safe_ret _ _ _⟩).andThen
      ⟨trivial, fun _ => safe_ret _ _ _⟩

theorem safe_poll (gap : Nat) {attempt : Prog Bit} (h : attempt.Safe true false true false) (tries : Nat) :
    (poll gap attempt tries).Safe true false true false := by
  have loop : (pollTries gap attempt tries).Safe true false true false := by
    induction tries with
    | zero => exact safe_raise _
    | succ n ih =>
      refine h.bind fun passed => Prog.Safe.andThen (ck' := true) (oe' := false) ⟨trivial, fun _ => safe_ret _ _ _⟩ ?_
      split
      · exact safe_ret _ _ _
      · split
        · exact safe_raise _
        · exact (safe_delay _ _ _).andThen ih
  exact Prog.Safe.andThen (ck' := true) (oe' := false) ⟨trivial, fun _ => safe_ret _ _ _⟩ loop

/-! ## The frames -/

theorem safe_waitField (tries : Nat) : (waitField tries).Safe true false true false :=
  (safe_field .startField false).andThen (safe_poll _ safe_recvBit _)

theorem safe_writeAr (a : Byte) : (writeAr a).Safe true false true false :=
  (safe_idleField false).andThen <| (safe_sendPair _ _).andThen <| (safe_sendByte a _).andThen <|
    (safe_release true).andThen (safe_idleField false)

theorem safe_readAr : readAr.Safe true false true false :=
  (safe_idleField false).andThen <| (safe_sendPair _ _).andThen <| (safe_release true).andThen <|
    safe_recvByte.bind fun _ => (safe_idleField false).andThen (safe_ret _ _ _)

theorem safe_writeDr (d : Byte) : (writeDr d).Safe true false true false :=
  (safe_idleField false).andThen <| (safe_sendPair _ _).andThen <| (safe_sendPair _ _).andThen <|
    (safe_sendByte d _).andThen <| (safe_release true).andThen <| (safe_waitField _).andThen (safe_idleField false)

theorem safe_readDr : readDr.Safe true false true false :=
  (safe_idleField false).andThen <| (safe_sendPair _ _).andThen <| (safe_sendPair _ _).andThen <|
    (safe_release true).andThen <| (safe_waitField _).andThen <|
    safe_recvByte.bind fun _ => (safe_idleField false).andThen (safe_ret _ _ _)

/-! ## The PI protocol -/

theorem safe_arPoll (gap : Nat) (pass : Byte → Bit) (tries : Nat) :
    (poll gap (readAr.bind fun r => .ret (pass r)) tries).Safe true false true false :=
  safe_poll gap (safe_readAr.bind fun _ => safe_ret _ _ _) tries

theorem safe_piWrite (b : Byte) : (piWrite b).Safe true false true false := (safe_writeDr b).andThen (safe_arPoll _ _ _)

theorem safe_piGet (n : Nat) : (piGet n).Safe true false true false := (safe_arPoll _ _ _).andThen safe_readDr

theorem safe_checkResponse (r : Byte) : (checkResponse r).Safe true false true false := by
  unfold checkResponse
  split
  · exact safe_ret _ _ _
  · exact safe_raise _

theorem safe_piCheckOk (n : Nat) : (piCheckOk n).Safe true false true false :=
  (safe_piGet n).bind safe_checkResponse

theorem safe_piCommand (n : Nat) (b : Byte) (v w : Bit) : (piCommand n b v w).Safe true false true false := by
  refine (safe_piWrite b).andThen ?_
  split
  · exact safe_ret _ _ _
  · refine (safe_piCheckOk n).andThen ?_
    split
    · exact (safe_piGet n).bind fun _ => safe_ret _ _ _
    · exact safe_ret _ _ _

theorem safe_piVerified (n : Nat) (b : Byte) : (piVerified n b).Safe true false true false :=
  (safe_piCommand n b _ _).andThen (safe_ret _ _ _)

theorem safe_piUnverified (n : Nat) (b : Byte) : (piUnverified n b).Safe true false true false :=
  (safe_piCommand n b _ _).andThen (safe_ret _ _ _)

theorem safe_piQuery (n : Nat) (b : Byte) : (piQuery n b).Safe true false true false :=
  (safe_piCommand n b _ _).bind fun _ => safe_ret _ _ _

/-! ## Flash operations -/

theorem safe_directReadBytes (n : Nat) (reg : Byte) : (directReadBytes n reg).Safe true false true false :=
  (safe_piVerified n _).andThen <| (safe_piUnverified n _).andThen <| (safe_piUnverified n _).andThen (safe_piGet n)

theorem safe_directWriteBytes (n : Nat) (reg v : Byte) : (directWriteBytes n reg v).Safe true false true false :=
  (safe_piVerified n _).andThen <| (safe_piUnverified n _).andThen <| (safe_piUnverified n _).andThen
    (safe_piUnverified n _)

theorem safe_pageEraseBytes (n : Nat) (page : Byte) : (pageEraseBytes n page).Safe true false true false :=
  (safe_piVerified n _).andThen <| (safe_piVerified n _).andThen (safe_piVerified n _)

theorem safe_erasePage (n : Nat) (fpdat : Byte) (erratum : Bit) (page : Byte) :
    (erasePage n fpdat erratum page).Safe true false true false := by
  refine (safe_writeAr _).andThen <| (safe_pageEraseBytes n page).andThen ?_
  split
  · exact (safe_writeAr _).andThen (safe_directWriteBytes _ _ _)
  · exact safe_ret _ _ _

theorem safe_deviceEraseBytes (n : Nat) : (deviceEraseBytes n).Safe true false true false :=
  (safe_piVerified n _).andThen <| (safe_piWrite _).andThen <| (safe_piWrite _).andThen <| (safe_piWrite _).andThen
    (safe_piCheckOk n)

theorem safe_resetPulse : resetPulse.Safe true false true false :=
  Prog.Safe.andThen (ck' := false) (oe' := false) ⟨rfl, fun _ => safe_ret _ _ _⟩ <|
    (safe_delay _ _ _).andThen <|
    Prog.Safe.andThen (ck' := true) (oe' := false) ⟨rfl, fun _ => safe_ret _ _ _⟩ (safe_delay _ _ _)

theorem safe_resetAndHalt (fpctl : Byte) : (resetAndHalt fpctl).Safe true false true false :=
  safe_resetPulse.andThen <| (safe_writeAr _).andThen <| (safe_writeDr _).andThen <| (safe_writeDr _).andThen <|
    (safe_writeDr _).andThen (safe_delay _ _ _)

theorem safe_readDirect (n : Nat) (fpdat reg : Byte) : (readDirect n fpdat reg).Safe true false true false :=
  (safe_writeAr _).andThen (safe_directReadBytes _ _)

theorem safe_writeDirect (n : Nat) (fpdat reg v : Byte) : (writeDirect n fpdat reg v).Safe true false true false :=
  (safe_writeAr _).andThen (safe_directWriteBytes _ _ _)

theorem safe_eraseDevice (n : Nat) (fpdat : Byte) : (eraseDevice n fpdat).Safe true false true false :=
  (safe_writeAr _).andThen (safe_deviceEraseBytes _)

theorem safe_memReadC2 (a : Byte) : (memReadC2 a).Safe true false true false := (safe_writeAr _).andThen safe_readDr

theorem safe_getDeviceInfo : getDeviceInfo.Safe true false true false :=
  (safe_memReadC2 _).bind fun _ => (safe_memReadC2 _).bind fun _ => safe_ret _ _ _

theorem safe_getPiInfo (n : Nat) (fpdat : Byte) : (getPiInfo n fpdat).Safe true false true false :=
  (safe_writeAr _).andThen <| (safe_piQuery _ _).bind fun _ => (safe_piQuery _ _).bind fun _ => safe_ret _ _ _

theorem safe_blockHeader (n : Nat) (cmd : Byte) (addr sub : Nat) :
    (blockHeader n cmd addr sub).Safe true false true false :=
  (safe_piVerified n _).andThen <| (safe_piUnverified n _).andThen <| (safe_piUnverified n _).andThen
    (safe_piVerified n _)

/-- The size of the memory a block read stores to; nothing bounds a discarded read. -/
def Dest.fits (dest : Dest) (n : Nat) : Prop :=
  match dest with
  | .buf => n ≤ Config.bufSize
  | .scratch => n ≤ Config.scratchSize
  | .null => True

/-- The size of the memory a block write reads from. -/
def Source.fits (src : Source) (n : Nat) : Prop :=
  match src with
  | .buf => n ≤ Config.bufSize
  | .scratch => n ≤ Config.scratchSize

theorem Dest.fits_mono {dest : Dest} {n m : Nat} (h : dest.fits n) (hm : m ≤ n) : dest.fits m := by
  cases dest <;> simp_all [Dest.fits] <;> omega

theorem Source.fits_mono {src : Source} {n m : Nat} (h : src.fits n) (hm : m ≤ n) : src.fits m := by
  cases src <;> simp_all [Source.fits] <;> omega

theorem safe_storeTo {dest : Dest} {i : Nat} (h : dest.fits (i + 1)) (b : Byte) :
    (storeTo dest i b).Safe true false true false := by
  cases dest with
  | buf => exact ⟨h, fun _ => safe_ret _ _ _⟩
  | scratch => exact ⟨h, fun _ => safe_ret _ _ _⟩
  | null => exact safe_ret _ _ _

theorem safe_loadFrom {src : Source} {i : Nat} (h : src.fits (i + 1)) :
    (loadFrom src i).Safe true false true false := by
  cases src with
  | buf => exact ⟨h, fun _ => safe_ret _ _ _⟩
  | scratch => exact ⟨h, fun _ => safe_ret _ _ _⟩

theorem safe_readSubBlock (n : Nat) {dest : Dest} (addr : Nat) {sub k : Nat} (h : dest.fits (k + sub)) :
    (readSubBlock n dest addr sub k).Safe true false true false :=
  (safe_blockHeader _ _ _ _).andThen <| safe_forUp sub 0 fun _ _ hj =>
    (safe_piGet n).bind fun b => safe_storeTo (Dest.fits_mono h (by omega)) b

theorem safe_writeSubBlock (n : Nat) {src : Source} (addr : Nat) {sub k : Nat} (h : src.fits (k + sub)) :
    (writeSubBlock n src addr sub k).Safe true false true false :=
  (safe_blockHeader _ _ _ _).andThen <| safe_forUp sub 0 fun _ _ hj =>
    (safe_loadFrom (Source.fits_mono h (by omega))).bind fun _ => safe_piUnverified _ _

theorem safe_blockLoop {body : (addr sub k : Nat) → Prog Unit} {fits : Nat → Prop}
    (hbody : ∀ addr sub k, fits (k + sub) → (body addr sub k).Safe true false true false)
    (hmono : ∀ n m, fits n → m ≤ n → fits m) (fuel addr length k : Nat) (h : fits (k + length)) :
    (blockLoop body fuel addr length k).Safe true false true false := by
  induction fuel generalizing addr length k with
  | zero => exact safe_ret _ _ _
  | succ fuel ih =>
    rw [blockLoop]
    split
    · exact safe_ret _ _ _
    · have hl := subSize_le length
      exact (hbody _ _ _ (hmono _ _ h (by omega))).andThen (ih _ _ _ (hmono _ _ h (by omega)))

theorem safe_blockRead (n : Nat) (fpdat : Byte) (addr : Nat) {length : Nat} {dest : Dest} (h : dest.fits length) :
    (blockRead n fpdat addr length dest).Safe true false true false :=
  (safe_writeAr _).andThen <| safe_blockLoop (fits := dest.fits) (fun addr _ _ => safe_readSubBlock n addr)
    (fun _ _ => Dest.fits_mono) _ _ _ _ (by simpa using h)

theorem safe_blockWrite (n : Nat) (fpdat : Byte) (addr : Nat) {length : Nat} {src : Source} (h : src.fits length) :
    (blockWrite n fpdat addr length src).Safe true false true false :=
  (safe_writeAr _).andThen <| safe_blockLoop (fits := src.fits) (fun addr _ _ => safe_writeSubBlock n addr)
    (fun _ _ => Source.fits_mono) _ _ _ _ (by simpa using h)

theorem safe_overlay {start count : Nat} (h1 : count ≤ Config.bufSize) (h2 : start + count ≤ Config.scratchSize) :
    (overlay start count).Safe true false true false :=
  safe_forUp count 0 fun j _ hj => by
    have hb : j < Config.bufSize := by omega
    have hs : start + j < Config.scratchSize := by omega
    exact ⟨hb, fun _ => ⟨hs, fun _ => safe_ret _ _ _⟩⟩

/-! ## What a run of a safe procedure keeps -/

theorem doPrim_lines (q : Prim) (s : State) :
    (doPrim q s).1.ck = q.ckAfter s.ck ∧ (doPrim q s).1.dOe = q.oeAfter s.dOe := by
  cases q with
  | setData l => cases l <;> exact ⟨rfl, rfl⟩
  | delay n => simp only [doPrim]; split <;> exact ⟨rfl, rfl⟩
  | loadBuf i => simp only [doPrim]; rw [readCell_fst]; exact ⟨rfl, rfl⟩
  | loadScratch i => simp only [doPrim]; rw [readCell_fst]; exact ⟨rfl, rfl⟩
  | _ => exact ⟨rfl, rfl⟩

/-- The local memories stay in their canonical form and inside their sizes. -/
def MemoriesFit (s : State) : Prop := s.buf.within Config.bufSize ∧ s.scratch.within Config.scratchSize

theorem doPrim_memories {q : Prim} {s : State} (h : MemoriesFit s) (ha : q.allowed s.ck s.dOe) :
    MemoriesFit (doPrim q s).1 := by
  cases q with
  | setData l => cases l <;> exact h
  | delay n => simp only [doPrim]; split <;> exact h
  | loadBuf i => simp only [doPrim]; rw [readCell_fst]; exact h
  | loadScratch i => simp only [doPrim]; rw [readCell_fst]; exact h
  | storeBuf i b => exact ⟨Memory.within_write h.1 ha b, h.2⟩
  | storeScratch i b => exact ⟨h.1, Memory.within_write h.2 ha b⟩
  | _ => exact h

/-- A safe procedure ends, by success or failure, with the memories in form; if it is safe to idle lines, with idle lines. -/
theorem run_safe {p : Prog α} {s : State} (h : p.Safe s.ck s.dOe true false) (hm : MemoriesFit s) :
    LinesIdle (p.run s).2 ∧ MemoriesFit (p.run s).2 := by
  induction p generalizing s with
  | ret a => exact ⟨h, hm⟩
  | raise k => exact ⟨h, hm⟩
  | prim q next ih =>
    obtain ⟨hq, hn⟩ := h
    have hl := doPrim_lines q s
    refine ih _ (s := (doPrim q s).1) ?_ (doPrim_memories hm hq)
    rw [hl.1, hl.2]
    exact hn _

end Sys2Proof.Machine
end

