-- ==== Sys2Proof/Laws/Port.lean ====
section
/-! SUPPORT. What is common to the eighteen host commands: how `exec` and the sequencer name them, what their procedures
depend on and can fail with, the admission table, and the answers a single frame needs. -/

namespace Sys2Proof.Machine

variable {α β : Type}

/-! ## Host commands by opcode (30_encoding.md R109) -/

theorem mem_of_decodeHost {op : Byte} {i : Instr} (h : decodeHost op = .ok i) : (op, i) ∈ hostOpcodes := by
  unfold decodeHost at h
  split at h
  next row hr =>
    cases h
    have h1 := List.find?_some hr
    simp only [decide_eq_true_eq] at h1
    rw [← h1]
    exact List.mem_of_find?_eq_some hr
  next => cases h

/-- A host command is its operation, run from the write of its opcode to CMD. -/
theorem exec_host {op : Byte} {i : Instr} (h : decodeHost op = .ok i) :
    ∃ o, operationOfInstr i = some o ∧ operationOf op = some o ∧ ∀ s, exec i s = .next (runOperation op o s) := by
  have hsel : operationOf op = operationOfInstr i := by unfold operationOf; rw [h]
  have hrow : ∀ row ∈ hostOpcodes, ∃ o, operationOfInstr row.2 = some o ∧
      ∀ s, exec row.2 s = .next (runOperation row.1 o s) := by
    simp only [hostOpcodes, List.forall_mem_cons]
    repeat' apply And.intro
    all_goals first | exact ⟨_, rfl, fun _ => rfl⟩ | simp
  obtain ⟨o, ho, hr⟩ := hrow _ (mem_of_decodeHost h)
  exact ⟨o, ho, hsel.trans ho, hr⟩

/-- The instruction of an operation. -/
theorem decode_of_operation {op : Byte} {o : Operation} (h : operationOf op = some o) :
    ∃ i, decodeHost op = .ok i ∧ operationOfInstr i = some o := by
  unfold operationOf at h
  split at h
  next i hi => exact ⟨i, hi, h⟩
  next => cases h

/-! ## What an operation reads of the state (30_encoding.md R110) -/

/-- The procedure of an operation depends on the operands and the configuration only (R28, R30, R32). -/
theorem prog_congr {i : Instr} {o : Operation} (h : operationOfInstr i = some o) {s t : State} (hi : SameInputs s t) :
    o.prog t = o.prog s := by
  obtain ⟨⟨h1, h2, h3, h4, h5⟩, ⟨c1, c2, c3, c4, c5⟩, -⟩ := hi
  cases i <;> simp only [operationOfInstr, Option.some.injEq, reduceCtorEq] at h <;> subst h <;>
    simp only [opWriteAr, opReadAr, opWriteDr, opReadDr, opPiWrite, opPiGet, opPiCheckOk, opPiCommand, opReadDirect,
      opWriteDirect, opBlockRead, opBlockWrite, opErasePage, opEraseDevice, opResetHalt, opGetDeviceInfo, opGetPiInfo,
      opFlashChunk, State.pollTries, h1, h2, h3, h4, h5, c1, c2, c3, c4, c5]

/-! ## Admission (45_host_commands.md R238) -/

theorem isPow2_iff (p : Nat) : isPow2 p = true ↔ ∃ k < 32, p = 2 ^ k := by
  simp [isPow2]

theorem chunkStart_eq_mod (addr p : Nat) : chunkStart addr p = addr % p := by
  have h := Nat.div_add_mod addr p
  rw [Nat.mul_comm] at h
  simp only [chunkStart, pageBase, pageOf]
  omega

/-- The checks of each operation are its rows of the admission table. -/
theorem admit_eq_table {op : Byte} {i : Instr} {o : Operation} (s : State) (h1 : decodeHost op = .ok i)
    (h2 : operationOfInstr i = some o) : o.admission s = admissionTable op s := by
  unfold admissionTable
  rw [h1]
  cases i <;> simp only [operationOfInstr, Option.some.injEq, reduceCtorEq] at h2 <;> subst h2 <;>
   simp only [Operation.admission, firstFailure, needsFamily, opWriteAr, opReadAr, opWriteDr, opReadDr, opPiWrite, opPiGet,
    opPiCheckOk, opPiCommand, opReadDirect, opWriteDirect, opBlockRead, opBlockWrite, opErasePage, opEraseDevice,
    opResetHalt, opGetDeviceInfo, opGetPiInfo, opFlashChunk, chunkChecks, requestInFlash, Config.flashSpace, reduceCtorEq,
    true_and, false_and, if_false, false_or, or_false, Bool.not_false, Bool.true_or, if_true, Bool.not_true, Bool.false_or,
    Bool.false_eq_true]
  all_goals try (split_ifs <;> simp_all <;> done)
  simp only [chunkLen, chunkStart_eq_mod, pageBase, pageOf, Bool.and_eq_true, decide_eq_true_eq, isPow2_iff]
  clear h1
  split_ifs <;> first | rfl | (exfalso; simp_all)

/-! ## Which primitives a procedure performs, and what it can fail with (60_exceptions.md R251, R252) -/

/-- A procedure performs only primitives that satisfy `P`, and every failure it raises is `BusTimeout` or
`ProtocolRejected`. -/
inductive Prog.Uses (P : Prim → Prop) : Prog α → Prop where
  | ret (a : α) : Prog.Uses P (.ret a)
  | raise {k : FailKind} (h : k = .busTimeout ∨ k = .protocolRejected) : Prog.Uses P (.raise k)
  | prim {p : Prim} {next : Byte → Prog α} (hp : P p) (h : ∀ b, Prog.Uses P (next b)) : Prog.Uses P (.prim p next)

/-- A primitive stores to no local memory. -/
def Prim.storesNothing : Prim → Bool
  | .storeBuf _ _ | .storeScratch _ _ => false
  | .setData _ | .ckSet _ | .delay _ | .readData | .startField | .loadShift _ | .shiftOut | .shiftIn _ | .readShift | .clearTry
  | .countTry | .loadBuf _ | .loadScratch _ => true

/-- `P` allows every primitive that stores nothing. -/
def Plain (P : Prim → Prop) : Prop := ∀ p : Prim, p.storesNothing = true → P p

/-- `P` allows the stores to a destination. -/
def Dest.allowed (P : Prim → Prop) : Dest → Prop
  | .buf => ∀ i b, P (.storeBuf i b)
  | .scratch => ∀ i b, P (.storeScratch i b)
  | .null => True

variable {P : Prim → Prop}

theorem Prog.Uses.bind {p : Prog α} {f : α → Prog β} (h : p.Uses P) (g : ∀ a, (f a).Uses P) : (p.bind f).Uses P := by
  induction h with
  | ret a => exact g a
  | raise h => exact .raise h
  | prim hp _ ih => exact .prim hp ih

theorem Prog.Uses.andThen {p : Prog α} {q : Prog β} (h : p.Uses P) (g : q.Uses P) : (p.andThen q).Uses P :=
  h.bind fun _ => g

theorem Prog.Uses.run {p : Prog α} (h : p.Uses P) {s t : State} {k : FailKind} (hr : p.run s = (.failed k, t)) :
    k = .busTimeout ∨ k = .protocolRejected := by
  induction h generalizing s with
  | ret a => cases hr
  | raise h => cases hr; exact h
  | prim _ _ ih => exact ih _ hr

theorem Prog.Uses.resume {p : Prog α} (h : p.Uses P) (bs : List Byte) : (p.resume bs).Uses P := by
  induction bs generalizing p with
  | nil => rwa [resume_nil]
  | cons b bs ih =>
    cases h with
    | ret a => exact .ret a
    | raise h => exact .raise h
    | prim _ h => exact ih (h b)

/-- A procedure whose primitives keep a property keeps it. -/
theorem Prog.Uses.keeps {K : State → Prop} (hK : ∀ p s, P p → K s → K (doPrim p s).1) {p : Prog α} (h : p.Uses P)
    {s : State} (hs : K s) : K (p.run s).2 := by
  induction h generalizing s with
  | ret a => exact hs
  | raise h => exact hs
  | prim hp _ ih => exact ih _ (hK _ _ hp hs)

theorem doPrim_buf {q : Prim} (h : ∀ i b, q ≠ .storeBuf i b) (s : State) : (doPrim q s).1.buf = s.buf := by
  cases q with
  | setData l => cases l <;> rfl
  | delay n => simp only [doPrim]; split <;> rfl
  | loadBuf i => simp only [doPrim]; rw [readCell_fst]
  | loadScratch i => simp only [doPrim]; rw [readCell_fst]
  | storeBuf i b => exact absurd rfl (h i b)
  | _ => rfl

theorem doPrim_scratch {q : Prim} (h : ∀ i b, q ≠ .storeScratch i b) (s : State) :
    (doPrim q s).1.scratch = s.scratch := by
  cases q with
  | setData l => cases l <;> rfl
  | delay n => simp only [doPrim]; split <;> rfl
  | loadBuf i => simp only [doPrim]; rw [readCell_fst]
  | loadScratch i => simp only [doPrim]; rw [readCell_fst]
  | storeScratch i b => exact absurd rfl (h i b)
  | _ => rfl

/-- A procedure that never stores to BUF leaves it alone. -/
theorem Prog.Uses.buf {p : Prog α} (h : p.Uses fun q => ∀ i b, q ≠ .storeBuf i b) (s : State) :
    (p.run s).2.buf = s.buf :=
  h.keeps (K := fun t => t.buf = s.buf) (fun q t hq ht => by rw [doPrim_buf hq, ht]) rfl

/-- A procedure that never stores to SCRATCH leaves it alone. -/
theorem Prog.Uses.scratch {p : Prog α} (h : p.Uses fun q => ∀ i b, q ≠ .storeScratch i b) (s : State) :
    (p.run s).2.scratch = s.scratch :=
  h.keeps (K := fun t => t.scratch = s.scratch) (fun q t hq ht => by rw [doPrim_scratch hq, ht]) rfl

theorem plain_noStoreBuf : Plain fun q => ∀ i b, q ≠ .storeBuf i b := by
  rintro q hq i b rfl
  cases hq

theorem plain_noStoreScratch : Plain fun q => ∀ i b, q ≠ .storeScratch i b := by
  rintro q hq i b rfl
  cases hq

theorem plain_any : Plain fun _ => True := fun _ _ => trivial

theorem Dest.allowed_any (dest : Dest) : dest.allowed fun _ => True := by
  cases dest <;> simp [Dest.allowed]

theorem uses_ret (a : α) : (Prog.ret a).Uses P := .ret a
theorem uses_act {p : Prim} (h : P p) : (act p).Uses P := .prim h fun _ => .ret ()
theorem uses_prim {p : Prim} {next : Byte → Prog α} (hp : P p) (h : ∀ b, (next b).Uses P) : (Prog.prim p next).Uses P :=
  .prim hp h

theorem uses_forUp {body : Nat → Prog Unit} (h : ∀ j, (body j).Uses P) (n i : Nat) : (forUp body n i).Uses P := by
  induction n generalizing i with
  | zero => exact uses_ret ()
  | succ n ih => exact (h i).andThen (ih _)

theorem uses_delay (hP : Plain P) (n : Nat) : (delay n).Uses P := uses_act (hP _ rfl)
theorem uses_strobe (hP : Plain P) : strobeClock.Uses P :=
  (uses_act (hP _ rfl)).andThen <| (uses_delay hP _).andThen <| (uses_act (hP _ rfl)).andThen (uses_delay hP _)
theorem uses_setData (hP : Plain P) (l : Level) : (setData l).Uses P := (uses_act (hP _ rfl)).andThen (uses_delay hP _)
theorem uses_sendBit (hP : Plain P) (b : Bit) : (sendBit b).Uses P := (uses_setData hP _).andThen (uses_strobe hP)
theorem uses_recvBit (hP : Plain P) : recvBit.Uses P :=
  (uses_strobe hP).andThen (uses_prim (hP _ rfl) fun _ => uses_ret _)
theorem uses_idleField (hP : Plain P) : idleField.Uses P := (uses_act (hP _ rfl)).andThen (uses_strobe hP)
theorem uses_sendField (hP : Plain P) (n : Nat) (v : Byte) : (sendField n v).Uses P :=
  (uses_act (hP _ rfl)).andThen <| (uses_act (hP _ rfl)).andThen
    (uses_forUp (fun _ => uses_prim (hP _ rfl) fun _ => (uses_sendBit hP _).andThen (uses_act (hP _ rfl))) n 0)
theorem uses_recvByte (hP : Plain P) : recvByte.Uses P :=
  (uses_act (hP _ rfl)).andThen <| (uses_act (hP _ rfl)).andThen <|
    (uses_forUp (fun _ => (uses_recvBit hP).bind fun _ => uses_act (hP _ rfl)) 8 0).andThen
      (uses_prim (hP _ rfl) fun _ => uses_ret _)

theorem uses_poll (hP : Plain P) (gap : Nat) {attempt : Prog Bit} (h : attempt.Uses P) (tries : Nat) :
    (poll gap attempt tries).Uses P := by
  have loop : (pollTries gap attempt tries).Uses P := by
    induction tries with
    | zero => exact .raise (.inl rfl)
    | succ n ih =>
      refine h.bind fun passed => (uses_act (hP _ rfl)).andThen ?_
      split
      · exact uses_ret _
      · split
        · exact .raise (.inl rfl)
        · exact (uses_delay hP _).andThen ih
  exact (uses_act (hP _ rfl)).andThen loop

theorem uses_waitField (hP : Plain P) (tries : Nat) : (waitField tries).Uses P :=
  (uses_act (hP _ rfl)).andThen (uses_poll hP _ (uses_recvBit hP) _)

theorem uses_writeAr (hP : Plain P) (a : Byte) : (writeAr a).Uses P :=
  (uses_idleField hP).andThen <| (uses_sendField hP _ _).andThen <| (uses_sendField hP _ _).andThen <|
    (uses_setData hP _).andThen (uses_idleField hP)
theorem uses_readAr (hP : Plain P) : readAr.Uses P :=
  (uses_idleField hP).andThen <| (uses_sendField hP _ _).andThen <| (uses_setData hP _).andThen <|
    (uses_recvByte hP).bind fun _ => (uses_idleField hP).andThen (uses_ret _)
theorem uses_writeDr (hP : Plain P) (d : Byte) : (writeDr d).Uses P :=
  (uses_idleField hP).andThen <| (uses_sendField hP _ _).andThen <| (uses_sendField hP _ _).andThen <|
    (uses_sendField hP _ _).andThen <| (uses_setData hP _).andThen <| (uses_waitField hP _).andThen (uses_idleField hP)
theorem uses_readDr (hP : Plain P) : readDr.Uses P :=
  (uses_idleField hP).andThen <| (uses_sendField hP _ _).andThen <| (uses_sendField hP _ _).andThen <|
    (uses_setData hP _).andThen <| (uses_waitField hP _).andThen <|
    (uses_recvByte hP).bind fun _ => (uses_idleField hP).andThen (uses_ret _)

theorem uses_busyPoll (hP : Plain P) : busyPoll.Uses P :=
  uses_poll hP _ ((uses_readAr hP).bind fun _ => uses_ret _) _
theorem uses_readyPoll (hP : Plain P) (n : Nat) : (readyPoll n).Uses P :=
  uses_poll hP _ ((uses_readAr hP).bind fun _ => uses_ret _) _
theorem uses_piWrite (hP : Plain P) (b : Byte) : (piWrite b).Uses P := (uses_writeDr hP b).andThen (uses_busyPoll hP)
theorem uses_piGet (hP : Plain P) (n : Nat) : (piGet n).Uses P := (uses_readyPoll hP n).andThen (uses_readDr hP)
theorem uses_checkResponse (r : Byte) : (checkResponse r).Uses P := by
  unfold checkResponse
  split
  · exact uses_ret _
  · exact .raise (.inr rfl)
theorem uses_piCheckOk (hP : Plain P) (n : Nat) : (piCheckOk n).Uses P := (uses_piGet hP n).bind uses_checkResponse
theorem uses_piCommand (hP : Plain P) (n : Nat) (b : Byte) (v w : Bit) : (piCommand n b v w).Uses P := by
  refine (uses_piWrite hP b).andThen ?_
  split
  · exact uses_ret _
  · refine (uses_piCheckOk hP n).andThen ?_
    split
    · exact (uses_piGet hP n).bind fun _ => uses_ret _
    · exact uses_ret _
theorem uses_piVerified (hP : Plain P) (n : Nat) (b : Byte) : (piVerified n b).Uses P :=
  (uses_piCommand hP n b _ _).andThen (uses_ret _)
theorem uses_piUnverified (hP : Plain P) (n : Nat) (b : Byte) : (piUnverified n b).Uses P :=
  (uses_piCommand hP n b _ _).andThen (uses_ret _)
theorem uses_piQuery (hP : Plain P) (n : Nat) (b : Byte) : (piQuery n b).Uses P :=
  (uses_piCommand hP n b _ _).bind fun _ => uses_ret _

theorem uses_directReadBytes (hP : Plain P) (n : Nat) (reg : Byte) : (directReadBytes n reg).Uses P :=
  (uses_piVerified hP n _).andThen <| (uses_piUnverified hP n _).andThen <| (uses_piUnverified hP n _).andThen
    (uses_piGet hP n)
theorem uses_directWriteBytes (hP : Plain P) (n : Nat) (reg v : Byte) : (directWriteBytes n reg v).Uses P :=
  (uses_piVerified hP n _).andThen <| (uses_piUnverified hP n _).andThen <| (uses_piUnverified hP n _).andThen
    (uses_piUnverified hP n _)
theorem uses_readDirect (hP : Plain P) (n : Nat) (fpdat reg : Byte) : (readDirect n fpdat reg).Uses P :=
  (uses_writeAr hP _).andThen (uses_directReadBytes hP _ _)
theorem uses_writeDirect (hP : Plain P) (n : Nat) (fpdat reg v : Byte) : (writeDirect n fpdat reg v).Uses P :=
  (uses_writeAr hP _).andThen (uses_directWriteBytes hP _ _ _)
theorem uses_pageEraseBytes (hP : Plain P) (n : Nat) (page : Byte) : (pageEraseBytes n page).Uses P :=
  (uses_piVerified hP n _).andThen <| (uses_piVerified hP n _).andThen (uses_piVerified hP n _)
theorem uses_deviceEraseBytes (hP : Plain P) (n : Nat) : (deviceEraseBytes n).Uses P :=
  (uses_piVerified hP n _).andThen <| (uses_piWrite hP _).andThen <| (uses_piWrite hP _).andThen <|
    (uses_piWrite hP _).andThen (uses_piCheckOk hP n)
theorem uses_eraseDevice (hP : Plain P) (n : Nat) (fpdat : Byte) : (eraseDevice n fpdat).Uses P :=
  (uses_writeAr hP _).andThen (uses_deviceEraseBytes hP _)
theorem uses_erasePage (hP : Plain P) (n : Nat) (fpdat : Byte) (erratum : Bit) (page : Byte) :
    (erasePage n fpdat erratum page).Uses P := by
  refine (uses_writeAr hP _).andThen <| (uses_pageEraseBytes hP n page).andThen ?_
  split
  · exact uses_writeDirect hP _ _ _ _
  · exact uses_ret _
theorem uses_resetPulse (hP : Plain P) : resetPulse.Uses P :=
  (uses_act (hP _ rfl)).andThen <| (uses_delay hP _).andThen <| (uses_act (hP _ rfl)).andThen (uses_delay hP _)
theorem uses_resetAndHalt (hP : Plain P) (fpctl : Byte) : (resetAndHalt fpctl).Uses P :=
  (uses_resetPulse hP).andThen <| (uses_writeAr hP _).andThen <| (uses_writeDr hP _).andThen <|
    (uses_writeDr hP _).andThen <| (uses_writeDr hP _).andThen (uses_delay hP _)
theorem uses_memReadC2 (hP : Plain P) (a : Byte) : (memReadC2 a).Uses P := (uses_writeAr hP _).andThen (uses_readDr hP)
theorem uses_getDeviceInfo (hP : Plain P) : getDeviceInfo.Uses P :=
  (uses_memReadC2 hP _).bind fun _ => (uses_memReadC2 hP _).bind fun _ => uses_ret _
theorem uses_getPiInfo (hP : Plain P) (n : Nat) (fpdat : Byte) : (getPiInfo n fpdat).Uses P :=
  (uses_writeAr hP _).andThen <| (uses_piQuery hP _ _).bind fun _ => (uses_piQuery hP _ _).bind fun _ => uses_ret _

theorem uses_blockHeader (hP : Plain P) (n : Nat) (cmd : Byte) (addr sub : Nat) : (blockHeader n cmd addr sub).Uses P :=
  (uses_piVerified hP n _).andThen <| (uses_piUnverified hP n _).andThen <| (uses_piUnverified hP n _).andThen
    (uses_piVerified hP n _)
theorem uses_storeTo {dest : Dest} (hd : dest.allowed P) (i : Nat) (b : Byte) : (storeTo dest i b).Uses P := by
  cases dest
  · exact uses_act (hd i b)
  · exact uses_act (hd i b)
  · exact uses_ret _
theorem uses_loadFrom (hP : Plain P) (src : Source) (i : Nat) : (loadFrom src i).Uses P := by
  cases src
  · exact uses_prim (hP _ rfl) fun _ => uses_ret _
  · exact uses_prim (hP _ rfl) fun _ => uses_ret _
theorem uses_readSubBlock (hP : Plain P) (n : Nat) {dest : Dest} (hd : dest.allowed P) (addr sub k : Nat) :
    (readSubBlock n dest addr sub k).Uses P :=
  (uses_blockHeader hP _ _ _ _).andThen <|
    uses_forUp (fun _ => (uses_piGet hP n).bind fun _ => uses_storeTo hd _ _) _ _
theorem uses_writeSubBlock (hP : Plain P) (n : Nat) (src : Source) (addr sub k : Nat) :
    (writeSubBlock n src addr sub k).Uses P :=
  (uses_blockHeader hP _ _ _ _).andThen <|
    uses_forUp (fun _ => (uses_loadFrom hP _ _).bind fun _ => uses_piUnverified hP _ _) _ _
theorem uses_blockLoop {body : (addr sub k : Nat) → Prog Unit} (h : ∀ a m k, (body a m k).Uses P)
    (fuel addr length k : Nat) : (blockLoop body fuel addr length k).Uses P := by
  induction fuel generalizing addr length k with
  | zero => exact uses_ret ()
  | succ fuel ih =>
    rw [blockLoop]
    split
    · exact uses_ret _
    · exact (h _ _ _).andThen (ih _ _ _)
theorem uses_blockRead (hP : Plain P) (n : Nat) (fpdat : Byte) (addr length : Nat) {dest : Dest} (hd : dest.allowed P) :
    (blockRead n fpdat addr length dest).Uses P :=
  (uses_writeAr hP _).andThen (uses_blockLoop (uses_readSubBlock hP n hd) _ _ _ _)
theorem uses_blockWrite (hP : Plain P) (n : Nat) (fpdat : Byte) (addr length : Nat) (src : Source) :
    (blockWrite n fpdat addr length src).Uses P :=
  (uses_writeAr hP _).andThen (uses_blockLoop (uses_writeSubBlock hP n src) _ _ _ _)
theorem uses_overlay (hP : Plain P) (hs : ∀ i b, P (.storeScratch i b)) (start count : Nat) :
    (overlay start count).Uses P :=
  uses_forUp (fun _ => uses_prim (hP _ rfl) fun _ => uses_act (hs _ _)) _ _
theorem uses_flashChunk (hP : Plain P) (hs : ∀ i b, P (.storeScratch i b)) (n : Nat) (fpdat : Byte) (erratum : Bit)
    (addr length p : Nat) : (flashChunk n fpdat erratum addr length p).Uses P := by
  refine Prog.Uses.andThen ?_ <| (uses_overlay hP hs _ _).andThen <| (uses_erasePage hP _ _ _ _).andThen <|
    (uses_blockWrite hP _ _ _ _ _).andThen (uses_ret _)
  split
  · exact uses_blockRead (dest := .scratch) hP _ _ _ _ hs
  · exact uses_ret _

/-- The primitives of the operations: nothing is stored to BUF but by a `BLOCK_READ` that stores, nothing to SCRATCH but by
`FLASH_CHUNK`; once admitted, an operation fails with `BusTimeout` or `ProtocolRejected`. -/
theorem uses_operation (hP : Plain P) {i : Instr} {o : Operation} (h : operationOfInstr i = some o) (s : State)
    (hb : i = .blockRead → flagDiscard s.flags = false → ∀ k b, P (.storeBuf k b))
    (hs : i = .flashChunk → ∀ k b, P (.storeScratch k b)) : (o.prog s).Uses P := by
  cases i <;> simp only [operationOfInstr, Option.some.injEq, reduceCtorEq] at h <;> subst h
  · exact (uses_writeAr hP _).andThen (uses_ret _)
  · exact (uses_readAr hP).bind fun _ => uses_ret _
  · exact (uses_writeDr hP _).andThen (uses_ret _)
  · exact (uses_readDr hP).bind fun _ => uses_ret _
  · exact (uses_piWrite hP _).andThen (uses_ret _)
  · exact (uses_piGet hP _).bind fun _ => uses_ret _
  · exact (uses_piCheckOk hP _).andThen (uses_ret _)
  · exact (uses_piCommand hP _ _ _ _).bind fun _ => uses_ret _
  · exact (uses_readDirect hP _ _ _).bind fun _ => uses_ret _
  · exact (uses_writeDirect hP _ _ _ _).andThen (uses_ret _)
  · refine (uses_blockRead hP _ _ _ _ ?_).andThen (uses_ret _)
    split
    · trivial
    · next hd => exact hb rfl (by simpa using hd)
  · exact (uses_blockWrite hP _ _ _ _ _).andThen (uses_ret _)
  · exact (uses_erasePage hP _ _ _ _).andThen (uses_ret _)
  · exact (uses_eraseDevice hP _ _).andThen (uses_ret _)
  · exact (uses_resetAndHalt hP _).andThen (uses_ret _)
  · exact (uses_getDeviceInfo hP).bind fun _ => uses_ret _
  · exact (uses_getPiInfo hP _ _).bind fun _ => uses_ret _
  · exact (uses_flashChunk hP (hs rfl) _ _ _ _ _ _).bind fun _ => uses_ret _

/-! ## The answers of one frame -/

theorem serialise_nextByte (s : State) (k : Nat) :
    serialise (s.nextByte k) = [s.line k, s.line (k + 1), s.line (k + 2), s.line (k + 3), s.line (k + 4), s.line (k + 5),
      s.line (k + 6), s.line (k + 7)] :=
  serialise_assemble ..

/-- Any eight samples answer a Read AR frame with the byte they make. -/
theorem answers_ra (s : State) : Answers s [.ra (s.nextByte 0)] := by
  have h : samplesOf [Xact.ra (s.nextByte 0)] = serialise (s.nextByte 0) := by simp [samplesOf, Xact.samples]
  rw [Answers, h, length_serialise, serialise_nextByte]
  simp [State.lines, List.range_succ]

/-- The samples of a Write DR frame that is ready at its try `n + 1`. -/
theorem answers_wd {s : State} (d : Byte) {n : Nat} (h0 : ∀ k < n, s.line k = false) (h1 : s.line n = true) :
    Answers s [.wd d (n + 1)] := by
  refine lines_eq_iff.mpr fun k hk => ?_
  simp [samplesOf, Xact.samples] at hk ⊢
  by_cases hkn : k < n
  · rw [List.getElem_append_left (by simpa)]; simp [h0 k hkn]
  · obtain rfl : k = n := by omega
    rw [List.getElem_append_right (by simp)]; simp [h1]

/-- The samples of a Read DR frame that is ready at its try `n + 1`, with the byte the eight samples after it make. -/
theorem answers_rd {s : State} {n : Nat} (h0 : ∀ k < n, s.line k = false) (h1 : s.line n = true) :
    Answers s [.rd (s.nextByte (n + 1)) (n + 1)] := by
  refine lines_eq_iff.mpr fun k hk => ?_
  simp [samplesOf, Xact.samples] at hk ⊢
  by_cases hkn : k < n
  · rw [List.getElem_append_left (by simpa)]; simp [h0 k hkn]
  · rw [List.getElem_append_right (by simpa using hkn)]
    obtain ⟨j, rfl⟩ : ∃ j, k = n + j := ⟨k - n, by omega⟩
    simp only [List.length_replicate, Nat.add_sub_cancel_left, serialise_nextByte]
    match j, (by omega : j < 9) with
    | 0, _ => simpa using h1
    | 1, _ | 2, _ | 3, _ | 4, _ | 5, _ | 6, _ | 7, _ | 8, _ => rfl

/-! ## Commands and layer calls that fail after frames which were answered -/

theorem command_doesFail {op : Byte} {o : Operation} {s : State} {k : FailKind} {xs : List Xact} (hr : Ready s)
    (ha : o.admission (s.start op) = none) (hans : Answers s xs) (h : DoesFail (o.prog (s.start op)) k xs) :
    FailedWith s (runOperation op o s) k (s.start op).bufIsDest ∧ OnWire s (runOperation op o s) xs := by
  obtain ⟨t, ht⟩ := h (s.start op) hr.1 hans
  exact (command_fails hr.2.2 ha ht).symm

theorem layer_doesFail {p : Prog α} {s : State} {k : FailKind} {xs : List Xact} {d : Bool} (hr : Ready s)
    (hans : Answers s xs) (h : DoesFail p k xs) :
    FailedWith s (layerCall p d s) k d ∧ OnWire s (layerCall p d s) xs := by
  obtain ⟨t, ht⟩ := h s hr.1 hans
  exact (layer_fails hr.2.2 ht).symm

end Sys2Proof.Machine
end

