-- ==== Sys2Proof/Tests/Slice0.lean ====
section
/-! SUPPORT. Tests. Expected values are the spec's own: the encodings of 30_encoding.md and the vectors V<n> of
95_test_vectors.md. After them, one witness for the hypotheses of each statement that has any. -/

namespace Sys2Proof.Tests

open Sys2Proof Sys2Proof.Machine

/-! ## Well-formedness: the one operand whose type admits more than its encoding (R104) -/

theorem test_readOfNoByte_refused : (Instr.piBlockRead 0#16 0).wellFormed = false := by decide
theorem test_readOf257Bytes_refused : (Instr.piBlockRead 0#16 257).wellFormed = false := by decide
theorem test_writeOfNoByte_refused : (Instr.piBlockWrite 0#16 0).wellFormed = false := by decide
theorem test_writeOf257Bytes_refused : (Instr.piBlockWrite 0#16 257).wellFormed = false := by decide
theorem test_readOf256Bytes_wellFormed : (Instr.piBlockRead 0#16 256).wellFormed = true := by decide

/-! ## Decoding, words written out from the spec's encodings -/

/-- V5, R93: INS 1,1, then 0xB4 bit 0 first: 0,0,1,0,1,1,0,1. -/
theorem test_decode_writeArFrame : decodeFrameWord 0b0000001011010011#16 = .ok (.writeArFrame 0xB4#8) := by rfl
/-- R94: INS 0,1. -/
theorem test_decode_readArFrame : decodeFrameWord 0b10#16 = .ok .readArFrame := by rfl
/-- V14, R95: INS 1,0, LENGTH 00, then 0xA5. -/
theorem test_decode_writeDrFrame : decodeFrameWord 0b0000101001010001#16 = .ok (.writeDrFrame 0xA5#8) := by rfl
/-- R96: INS 0,0, LENGTH 00. -/
theorem test_decode_readDrFrame : decodeFrameWord 0#16 = .ok .readDrFrame := by rfl
/-- R97: a LENGTH of two bytes is reserved. -/
theorem test_decode_longFrame_refused : decodeFrameWord 0b0100#16 = .error .reservedLength := by rfl

/-- The fixture's PI command bytes (G3 of 93_implementation_defined.md), for these tests only. -/
def fixtureCodes : Config.PiCodes := ⟨0x03#8, 0x06#8, 0x07#8, 0x08#8, 0x09#8, 0x0A#8⟩

theorem test_decode_piGetVersion : decodePi fixtureCodes [0x01#8] = .ok (.piGetVersion, []) := by rfl
theorem test_decode_piGetDerivative : decodePi fixtureCodes [0x02#8] = .ok (.piGetDerivative, []) := by rfl
/-- V46: the key DE AD A5. -/
theorem test_decode_piDeviceErase :
    decodePi fixtureCodes [0x03#8, 0xDE#8, 0xAD#8, 0xA5#8] = .ok (.piDeviceErase, []) := by rfl
theorem test_decode_wrongKey_refused :
    decodePi fixtureCodes [0x03#8, 0xDE#8, 0xAD#8, 0xA4#8] = .error .wrongKey := by rfl
/-- V40: the header 01, 00, 00 is 256 bytes at 0x0100. -/
theorem test_decode_piBlockRead :
    decodePi fixtureCodes [0x06#8, 0x01#8, 0x00#8, 0x00#8] = .ok (.piBlockRead 0x0100#16 256, []) := by rfl
/-- V39: the header 01, 00, 01. -/
theorem test_decode_piBlockWrite :
    decodePi fixtureCodes [0x07#8, 0x01#8, 0x00#8, 0x01#8] = .ok (.piBlockWrite 0x0100#16 1, []) := by rfl
/-- V43. -/
theorem test_decode_piPageErase : decodePi fixtureCodes [0x08#8, 0x03#8, 0x00#8] = .ok (.piPageErase 0x03#8, []) := by rfl
/-- V35. -/
theorem test_decode_piDirectRead : decodePi fixtureCodes [0x09#8, 0xF5#8, 0x01#8] = .ok (.piDirectRead 0xF5#8, []) := by rfl
/-- V36. -/
theorem test_decode_piDirectWrite :
    decodePi fixtureCodes [0x0A#8, 0xF5#8, 0x01#8, 0x11#8] = .ok (.piDirectWrite 0xF5#8 0x11#8, []) := by rfl
theorem test_decode_unknownPiByte_refused : decodePi fixtureCodes [0x0B#8] = .error .unknownPiCommand := by rfl

/-- R105, R107, R106. -/
theorem test_decode_oneByteSpaces :
    decodeResp 0x0D#8 = .ok .piRespOk ∧ decodeResp 0x00#8 = .ok .piRespInvalid ∧ decodeResp 0x02#8 = .ok .piRespFailed ∧
    decodeFpctl 0x02#8 = .ok .fpctlReset ∧ decodeFpctl 0x04#8 = .ok .fpctlCoreReset ∧
    decodeFpctl 0x01#8 = .ok .fpctlHalt ∧ decodeMask 0x01#8 = .ok .arOutReady ∧ decodeMask 0x02#8 = .ok .arInBusy :=
  ⟨rfl, rfl, rfl, rfl, rfl, rfl, rfl, rfl⟩
/-- R109, and R111 for 0x14. -/
theorem test_decode_hostOpcodes :
    decodeHost 0x13#8 = .ok .readDr ∧ decodeHost 0x23#8 = .ok .piCommand ∧ decodeHost 0x34#8 = .ok .erasePage ∧
    decodeHost 0x40#8 = .ok .flashChunk ∧ decodeHost 0x14#8 = .error .illegalOpcode :=
  ⟨rfl, rfl, rfl, rfl, rfl⟩

/-- Table words: a host opcode, a frame by its INS bits, a response, an FPCTL byte. -/
theorem test_tableWords :
    decodeTableWord 8 0x36 = some .resetHalt ∧ decodeTableWord 8 0x03 = some (.writeArFrame 0#8) ∧
    decodeTableWord 8 0x0D = some .piRespOk ∧ decodeTableWord 8 0x04 = some .fpctlCoreReset := by decide

/-! ## One command or frame each -/

/-- The state after reset with the target about to answer `xs`. -/
def ready (xs : List Xact) : State := { State.reset with din := samplesOf xs }

/-- That, with a family selected (P1 step 3). -/
def readyFamily (xs : List Xact) : State :=
  { ready xs with fpdatAddr := 0xB4#8, pageSize := 256#32, familyCtl := 0x01#8 }

/-- One field of the next state. -/
def after {α : Type} (o : Host.Outcome State Fault Refusal) (f : State → α) : Option α :=
  match o with
  | .next t => some (f t)
  | .fault _ => none
  | .refused _ => none

/-- A trace without its delays. -/
def bare (s : State) : List Event := s.trace.filter fun e => !e.isDelay

/-- V5: `write_ar(0xB4)`. -/
theorem test_writeAr_trace :
    after (exec .writeAr { ready [] with byte0 := 0xB4#8 }) bare =
      some ([.ck false, .ck true, .d true, .ck false, .ck true, .d true, .ck false, .ck true,
        .d false, .ck false, .ck true, .d false, .ck false, .ck true, .d true, .ck false, .ck true,
        .d false, .ck false, .ck true, .d true, .ck false, .ck true, .d true, .ck false, .ck true,
        .d false, .ck false, .ck true, .d true, .ck false, .ck true, .dz, .ck false, .ck true]) := by decide
/-- V11. -/
theorem test_readAr_byte :
    after (exec .readAr { ready [] with din := [false, true, false, false, false, false, false, true] })
      (fun t => (t.res0, t.status)) = some (0x82#8, 0x02#8) := by decide
/-- R25: after the two INS bits BITCNT is 2, at the DATA field it is 0 again, and after four of its bits 4. -/
theorem test_bitcnt_counts_each_field :
    (((idleField.andThen (sendPair insWriteAr)).run (ready [])).2.bitcnt,
      (((sendPair length1Byte).andThen (act .startField)).run (ready [])).2.bitcnt,
      ((sendField 4 0xA5#8).run (ready [])).2.bitcnt) = (2, 0, 4) := by decide
/-- V15: ready at the third try; V17, V66: never ready. -/
theorem test_writeDr_ready : after (exec .writeDr (ready [.wd 0x0D#8 3])) (fun t => (t.status, t.samples)) =
    some (0x02#8, 3) := by decide +kernel
theorem test_writeDr_timeout :
    after (exec .writeDr { ready [] with din := List.replicate 20 false }) (fun t => (t.status, t.samples, t.ck, t.dOe)) =
      some (0x06#8, 20, true, false) := by decide +kernel
/-- V19. -/
theorem test_readDr_byte :
    after (exec .readDr { ready [] with din := [false, true, false, true, false, false, false, false, true, true] })
      (fun t => (t.res0, t.status)) = some (0xC2#8, 0x02#8) := by decide +kernel
/-- V21. -/
theorem test_readDr_timeout :
    after (exec .readDr { ready [] with din := List.replicate 60 false }) (fun t => (t.status, t.samples)) =
      some (0x06#8, 50) := by decide +kernel
/-- V24. -/
theorem test_piWrite_busyTwice :
    after (exec .piWrite (ready [.wd 0x01#8 1, .ra 0x02#8, .ra 0x02#8, .ra 0x00#8])) (fun t => (t.status, t.samples)) =
      some (0x02#8, 25) := by decide +kernel
/-- V28. -/
theorem test_piGet_third :
    after (exec .piGet (ready [.ra 0x00#8, .ra 0x00#8, .ra 0x01#8, .rd 0x0D#8 1])) (fun t => (t.res0, t.status)) =
      some (0x0D#8, 0x02#8) := by decide +kernel
/-- V30: `POLL_OUT` = 0. -/
theorem test_piGet_noBudget :
    after (exec .piGet { ready [] with pollOut := 0#32 }) (fun t => (t.status, t.trace)) = some (0x06#8, []) := by decide
/-- V31. -/
theorem test_piCheckOk_rejects :
    after (exec .piCheckOk (ready [.ra 0x01#8, .rd 0x0C#8 1])) (·.status) = some 0x0A#8 := by decide
/-- V34. -/
theorem test_piCommand_result :
    after (exec .piCommand { ready [.wd 0x01#8 1, .ra 0x01#8, .ra 0x01#8, .rd 0x0D#8 1, .ra 0x01#8, .rd 0x10#8 1] with
      byte0 := 0x01#8, flags := 0x03#8 }) (fun t => (t.res0, t.status)) = some (0x10#8, 0x02#8) := by decide +kernel
/-- V32: unverified, a result wanted: nothing is read. -/
theorem test_piCommand_unverified :
    after (exec .piCommand { ready [.wd 0x01#8 1, .ra 0x01#8] with flags := 0x02#8 }) (fun t => (t.samples, t.status)) =
      some (9, 0x02#8) := by decide +kernel
/-- V48, V64. -/
theorem test_getDeviceInfo :
    after (exec .getDeviceInfo (ready [.wa 0x00#8, .rd 0x05#8 1, .wa 0x01#8, .rd 0x02#8 1]))
      (fun t => (t.deviceId, t.revisionId, t.res0, t.res1, t.status)) =
        some (0x05#8, 0x02#8, 0x05#8, 0x02#8, 0x22#8) := by decide +kernel
/-- V68: no family. -/
theorem test_erasePage_noFamily : after (exec .erasePage (ready [])) (fun t => (t.status, t.trace)) =
    some (0x0E#8, []) := by decide
/-- V60: a page size that is no power of two. -/
theorem test_flashChunk_badPage :
    after (exec .flashChunk { readyFamily [] with pageSize := 300#32 }) (fun t => (t.status, t.trace)) =
      some (0x1E#8, []) := by decide
/-- V69: 0x39 is no opcode. -/
theorem test_illegalOpcode : after (step { ready [] with port := [.run 0x39#8] }) (fun t => (t.status, t.trace)) =
    some (0x1E#8, []) := by decide
/-- V4a: a sample while the core drives the line. -/
theorem test_drivenSample_faults :
    performNext [] (.prim .readData fun _ => .ret {}) { ready [] with dOe := true } = .fault .sampleWhileDriven := by rfl
/-- R290, R28. -/
theorem test_refusals :
    step { ready [] with port := [.otherMaster] } = .refused .secondMaster ∧
    step { ready [] with port := [.read .cmd] } = .refused .readOfWriteOnly ∧
    step { ready [] with port := [.write .res0 0#32] } = .refused .writeOfReadOnly ∧
    step { ready [] with port := [.layer .fpctl [0x08#8]] } = .refused .undecodable :=
  ⟨rfl, rfl, rfl, rfl⟩
/-- P3: the three calls of a region of 400 bytes at 200. -/
theorem test_region_calls : regionCalls 256 400 200 400 = [(200, 400, 56), (256, 344, 256), (512, 88, 88)] := by decide

/-! ## Witnesses: concrete states and operands that meet the hypotheses of each statement, at the ends of their ranges -/

theorem ready_of {s : State} (h1 : s.ck = true) (h2 : s.dOe = false) (h3 : s.seq = .idle) (h4 : s.status = 0#8) :
    Ready s := ⟨⟨h1, h2⟩, h3, by simp [State.busy, statusBusy, h4]⟩
theorem ready_ready (xs : List Xact) : Ready (ready xs) := ready_of rfl rfl rfl rfl
theorem ready_family (xs : List Xact) : Ready (readyFamily xs) := ready_of rfl rfl rfl rfl
theorem answers_ready (xs : List Xact) : Answers (ready xs) xs :=
  answers_of_din (rest := []) (List.append_nil _).symm
/-- Any state whose queued answers are those of a sequence. -/
theorem answers_queued {s : State} {xs : List Xact} (h : s.din = samplesOf xs) : Answers s xs :=
  answers_of_din (rest := []) (h.trans (List.append_nil _).symm)

/-- The line at a sample that is queued. -/
theorem line_queued {s : State} {k : Nat} {b : Bit} (h : s.din[k]? = some b) : s.line k = b := by
  simp [State.line, lineAt, h]

/-- The line at the samples behind a prefix, where one level is queued. -/
theorem line_behind {s : State} {l : List Bit} {n k : Nat} {b : Bit} (h : s.din = l ++ List.replicate n b) (hk : k < n) :
    s.line (l.length + k) = b :=
  line_queued (by rw [h, List.getElem?_append_right (Nat.le_add_right _ _), Nat.add_sub_cancel_left,
    List.getElem?_replicate, if_pos hk])
theorem line_repeated {s : State} {n k : Nat} {b : Bit} (h : s.din = List.replicate n b) (hk : k < n) : s.line k = b :=
  line_queued (by rw [h, List.getElem?_replicate, if_pos hk])

/-- A byte taken at once, and at the last try after the most busy polls. -/
def atOnce : Taken := ⟨1, [], 0x00#8⟩
def atLast : Taken := ⟨20, List.replicate 19 0x02#8, 0xFD#8⟩
/-- A byte given at once, and at the last try of the default budget. -/
def given (v : Byte) : Given := ⟨[], 0x01#8, 1, v⟩
def givenLast (v : Byte) : Given := ⟨List.replicate 99 0xFE#8, 0x01#8, 50, v⟩
def checked : Checked := ⟨atOnce, given 0x0D#8⟩
def header : HeaderAnswer := ⟨checked, atOnce, atOnce, checked⟩
def query (v : Byte) : QueryAnswer := ⟨checked, given v⟩
def reads (n : Nat) : ReadAnswer := ⟨header, List.replicate n (given 0x07#8)⟩
def writes (n : Nat) : WriteAnswer := ⟨header, List.replicate n atOnce⟩

theorem atLast_ok : atLast.ok = true := by decide
theorem givenLast_ok : (givenLast 0xA5#8).ok 100 = true := by decide

/-! ### Encoding -/

theorem test_witness_EncodeThenDecode :
    fixtureCodes.Distinct ∧ (Instr.piBlockRead 0xFFFF#16 256).wellFormed = true ∧
      (Instr.piBlockRead 0xFFFF#16 1).wellFormed = true := by
  refine ⟨?_, by decide, by decide⟩
  simp [Config.PiCodes.Distinct, fixtureCodes, Config.piGetVersion, Config.piGetDerivative]
theorem test_witness_DecodeThenEncode :
    decodeWith fixtureCodes .pi [0x07#8, 0xFF#8, 0xFF#8, 0x00#8, 0xAA#8] = .ok (.piBlockWrite 0xFFFF#16 256, [0xAA#8]) := by
  rfl
theorem test_witness_CountingStrobes :
    (WireFrame.writeDr 0x5A#8 20).inBudget = true ∧ (WireFrame.readDr 0x5A#8 50).inBudget = true ∧
      (WireFrame.writeDr 0x5A#8 1).inBudget = true ∧ (WireFrame.readAr 0x5A#8).inBudget = true := by decide
theorem test_witness_ReservedLength :
    (0b0100#16).getLsbD 1 = false ∧ (0b0100#16).extractLsb' 2 2 ≠ 0#2 ∧ (true || false) = true := by decide
theorem test_witness_HostOpcodes : decodeHost 0x24#8 = .error .illegalOpcode := by rfl
theorem test_witness_BytesTravel : [true, false, true, false, false, false, false, false].length = 8 ∧ 7 < 8 := by decide
theorem test_witness_triesPositive : 1 ≤ 1 ∧ 1 ≤ 20 ∧ 1 ≤ 50 := by decide
theorem test_witness_DirectionChanges : writeDrTimeoutEvents 0x5A#8 ∈ [writeArEvents 0#8, readArEvents 0#8,
    writeDrEvents 0#8 1, readDrEvents 0#8 1, writeDrTimeoutEvents 0x5A#8, readDrTimeoutEvents] := by simp
theorem test_witness_FramingRoundTrip :
    ∃ s : State, Ready s ∧ ((slotsOf (writeArEvents 0xB4#8)).drop 3).take 8 = (s.lines 8).map .driven := by
  refine ⟨ready [.ra 0xB4#8], ready_of rfl rfl rfl rfl, ?_⟩
  have h : (ready [.ra 0xB4#8]).lines 8 = serialise 0xB4#8 := answers_ready [.ra 0xB4#8]
  rw [h]
  decide
theorem test_witness_FramingRoundTrip_dr :
    ∃ s : State, Ready s ∧ s.line 0 = true ∧
      ((slotsOf (writeDrEvents 0xC2#8 1)).drop 5).take 8 = ((s.lines 9).drop 1).map .driven := by
  refine ⟨ready [.rd 0xC2#8 1], ready_of rfl rfl rfl rfl, line_queued rfl, ?_⟩
  have h : (ready [.rd 0xC2#8 1]).lines 9 = true :: serialise 0xC2#8 := answers_ready [.rd 0xC2#8 1]
  rw [h]
  decide

/-! ### Register commands and frames -/

theorem test_witness_WriteAr : Ready (ready []) := ready_of rfl rfl rfl rfl
theorem test_witness_ReadAr : Ready (ready [.ra 0x82#8]) := ready_of rfl rfl rfl rfl
/-- The WAIT field ready at the first and at the last try, and never. -/
theorem test_witness_WriteDr :
    (Ready (ready [.wd 0#8 1]) ∧ (ready [.wd 0#8 1]).line 0 = true) ∧
    (Ready (ready [.wd 0#8 20]) ∧ (∀ k < 19, (ready [.wd 0#8 20]).line k = false) ∧ (ready [.wd 0#8 20]).line 19 = true) ∧
    Ready { ready [] with din := List.replicate 50 false } ∧
      ∀ k < 20, ({ ready [] with din := List.replicate 50 false } : State).line k = false := by
  refine ⟨⟨ready_of rfl rfl rfl rfl, line_queued rfl⟩, ⟨ready_of rfl rfl rfl rfl, ?_, line_queued rfl⟩, ready_of rfl rfl rfl rfl, ?_⟩
  · intro k hk
    have : ∀ k < 19, (ready [.wd 0#8 20]).din[k]? = some false := by decide
    exact line_queued (this k hk)
  · exact fun k hk => line_repeated (n := 50) rfl (by omega)
theorem test_witness_ReadDr :
    (Ready (ready [.rd 0xA5#8 50]) ∧ (∀ k < 49, (ready [.rd 0xA5#8 50]).line k = false) ∧
      (ready [.rd 0xA5#8 50]).line 49 = true) ∧
    Ready { ready [] with din := List.replicate 50 false } ∧
      ∀ k < 50, ({ ready [] with din := List.replicate 50 false } : State).line k = false := by
  refine ⟨⟨ready_of rfl rfl rfl rfl, ?_, line_queued rfl⟩, ready_of rfl rfl rfl rfl, ?_⟩
  · intro k hk
    have : ∀ k < 49, (ready [.rd 0xA5#8 50]).din[k]? = some false := by decide
    exact line_queued (this k hk)
  · exact fun k hk => line_repeated (n := 50) rfl (by omega)
theorem test_witness_FrameRows :
    (Instr.fpctlHalt, 0x01#8) ∈ [(Instr.writeDrFrame 0x01#8, 0x01#8), (.fpctlReset, 0x02#8), (.fpctlCoreReset, 0x04#8),
      (.fpctlHalt, 0x01#8)] := by decide

/-! ### PI commands -/

theorem test_witness_PiWrite :
    Ready (ready (atLast.xacts 0#8)) ∧ atLast.ok = true ∧ Answers (ready (atLast.xacts 0#8)) (atLast.xacts 0#8) :=
  ⟨ready_of rfl rfl rfl rfl, atLast_ok, answers_ready _⟩
theorem test_witness_PiWrite_busy :
    let xs := Xact.wd 0#8 20 :: exhaustedXacts 1 (List.replicate 20 0xFF#8)
    Ready (ready xs) ∧ (List.replicate 20 0xFF#8).length = 20 ∧
      (∀ r ∈ List.replicate 20 0xFF#8, r.getLsbD 1 = true) ∧ Answers (ready xs) xs :=
  ⟨ready_of rfl rfl rfl rfl, rfl, by decide, answers_ready _⟩
theorem test_witness_PiGet :
    Ready (ready (givenLast 0xA5#8).xacts) ∧ (givenLast 0xA5#8).ok (ready (givenLast 0xA5#8).xacts).pollOut.toNat = true ∧
      Answers (ready (givenLast 0xA5#8).xacts) (givenLast 0xA5#8).xacts :=
  ⟨ready_of rfl rfl rfl rfl, givenLast_ok, answers_ready _⟩
/-- `POLL_OUT` tries without a byte, 3 and 0 of them (V30). -/
theorem test_witness_PiGet_notReady :
    let s : State := { ready (exhaustedXacts 1 (List.replicate 3 0xFE#8)) with pollOut := 3#32 }
    Ready s ∧ (List.replicate 3 0xFE#8).length = s.pollOut.toNat ∧
      (∀ r ∈ List.replicate 3 0xFE#8, r.getLsbD 0 = false) ∧ Answers s (exhaustedXacts 1 (List.replicate 3 0xFE#8)) :=
  ⟨ready_of rfl rfl rfl rfl, rfl, by decide, answers_queued rfl⟩
theorem test_witness_PiGet_noBudget :
    let s : State := { ready [] with pollOut := 0#32 }
    Ready s ∧ ([] : List Byte).length = s.pollOut.toNat ∧ Answers s (exhaustedXacts 1 []) :=
  ⟨ready_of rfl rfl rfl rfl, rfl, answers_queued rfl⟩
theorem test_witness_PiGet_waitExhausted :
    let s : State := { ready [] with din := samplesOf (given 0#8).pollXacts ++ List.replicate 50 false }
    Ready s ∧ (given 0#8).pollOk s.pollOut.toNat = true ∧ Answers s (given 0#8).pollXacts ∧
      ∀ k < 50, s.line ((samplesOf (given 0#8).pollXacts).length + k) = false := by
  exact ⟨ready_of rfl rfl rfl rfl, by decide, answers_of_din rfl, fun k hk => line_behind rfl hk⟩
theorem test_witness_PiCheckOk :
    (Ready (ready (given 0x0D#8).xacts) ∧ (given 0x0D#8).ok 100 = true ∧
      Answers (ready (given 0x0D#8).xacts) (given 0x0D#8).xacts) ∧
    (given 0x0C#8).ok 100 = true ∧ (given 0x0C#8).value ≠ 0x0D#8 ∧
      Answers (ready (given 0x0C#8).xacts) (given 0x0C#8).xacts :=
  ⟨⟨ready_of rfl rfl rfl rfl, by decide, answers_ready _⟩, by decide, by decide, answers_ready _⟩
theorem test_witness_PiCommand :
    flagVerify 0x02#8 = false ∧ flagVerify 0x01#8 = true ∧ flagWantResult 0x01#8 = false ∧ flagVerify 0x03#8 = true ∧
    flagWantResult 0x03#8 = true ∧ checked.ok 100 = true ∧ (query 0x10#8).ok 100 = true ∧
    (let s : State := { ready ((query 0x10#8).xacts 0x01#8) with byte0 := 0x01#8, flags := 0x03#8 };
      Ready s ∧ Answers s ((query 0x10#8).xacts s.byte0)) ∧
    let s : State := { ready (atOnce.xacts 0x08#8 ++ (given 0x02#8).xacts) with byte0 := 0x08#8, flags := 0x01#8 }
    Ready s ∧ (given 0x02#8).value ≠ 0x0D#8 ∧ Answers s (atOnce.xacts s.byte0 ++ (given 0x02#8).xacts) :=
  ⟨by decide, by decide, by decide, by decide, by decide, by decide, by decide, ⟨ready_of rfl rfl rfl rfl, answers_queued rfl⟩,
    ready_of rfl rfl rfl rfl, by decide, answers_queued rfl⟩

/-- Answers to the PI commands of one page, one register and the whole device. -/
def pageErase : PageEraseAnswer := ⟨checked, checked, checked⟩
def directRead : DirectReadAnswer := ⟨checked, atOnce, atOnce, given 0x33#8⟩
def directWrite : DirectWriteAnswer := ⟨checked, atOnce, atOnce, atOnce⟩
def deviceErase : DeviceEraseAnswer := ⟨checked, atOnce, atOnce, atOnce, given 0x0D#8⟩

theorem test_witness_PiRows :
    (query 0x20#8).ok 100 = true ∧ pageErase.ok 100 = true ∧ directRead.ok 100 = true ∧ directWrite.ok 100 = true ∧
    deviceErase.ok 100 = true ∧ Answers (ready deviceErase.xacts) deviceErase.xacts ∧
    Answers (ready (directRead.xacts 0xF5#8)) (directRead.xacts 0xF5#8) :=
  ⟨by decide, by decide, by decide, by decide, by decide, answers_ready _, answers_ready _⟩
/-- One sub-block of 1 and of 256 bytes. -/
theorem test_witness_PiBlockRows :
    (reads 1).ok 100 1 = true ∧ (reads 256).ok 100 256 = true ∧ (writes 256).ok 100 256 = true ∧
    Answers (ready ((reads 256).xacts 0x0100 256)) ((reads 256).xacts 0x0100 256) ∧
    let xs := (writes 256).xacts 0x0100 256 (loadedBytes [] 0 0 256)
    Answers (ready xs) ((writes 256).xacts 0x0100 256 (loadedBytes (ready xs).buf (ready xs).fresh 0 256)) :=
  ⟨by decide, by decide +kernel, by decide +kernel, answers_ready _, answers_ready _⟩
theorem test_witness_Masks :
    (given 0#8).pollOk 100 = true ∧ Answers (ready (given 0#8).pollXacts) (given 0#8).pollXacts ∧
    (let xs := (List.replicate 19 0x02#8).flatMap (fun r => [Xact.ra r, .gap 1]) ++ [.ra 0xFD#8];
      Answers (ready xs) xs) ∧
    let xs := exhaustedXacts 1 (List.replicate 20 0x02#8)
    Answers (ready xs) xs :=
  ⟨by decide, answers_ready _, answers_ready _, answers_ready _⟩

/-! ### Flash commands -/

theorem test_witness_DirectAccess :
    let s : State := { readyFamily (.wa 0xB4#8 :: directRead.xacts 0xF5#8) with byte0 := 0xF5#8 }
    Ready s ∧ ctlFamilyValid s.familyCtl = true ∧ directRead.ok s.pollOut.toNat = true ∧
      Answers s (.wa s.fpdatAddr :: directRead.xacts s.byte0) :=
  ⟨ready_of rfl rfl rfl rfl, by decide, by decide, answers_queued rfl⟩
theorem test_witness_DirectAccess_write :
    let s : State := readyFamily (.wa 0xB4#8 :: directWrite.xacts 0#8 0#8)
    Ready s ∧ ctlFamilyValid s.familyCtl = true ∧ directWrite.ok s.pollOut.toNat = true ∧
      Answers s (.wa s.fpdatAddr :: directWrite.xacts s.byte0 s.byte1) :=
  ⟨ready_of rfl rfl rfl rfl, by decide, by decide, answers_queued rfl⟩

theorem size_buf : 256 ≤ Config.bufSize := Nat.le_add_left _ _
theorem size_scratch : 1 ≤ Config.scratchSize := Nat.le_add_left _ _

/-- 256 bytes that end with the flash address space, into BUF; 257 and no bytes, discarded. -/
theorem test_witness_BlockRead :
    let s : State := { readyFamily (.wa 0xB4#8 :: readBlockXacts 0xFF00 256 [reads 256]) with
      addr := 0xFF00#16, len := 256#32 }
    Ready s ∧ ctlFamilyValid s.familyCtl = true ∧ s.len.toNat ≤ Config.bufSize ∧ s.addr.toNat + s.len.toNat = 65536 ∧
      readAnswersOk s.pollOut.toNat s.len.toNat [reads 256] = true ∧
      Answers s (.wa s.fpdatAddr :: readBlockXacts s.addr.toNat s.len.toNat [reads 256]) :=
  ⟨ready_of rfl rfl rfl rfl, by decide, size_buf, by decide, by decide +kernel, answers_queued rfl⟩
theorem test_witness_BlockRead_discard :
    let s : State := { readyFamily (.wa 0xB4#8 :: readBlockXacts 0x0100 257 [reads 256, reads 1]) with
      addr := 0x0100#16, len := 257#32, flags := 0x04#8 }
    Ready s ∧ flagDiscard s.flags = true ∧ readAnswersOk s.pollOut.toNat s.len.toNat [reads 256, reads 1] = true ∧
      Answers s (.wa s.fpdatAddr :: readBlockXacts s.addr.toNat s.len.toNat [reads 256, reads 1]) :=
  ⟨ready_of rfl rfl rfl rfl, by decide, by decide +kernel, answers_queued rfl⟩
theorem test_witness_BlockRead_empty :
    readAnswersOk 100 0 [] = true ∧ writeAnswersOk 100 0 [] = true ∧
      Answers (readyFamily [.wa 0xB4#8]) (.wa (readyFamily []).fpdatAddr :: readBlockXacts 0 0 []) :=
  ⟨rfl, rfl, answers_queued rfl⟩
theorem test_witness_BlockWrite :
    let s : State := { readyFamily (.wa 0xB4#8 :: writeBlockXacts 0xFF00 256 (loadedBytes [] 0 0 256) [writes 256]) with
      addr := 0xFF00#16, len := 256#32 }
    Ready s ∧ s.len.toNat ≤ Config.bufSize ∧ s.addr.toNat + s.len.toNat = 65536 ∧
      writeAnswersOk s.pollOut.toNat s.len.toNat [writes 256] = true ∧
      Answers s (.wa s.fpdatAddr ::
        writeBlockXacts s.addr.toNat s.len.toNat (loadedBytes s.buf s.fresh 0 s.len.toNat) [writes 256]) :=
  ⟨ready_of rfl rfl rfl rfl, size_buf, by decide, by decide +kernel, answers_queued rfl⟩
theorem test_witness_SubBlocks :
    readAnswersOk 100 257 [reads 256, reads 1] = true ∧ 65535 < 65536 ∧ 1 ≤ 256 ∧ 256 ≤ 256 := by decide +kernel
/-- Without and with the erratum restore. -/
def erase : ErasePageAnswer := ⟨pageErase, directWrite⟩
theorem test_witness_ErasePage :
    (let s : State := { readyFamily (erase.xacts 0xB4#8 false 0x03#8) with byte0 := 0x03#8 };
      Ready s ∧ erase.ok s.pollOut.toNat (ctlErratumF5 s.familyCtl) = true ∧
        Answers s (erase.xacts s.fpdatAddr (ctlErratumF5 s.familyCtl) s.byte0)) ∧
    let s : State := { readyFamily (erase.xacts 0xB4#8 true 0x03#8) with byte0 := 0x03#8, familyCtl := 0x03#8 }
    Ready s ∧ ctlFamilyValid s.familyCtl = true ∧ erase.ok s.pollOut.toNat (ctlErratumF5 s.familyCtl) = true ∧
      Answers s (erase.xacts s.fpdatAddr (ctlErratumF5 s.familyCtl) s.byte0) :=
  ⟨⟨ready_of rfl rfl rfl rfl, by decide, answers_queued rfl⟩, ready_of rfl rfl rfl rfl, by decide, by decide, answers_queued rfl⟩
theorem test_witness_EraseDevice :
    let s : State := readyFamily (.wa 0xB4#8 :: deviceErase.xacts)
    Ready s ∧ deviceErase.ok s.pollOut.toNat = true ∧ Answers s (.wa s.fpdatAddr :: deviceErase.xacts) :=
  ⟨ready_of rfl rfl rfl rfl, by decide, answers_queued rfl⟩
theorem test_witness_ResetHalt :
    Answers (ready [.wd 0x02#8 1, .wd 0x04#8 20, .wd 0x01#8 1]) [.wd 0x02#8 1, .wd 0x04#8 20, .wd 0x01#8 1] :=
  answers_ready _
/-- The first and the last of the three writes time out. -/
theorem test_witness_ResetHalt_timeout :
    (let s : State := { ready [] with din := List.replicate 20 false };
      [0x02#8, 0x04#8, 0x01#8][([] : List Nat).length]? = some 0x02#8 ∧ Answers s [] ∧
        ∀ k < 20, s.line ((samplesOf []).length + k) = false) ∧
    let s : State := { ready [] with din := [true, true] ++ List.replicate 20 false }
    [0x02#8, 0x04#8, 0x01#8][[1, 1].length]? = some 0x01#8 ∧ Answers s [.wd 0x02#8 1, .wd 0x04#8 1] ∧
      ∀ k < 20, s.line ((samplesOf [.wd 0x02#8 1, .wd 0x04#8 1]).length + k) = false := by
  exact ⟨⟨rfl, answers_of_din rfl, fun k hk => line_behind (l := []) rfl hk⟩, rfl, answers_of_din rfl,
    fun k hk => line_behind rfl hk⟩
theorem test_witness_GetDeviceInfo :
    Answers (ready [.wa 0x00#8, .rd 0x05#8 50, .wa 0x01#8, .rd 0x02#8 1])
      [.wa 0x00#8, .rd 0x05#8 50, .wa 0x01#8, .rd 0x02#8 1] :=
  answers_ready _
theorem test_witness_GetDeviceInfo_timeout :
    let s : State := { ready [] with din := samplesOf [.wa 0x00#8, .rd 0x05#8 1, .wa 0x01#8] ++ List.replicate 50 false }
    Ready s ∧ Answers s [.wa 0x00#8, .rd 0x05#8 1, .wa 0x01#8] ∧ ∀ k < 50, s.line (1 + 8 + k) = false := by
  exact ⟨ready_of rfl rfl rfl rfl, answers_of_din rfl, fun k hk => line_behind
    (l := samplesOf [.wa 0x00#8, .rd 0x05#8 1, .wa 0x01#8]) rfl hk⟩
theorem test_witness_GetPiInfo :
    let xs := .wa 0xB4#8 :: ((query 0x10#8).xacts 0x01#8 ++ (query 0x20#8).xacts 0x02#8)
    Ready (readyFamily xs) ∧ (query 0x10#8).ok (readyFamily xs).pollOut.toNat = true ∧ Answers (readyFamily xs) xs :=
  ⟨ready_of rfl rfl rfl rfl, by decide, answers_queued rfl⟩

theorem admitted_family {op : Byte} {i : Instr} {s : State} (h : decodeHost op = .ok i)
    (hf : ctlFamilyValid s.familyCtl = true) (h1 : i ≠ .blockRead) (h2 : i ≠ .blockWrite) (h3 : i ≠ .flashChunk) :
    admissionTable op s = none := by
  simp [admissionTable, h, hf, h1, h2, h3]
theorem test_witness_Rejected :
    (∀ op ∈ [0x30#8, 0x31#8, 0x34#8, 0x35#8, 0x38#8], admissionTable op (readyFamily []) = none) ∧
    (∀ op ∈ [0x32#8, 0x33#8], admissionTable op { readyFamily [] with len := 1#32 } = none) ∧
    (given 0x00#8).ok 100 = true ∧ (given 0x00#8).value ≠ 0x0D#8 ∧
    Answers (readyFamily (.wa 0xB4#8 :: (atOnce.xacts Config.piCodes.blockRead ++ (given 0x00#8).xacts)))
      (.wa 0xB4#8 :: (atOnce.xacts Config.piCodes.blockRead ++ (given 0x00#8).xacts)) := by
  refine ⟨?_, ?_, by decide, by decide, answers_queued rfl⟩
  · intro op h
    simp only [List.mem_cons, List.not_mem_nil, or_false] at h
    rcases h with rfl | rfl | rfl | rfl | rfl <;>
      exact admitted_family rfl rfl (by decide) (by decide) (by decide)
  · have hb : 1 ≤ Config.bufSize := Nat.le_trans (by decide) size_buf
    intro op h
    simp only [List.mem_cons, List.not_mem_nil, or_false] at h
    rcases h with rfl | rfl
    · have h : decodeHost 0x32#8 = .ok .blockRead := rfl
      simp [admissionTable, h, readyFamily, ready, State.reset, ctlFamilyValid, hb]
    · have h : decodeHost 0x33#8 = .ok .blockWrite := rfl
      simp [admissionTable, h, readyFamily, ready, State.reset, ctlFamilyValid, hb]
theorem test_witness_AbsentTarget :
    ∃ s : State, Ready s ∧ ∀ k < 161, s.line k = true :=
  ⟨{ ready [] with din := List.replicate 161 true }, ready_of rfl rfl rfl rfl, fun _ hk => line_repeated rfl hk⟩

/-! ### Page write -/

def chunkState (addr : Word16) (len p : Word32) (xs : List Xact) : State :=
  { readyFamily xs with addr := addr, len := len, pageSize := p }

/-- A FLASH_CHUNK on a page of `2 ^ k` bytes that SCRATCH holds is admitted, if the page lies in the flash space. -/
theorem admitted_chunk {s : State} {k : Nat} (hk : k ≤ 8) (hf : ctlFamilyValid s.familyCtl = true)
    (hp : s.pageSize.toNat = 2 ^ k) (hs : 2 ^ k ≤ Config.scratchSize) (h1 : s.addr.toNat / 2 ^ k ≤ 255)
    (h2 : s.addr.toNat / 2 ^ k * 2 ^ k + 2 ^ k ≤ 65536) : admissionTable 0x40#8 s = none := by
  have h : decodeHost 0x40#8 = .ok .flashChunk := rfl
  have hb := size_buf
  have hle : 2 ^ k ≤ 256 := Nat.pow_le_pow_right (by decide) hk
  have hpow : ∃ j < 32, 2 ^ k = 2 ^ j := ⟨k, by omega, rfl⟩
  simp only [admissionTable, h, hf, hp]
  rw [if_neg (by simp), if_neg (by simp), if_neg (by simp), if_neg (fun hx => hx.2 ⟨hpow, hs⟩), if_neg (fun hx => hx.2 h1),
    if_neg (fun hx => hx.2 h2), if_neg (by simp; omega)]

/-- What FLASH_CHUNK needs: nothing at the last page of one byte, read first. -/
theorem test_witness_FlashChunk :
    let a : ChunkAnswer := ⟨[reads 1], erase, [writes 1]⟩
    let xs := a.xacts 0xB4#8 false true 255 255 1 (chunkImage a (chunkState 255#16 0#32 1#32 []) 255 0 1)
    let s := chunkState 255#16 0#32 1#32 xs
    Ready s ∧ admissionTable 0x40#8 s = none ∧ readsFirst s.addr.toNat s.len.toNat s.pageSize.toNat = true ∧
      a.ok s.pollOut.toNat (ctlErratumF5 s.familyCtl) true 1 = true ∧
      Answers s (a.xacts s.fpdatAddr (ctlErratumF5 s.familyCtl) true (pageOf s.addr.toNat s.pageSize.toNat)
        (pageBase s.addr.toNat s.pageSize.toNat) s.pageSize.toNat
        (chunkImage a s s.addr.toNat s.len.toNat s.pageSize.toNat)) :=
  ⟨ready_of rfl rfl rfl rfl, admitted_chunk (k := 0) (by decide) rfl rfl size_scratch (by decide) (by decide), by decide,
    by decide +kernel, answers_queued rfl⟩
/-- The whole of that page, 300 bytes wanted: no read. -/
theorem test_witness_FlashChunk_wholePage :
    let a : ChunkAnswer := ⟨[], erase, [writes 1]⟩
    let xs := a.xacts 0xB4#8 false false 255 255 1 (chunkImage a (chunkState 255#16 300#32 1#32 []) 255 300 1)
    let s := chunkState 255#16 300#32 1#32 xs
    Ready s ∧ admissionTable 0x40#8 s = none ∧ readsFirst s.addr.toNat s.len.toNat s.pageSize.toNat = false ∧
      a.ok s.pollOut.toNat (ctlErratumF5 s.familyCtl) false 1 = true ∧
      Answers s (a.xacts s.fpdatAddr (ctlErratumF5 s.familyCtl) false (pageOf s.addr.toNat s.pageSize.toNat)
        (pageBase s.addr.toNat s.pageSize.toNat) s.pageSize.toNat
        (chunkImage a s s.addr.toNat s.len.toNat s.pageSize.toNat)) :=
  ⟨ready_of rfl rfl rfl rfl, admitted_chunk (k := 0) (by decide) rfl rfl size_scratch (by decide) (by decide), by decide,
    by decide +kernel, answers_queued rfl⟩
/-- Where SCRATCH holds 256 bytes: 4 bytes at 260 (P2), the page read first. -/
theorem test_witness_FlashChunk_256 (hs : 2 ^ 8 ≤ Config.scratchSize) :
    let a : ChunkAnswer := ⟨[reads 256], erase, [writes 256]⟩
    let xs := a.xacts 0xB4#8 false true 1 256 256 (chunkImage a (chunkState 260#16 4#32 256#32 []) 260 4 256)
    let s := chunkState 260#16 4#32 256#32 xs
    Ready s ∧ admissionTable 0x40#8 s = none ∧ readsFirst s.addr.toNat s.len.toNat s.pageSize.toNat = true ∧
      a.ok s.pollOut.toNat (ctlErratumF5 s.familyCtl) true 256 = true ∧
      Answers s (a.xacts s.fpdatAddr (ctlErratumF5 s.familyCtl) true (pageOf s.addr.toNat s.pageSize.toNat)
        (pageBase s.addr.toNat s.pageSize.toNat) s.pageSize.toNat
        (chunkImage a s s.addr.toNat s.len.toNat s.pageSize.toNat)) :=
  ⟨ready_of rfl rfl rfl rfl, admitted_chunk (k := 8) (by decide) rfl rfl hs (by decide) (by decide), by decide,
    by decide +kernel, answers_queued rfl⟩
theorem admitted_lastByte (len : Word32) (xs : List Xact) :
    admissionTable 0x40#8 (chunkState 255#16 len 1#32 xs) = none :=
  admitted_chunk (k := 0) (by decide) (by show ctlFamilyValid 0x01#8 = true; decide) rfl size_scratch
    (by show 255 / 1 ≤ 255; decide) (by show 255 / 1 * 1 + 1 ≤ 65536; decide)
/-- The same page, and the whole of it: the command byte of the page read, of the erase or of the page write is rejected. -/
theorem test_witness_FlashChunkRejected :
    let rejected := fun cmd : Byte => Xact.wa 0xB4#8 :: (atOnce.xacts cmd ++ (given 0x00#8).xacts)
    let pageRead := Xact.wa 0xB4#8 :: readBlockXacts 255 1 [reads 1]
    let s := chunkState 255#16 0#32 1#32
    let w := chunkState 255#16 1#32 1#32
    (∀ xs, Ready (s xs) ∧ admissionTable 0x40#8 (s xs) = none ∧ Ready (w xs) ∧ admissionTable 0x40#8 (w xs) = none) ∧
    atOnce.ok = true ∧ (given 0x00#8).ok 100 = true ∧ (given 0x00#8).value ≠ 0x0D#8 ∧ readsFirst 255 0 1 = true ∧
    readsFirst 255 1 1 = false ∧ readAnswersOk 100 1 [reads 1] = true ∧ erase.ok 100 false = true ∧
    (let xs := rejected Config.piCodes.blockRead; Answers (s xs) xs) ∧
    (let xs := pageRead ++ rejected Config.piCodes.pageErase; Answers (s xs) xs) ∧
    (let xs := [] ++ rejected Config.piCodes.pageErase; Answers (w xs) xs) ∧
    let xs := pageRead ++ erase.xacts 0xB4#8 false 0xFF#8 ++ rejected Config.piCodes.blockWrite
    Answers (s xs) xs :=
  ⟨fun _ => ⟨ready_of rfl rfl rfl rfl, admitted_lastByte _ _, ready_of rfl rfl rfl rfl, admitted_lastByte _ _⟩,
    by decide, by decide, by decide, by decide, by decide, by decide, by decide, answers_queued rfl, answers_queued rfl,
    answers_queued rfl, answers_queued rfl⟩
theorem test_witness_PageArithmetic : 65535 < 65536 ∧ 31 < 32 ∧ readsFirst 512 300 (2 ^ 8) = false := by decide
theorem test_witness_RegionCalls : 0 < 256 ∧ (regionCalls 256 400 200 400).length = 3 := by decide
theorem test_witness_FramesPerOperation :
    readAnswersOk 100 1 [reads 1] = true ∧ checked.taken.busy = [] ∧ checked.reply.notReady = [] ∧ atOnce.busy = [] ∧
      ∀ g ∈ (reads 1).data, g.notReady = [] := by decide

/-! ### The command port -/

theorem test_witness_Admission :
    Ready (ready []) ∧ admissionTable 0x34#8 (ready []) = some .unsupportedDevice ∧
      admissionTable 0x41#8 (ready []) = some .illegalCommand ∧ admissionTable 0x10#8 (ready []) = none :=
  ⟨ready_of rfl rfl rfl rfl, rfl, rfl, rfl⟩
/-- Check 4 of a read that runs past the flash space (V42). -/
theorem test_witness_Admission_pastFlash :
    admissionTable 0x32#8 { readyFamily [] with addr := 0xFFFF#16, len := 2#32, flags := 0x04#8 } =
      some .illegalCommand := by
  have h : decodeHost 0x32#8 = .ok .blockRead := rfl
  simp [admissionTable, h, readyFamily, ready, State.reset, ctlFamilyValid, flagDiscard, needsFamily]
/-- A core in the middle of a WRITE_AR. -/
def running : State := startCommand 0x10#8 (ready [])
theorem test_witness_Busy : running.busy = true ∧ HReg.len ≠ .status := ⟨rfl, by decide⟩
theorem test_witness_HostReadsBack :
    (ready []).busy = false ∧ HReg.familyCtl.writable = true ∧ HReg.familyCtl ≠ .cmd ∧ HReg.deviceId.writable = false ∧
      HReg.cmd.readable = false ∧ HReg.len ≠ .addr ∧ 255 < Config.bufSize ∧ Config.bufSize ≤ Config.bufSize :=
  ⟨rfl, rfl, by decide, rfl, rfl, by decide, size_buf, Nat.le_refl _⟩
theorem test_witness_ConfigurationMoves :
    Ready { ready [] with port := setPollOut 1000#32 ++ [.pass] } ∧
      Ready { ready [] with port := setFamily 0xB4#8 256#32 true ++ [] } :=
  ⟨ready_of rfl rfl rfl rfl, ready_of rfl rfl rfl rfl⟩
theorem test_witness_IdentityMoves :
    let s : State := { ready [.wa 0x01#8, .rd 0x02#8 50] with port := readRevisionId ++ [] }
    Ready s ∧ s.port = readRevisionId ++ [] ∧ Answers s [.wa 0x01#8, .rd 0x02#8 50] :=
  ⟨ready_of rfl rfl rfl rfl, rfl, answers_queued rfl⟩
theorem test_witness_HostCommands :
    Ready (ready []) ∧ decodeHost 0x32#8 = .ok .blockRead ∧ decodeHost 0x37#8 = .ok .getDeviceInfo ∧
      ∃ t, exec .blockRead (ready []) = .next t ∧ statusErr t.status ≠ 0#3 :=
  ⟨ready_of rfl rfl rfl rfl, rfl, rfl, _, rfl, by decide⟩
/-- A command that succeeds. -/
theorem test_witness_HostCommands_success :
    decodeHost 0x10#8 = .ok .writeAr ∧ ∃ t, exec .writeAr (ready []) = .next t ∧ statusErr t.status = 0#3 :=
  ⟨rfl, _, rfl, by decide⟩
theorem test_witness_LayerRows :
    Ready (ready []) ∧ (Instr.piBlockRead 0#16 256).space ≠ .host ∧ (Instr.piBlockRead 0#16 256).wellFormed = true :=
  ⟨ready_of rfl rfl rfl rfl, by decide, by decide⟩
theorem test_witness_TraceInfluencesNothing : ∃ t, exec .readAr (ready []) = .next t := ⟨_, rfl⟩

/-! ### The machine -/

theorem test_witness_ResetAtAnyMoment : ({ running with port := [.reset] } : State).port = .reset :: [] := rfl

theorem inv_ready (xs : List Xact) (port : List PortMove) : Inv { ready xs with port := port } where
  pullup := rfl
  busy := by simp [ready, State.reset, State.busy, statusBusy]
  reserved := (by decide : (0#8).getLsbD 7 = false)
  err := (by decide : statusErr 0#8 ∈ [0#3, 1#3, 2#3, 3#3, 7#3])
  cleared := by simp [ready, State.reset, State.busy, statusBusy]
  ctl := (by decide : 0#8 &&& 0xFC#8 = 0#8)
  buf := ⟨List.Pairwise.nil, by simp [ready, State.reset]⟩
  scratch := ⟨List.Pairwise.nil, by simp [ready, State.reset]⟩
  lines := ⟨rfl, rfl⟩
/-- A safe state in the middle of an operation, that steps. -/
theorem inv_running : Inv running where
  pullup := rfl
  busy := by decide
  reserved := rfl
  err := by decide
  cleared := fun _ => by decide
  ctl := by decide
  buf := ⟨List.Pairwise.nil, fun _ h => by cases h⟩
  scratch := ⟨List.Pairwise.nil, fun _ h => by cases h⟩
  lines := ⟨opWriteAr, rfl, (safe_writeAr _).andThen (safe_ret _ _ _)⟩
theorem test_witness_StepKeepsSafety : Inv running ∧ ∃ t, step running = .next t := ⟨inv_running, _, rfl⟩
theorem test_witness_NoDrivenSample :
    let s : State := { ready [] with port := [.readBuf Config.bufSize] }
    Inv s ∧ step s = .fault .bufIndexOutOfRange := by
  refine ⟨inv_ready [] _, ?_⟩
  have hb : ({ ready [] with port := [] } : State).busy = false := rfl
  simp [step, takeMove, hostReadBuf, hb]
/-- What is left of the running WRITE_AR, and a row of a lower layer. -/
theorem test_witness_NoDrivenSample_procedures :
    Inv running ∧ running.remaining = some (opWriteAr.prog running) ∧ (Instr.piBlockWrite 0xFFFF#16 256).space ≠ .host ∧
      (Instr.piBlockWrite 0xFFFF#16 256).wellFormed = true := ⟨inv_running, rfl, by decide, by decide⟩
theorem test_witness_AdmittedOperations :
    operationOf 0x10#8 = some opWriteAr ∧ opWriteAr.admission (ready []) = none := ⟨rfl, rfl⟩
theorem test_witness_StepRuns :
    decodeHost 0x36#8 = .ok .resetHalt ∧ decode .fpctl [0x04#8, 0xAA#8] = .ok (.fpctlCoreReset, [0xAA#8]) ∧
      decodeTableWord 8 0x03 = some (.writeArFrame 0#8) := ⟨rfl, rfl, by decide⟩
theorem test_witness_PrimitiveSteps :
    (Ready (ready []) ∧ decodeHost 0x10#8 = .ok .writeAr ∧ (ready []).port = []) ∧
      Ready { ready [] with port := [.write .cmd 0x10#32, .wait] } ∧
      [PortMove.write .cmd 0x10#32, .wait] = .write .cmd ((0x10#8).setWidth 32) :: .wait :: [] :=
  ⟨⟨ready_of rfl rfl rfl rfl, rfl, rfl⟩, ready_of rfl rfl rfl rfl, rfl⟩
theorem test_witness_CanonicalMemories :
    Memory.wf [(3, 0xAA#8), (7, 0x00#8)] ∧ Memory.write (Memory.write [] 7 0x00#8) 3 0xAA#8 = [(3, 0xAA#8), (7, 0x00#8)] := by
  decide

end Sys2Proof.Tests
end

section
/-! PROOFS about the state (10_state.md), first part: facts that several of them need. What `exec` runs for each
instruction, what `decode` answers, which parts of a state a run does not look at, and the discipline of an admitted
operation. -/

namespace Sys2Proof.Machine

variable {α : Type}

/-! ## Every instruction is a host command or a call of a lower layer -/

/-- The host instructions are the rows of the opcode table (R109). -/
theorem exists_opcode {i : Instr} (h : i.space = .host) : ∃ op, decodeHost op = .ok i := by
  cases i <;> simp only [Instr.space, reduceCtorEq] at h
  case writeAr => exact ⟨0x10#8, rfl⟩
  case readAr => exact ⟨0x11#8, rfl⟩
  case writeDr => exact ⟨0x12#8, rfl⟩
  case readDr => exact ⟨0x13#8, rfl⟩
  case piWrite => exact ⟨0x20#8, rfl⟩
  case piGet => exact ⟨0x21#8, rfl⟩
  case piCheckOk => exact ⟨0x22#8, rfl⟩
  case piCommand => exact ⟨0x23#8, rfl⟩
  case readDirect => exact ⟨0x30#8, rfl⟩
  case writeDirect => exact ⟨0x31#8, rfl⟩
  case blockRead => exact ⟨0x32#8, rfl⟩
  case blockWrite => exact ⟨0x33#8, rfl⟩
  case erasePage => exact ⟨0x34#8, rfl⟩
  case eraseDevice => exact ⟨0x35#8, rfl⟩
  case resetHalt => exact ⟨0x36#8, rfl⟩
  case getDeviceInfo => exact ⟨0x37#8, rfl⟩
  case getPiInfo => exact ⟨0x38#8, rfl⟩
  case flashChunk => exact ⟨0x40#8, rfl⟩

/-- A sub-block fits in BUF (R8: `BUF_SIZE` is at least 256). -/
theorem subBlock_le_bufSize {n : Nat} (h : subBlockSizeOk n = true) : n ≤ Config.bufSize := by
  obtain ⟨-, h256⟩ : 1 ≤ n ∧ n ≤ Config.subblockMax := by simpa [subBlockSizeOk] using h
  exact Nat.le_trans h256 (Nat.le_add_left ..)

/-- Every row of a lower layer calls a procedure that its operands and `POLL_OUT` determine. It can fail with `BusTimeout` and
`ProtocolRejected` only, and that of a well-formed row keeps the line discipline and the memory bounds. -/
theorem exec_layer {i : Instr} (h : i.space ≠ .host) (s : State) :
    ∃ (α : Type) (p : Prog α) (bufWasDest : Bool), (p.Uses fun _ => True) ∧
      (i.wellFormed = true → p.Safe true false true false) ∧
      ∀ t, t.pollOut = s.pollOut → exec i t = .next (layerCall p bufWasDest t) := by
  have U := plain_any
  have poll : ∀ {t : State}, t.pollOut = s.pollOut → s.pollTries = t.pollTries := fun e => by simp [State.pollTries, e]
  have sub : ∀ {n : Nat}, subBlockSizeOk n = true → 0 + n ≤ Config.bufSize := fun e => by
    simpa using subBlock_le_bufSize e
  cases i with
  | writeArFrame a => exact ⟨_, writeAr a, _, uses_writeAr U _, fun _ => safe_writeAr a, fun _ _ => rfl⟩
  | readArFrame => exact ⟨_, readAr, _, uses_readAr U, fun _ => safe_readAr, fun _ _ => rfl⟩
  | writeDrFrame d => exact ⟨_, writeDr d, _, uses_writeDr U _, fun _ => safe_writeDr d, fun _ _ => rfl⟩
  | readDrFrame => exact ⟨_, readDr, _, uses_readDr U, fun _ => safe_readDr, fun _ _ => rfl⟩
  | piGetVersion =>
    exact ⟨_, _, _, uses_piQuery U s.pollTries _, fun _ => safe_piQuery _ _, fun _ e => by rw [poll e]; rfl⟩
  | piGetDerivative =>
    exact ⟨_, _, _, uses_piQuery U s.pollTries _, fun _ => safe_piQuery _ _, fun _ e => by rw [poll e]; rfl⟩
  | piDeviceErase =>
    exact ⟨_, _, _, uses_deviceEraseBytes U s.pollTries, fun _ => safe_deviceEraseBytes _, fun _ e => by rw [poll e]; rfl⟩
  | piBlockRead addr n =>
    exact ⟨_, _, _, uses_readSubBlock U s.pollTries (dest := .buf) (Dest.allowed_any _) addr.toNat n 0,
      fun w => safe_readSubBlock _ _ (sub w), fun _ e => by rw [poll e]; rfl⟩
  | piBlockWrite addr n =>
    exact ⟨_, _, _, uses_writeSubBlock U s.pollTries .buf addr.toNat n 0, fun w => safe_writeSubBlock _ _ (sub w),
      fun _ e => by rw [poll e]; rfl⟩
  | piPageErase page =>
    exact ⟨_, _, _, uses_pageEraseBytes U s.pollTries page, fun _ => safe_pageEraseBytes _ _, fun _ e => by rw [poll e]; rfl⟩
  | piDirectRead reg =>
    exact ⟨_, _, _, uses_directReadBytes U s.pollTries reg, fun _ => safe_directReadBytes _ _, fun _ e => by rw [poll e]; rfl⟩
  | piDirectWrite reg v =>
    exact ⟨_, _, _, uses_directWriteBytes U s.pollTries reg v, fun _ => safe_directWriteBytes _ _ _,
      fun _ e => by rw [poll e]; rfl⟩
  | piRespOk => exact ⟨_, checkResponse _, _, uses_checkResponse _, fun _ => safe_checkResponse _, fun _ _ => rfl⟩
  | piRespInvalid => exact ⟨_, checkResponse _, _, uses_checkResponse _, fun _ => safe_checkResponse _, fun _ _ => rfl⟩
  | piRespFailed => exact ⟨_, checkResponse _, _, uses_checkResponse _, fun _ => safe_checkResponse _, fun _ _ => rfl⟩
  | fpctlReset => exact ⟨_, writeDr _, _, uses_writeDr U _, fun _ => safe_writeDr _, fun _ _ => rfl⟩
  | fpctlCoreReset => exact ⟨_, writeDr _, _, uses_writeDr U _, fun _ => safe_writeDr _, fun _ _ => rfl⟩
  | fpctlHalt => exact ⟨_, writeDr _, _, uses_writeDr U _, fun _ => safe_writeDr _, fun _ _ => rfl⟩
  | arOutReady =>
    exact ⟨_, readyPoll s.pollTries, _, uses_readyPoll U _, fun _ => safe_arPoll _ _ _, fun _ e => by rw [poll e]; rfl⟩
  | arInBusy => exact ⟨_, busyPoll, _, uses_busyPoll U, fun _ => safe_arPoll _ _ _, fun _ _ => rfl⟩
  | _ => exact absurd rfl h

/-! ## What `decode` answers is well-formed (30_encoding.md R104) -/

/-- Only the size of a sub-block can be out of range. -/
theorem wellFormed_of_space {i : Instr} (h : i.space ≠ .pi) : i.wellFormed = true := by
  cases i
  case piBlockRead | piBlockWrite => exact absurd rfl h
  all_goals rfl

theorem decodeFrameWord_space {w : Word16} {i : Instr} (h : decodeFrameWord w = .ok i) : i.space = .frame := by
  unfold decodeFrameWord at h
  simp only at h
  split_ifs at h <;> cases h <;> rfl

theorem decodeHost_wellFormed {op : Byte} {i : Instr} (h : decodeHost op = .ok i) : i.wellFormed = true :=
  (by decide : ∀ row ∈ hostOpcodes, row.2.wellFormed = true) _ (mem_of_decodeHost h)

theorem subBlockOfByte_ok (b : Byte) : subBlockSizeOk (subBlockOfByte b) = true := by
  revert b; decide

theorem decodePi_wellFormed {c : Config.PiCodes} {bytes tail : List Byte} {i : Instr}
    (h : decodePi c bytes = .ok (i, tail)) : i.wellFormed = true := by
  have block : ∀ {mk rest}, (∀ a n, (mk a n).wellFormed = subBlockSizeOk n) →
      decodeBlockHeader mk rest = .ok (i, tail) → i.wellFormed = true := by
    intro mk rest hmk hb
    unfold decodeBlockHeader at hb
    split at hb
    · cases hb; rw [hmk, subBlockOfByte_ok]
    · cases hb
  unfold decodePi at h
  split at h
  · cases h
  · split_ifs at h
    · cases h; rfl
    · cases h; rfl
    · unfold decodeKey at h; split at h <;> [split_ifs at h; skip] <;> cases h; rfl
    · exact block (fun _ _ => rfl) h
    · exact block (fun _ _ => rfl) h
    · unfold decodePage at h; split at h <;> [split_ifs at h; skip] <;> cases h; rfl
    · unfold decodeDirectRead at h; split at h <;> [split_ifs at h; skip] <;> cases h; rfl
    · unfold decodeDirectWrite at h; split at h <;> [split_ifs at h; skip] <;> cases h; rfl

/-- A one-byte code gives an instruction of the space its decoder answers in. -/
theorem oneByte_ok {d : Byte → Except DecodeError Instr} {bytes tail : List Byte} {i : Instr}
    (h : oneByte d bytes = .ok (i, tail)) : ∃ b, d b = .ok i := by
  cases bytes with
  | nil => cases h
  | cons b rest =>
    simp only [oneByte] at h
    split at h
    next j hj => cases h; exact ⟨b, hj⟩
    next => cases h

/-- What a decoder accepts is well-formed. -/
theorem decode_wellFormed {sp : Space} {bytes tail : List Byte} {i : Instr} (h : decode sp bytes = .ok (i, tail)) :
    i.wellFormed = true := by
  cases sp with
  | frame =>
    change decodeFrameBytes bytes = _ at h
    unfold decodeFrameBytes at h
    split at h
    · split at h
      next hw => cases h; exact wellFormed_of_space (by simp [decodeFrameWord_space hw])
      next => cases h
    · cases h
  | pi => exact decodePi_wellFormed h
  | resp =>
    obtain ⟨b, hb⟩ := oneByte_ok h
    unfold decodeResp at hb
    split_ifs at hb <;> cases hb <;> rfl
  | fpctl =>
    obtain ⟨b, hb⟩ := oneByte_ok h
    unfold decodeFpctl at hb
    split_ifs at hb <;> cases hb <;> rfl
  | arStatus =>
    obtain ⟨b, hb⟩ := oneByte_ok h
    unfold decodeMask at hb
    split_ifs at hb <;> cases hb <;> rfl
  | host =>
    obtain ⟨b, hb⟩ := oneByte_ok h
    exact decodeHost_wellFormed hb

/-! ## What an admission check can fail with (45_host_commands.md R238) -/

theorem admission_kind {i : Instr} {op : Byte} {o : Operation} {s : State} {k : FailKind} (h1 : decodeHost op = .ok i)
    (h2 : operationOfInstr i = some o) (ha : o.admission s = some k) : k = .unsupportedDevice ∨ k = .illegalCommand := by
  rw [admit_eq_table s h1 h2, admissionTable, h1] at ha
  simp only at ha
  split_ifs at ha <;> cases ha <;> simp

/-! ## What neither a procedure nor an admission check looks at -/

/-- No primitive looks at or meets what `f` changes of a state. -/
def Unseen (f : State → State) : Prop := ∀ (q : Prim) (s : State), doPrim q (f s) = (f (doPrim q s).1, (doPrim q s).2)

theorem Unseen.run {f : State → State} (hf : Unseen f) (p : Prog α) (s : State) :
    p.run (f s) = ((p.run s).1, f (p.run s).2) := by
  induction p generalizing s with
  | ret a => rfl
  | raise k => rfl
  | prim q next ih => simp only [run_prim, hf q s, ih]

/-- `s` at another sequencer position. -/
def State.atSeq (s : State) (q : Seq) : State := { s with seq := q }

/-- `s` with a longer past on the wire. -/
def State.withPast (s : State) (past : List Event) : State := { s with trace := past ++ s.trace }

theorem unseen_atSeq (x : Seq) : Unseen (·.atSeq x) := by
  intro q s
  have cell : ∀ m i, (s.atSeq x).readCell m i = ((s.readCell m i).1.atSeq x, (s.readCell m i).2) := fun m i => by
    unfold State.readCell; split <;> rfl
  cases q with
  | setData l => cases l <;> rfl
  | delay n => simp only [doPrim]; split <;> rfl
  | loadBuf i => exact cell s.buf i
  | loadScratch i => exact cell s.scratch i
  | _ => rfl

theorem unseen_withPast (past : List Event) : Unseen (·.withPast past) := by
  intro q s
  have cell : ∀ m i, (s.withPast past).readCell m i = ((s.readCell m i).1.withPast past, (s.readCell m i).2) := fun m i => by
    unfold State.readCell; split <;> rfl
  cases q with
  | setData l => cases l <;> simp [doPrim, State.withPast]
  | ckSet b => simp [doPrim, State.withPast]
  | delay n => simp only [doPrim]; split <;> simp [State.withPast, State.emit]
  | readData => simp [doPrim, State.withPast, State.emit, State.afterSamples, State.line]
  | loadBuf i => exact cell s.buf i
  | loadScratch i => exact cell s.scratch i
  | _ => rfl

/-- The procedure of an operation depends on nothing but operands and configuration; unlike `prog_congr`, this says
nothing of the port and of what the host read last. -/
theorem prog_eq_of_same {i : Instr} {o : Operation} (h : operationOfInstr i = some o) {s t : State}
    (ho : SameOperands s t) (hc : SameConfig s t) : o.prog t = o.prog s := by
  have hout : o.prog { t with dPullup := s.dPullup, port := s.port, hostData := s.hostData } = o.prog t := by
    cases i <;> cases h <;> rfl
  rw [← hout]
  exact prog_congr h ⟨ho, hc, rfl, rfl, rfl⟩

end Sys2Proof.Machine
end

section
/-! PROOFS about the state, second part: the safety invariant of the core. It holds after reset, and every move keeps it:
what a move does is a start, an end, a primitive of an operation, or a write of the host. -/

namespace Sys2Proof.Machine

variable {α : Type}

/-! ## An admitted operation keeps the discipline (R132, R138, R139, R296) -/

/-- If no check fails, every check passes. -/
theorem firstFailure_eq_none {checks : List (Bool × FailKind)} (h : firstFailure checks = none) :
    ∀ c ∈ checks, c.1 = true := by
  induction checks with
  | nil => simp
  | cons c cs ih =>
    obtain ⟨passes, k⟩ := c
    cases passes with
    | false => simp [firstFailure] at h
    | true => exact List.forall_mem_cons.mpr ⟨rfl, ih h⟩

theorem safe_flashChunk (n : Nat) (fpdat : Byte) (erratum : Bit) {addr length p : Nat} (hp : 0 < p)
    (hs : p ≤ Config.scratchSize) (hb : chunkLen addr length p ≤ Config.bufSize) :
    (flashChunk n fpdat erratum addr length p).Safe true false true false := by
  have hw := chunk_window (addr := addr) (length := length) hp
  refine Prog.Safe.andThen (ck' := true) (oe' := false) ?_ <| (safe_overlay hb (by omega)).andThen <|
    (safe_erasePage _ _ _ _).andThen <| (safe_blockWrite (src := .scratch) _ _ _ hs).andThen (safe_ret _ _ _)
  split
  · exact safe_blockRead (dest := .scratch) _ _ _ hs
  · exact safe_ret _ _ _

theorem operation_safe {i : Instr} {o : Operation} (h : operationOfInstr i = some o) {s : State}
    (ha : o.admission s = none) : (o.prog s).Safe true false true false := by
  have hc := firstFailure_eq_none ha
  cases i <;> simp only [operationOfInstr, Option.some.injEq, reduceCtorEq] at h <;> subst h
  case writeAr => exact (safe_writeAr _).andThen (safe_ret _ _ _)
  case readAr => exact safe_readAr.bind fun _ => safe_ret _ _ _
  case writeDr => exact (safe_writeDr _).andThen (safe_ret _ _ _)
  case readDr => exact safe_readDr.bind fun _ => safe_ret _ _ _
  case piWrite => exact (safe_piWrite _).andThen (safe_ret _ _ _)
  case piGet => exact (safe_piGet _).bind fun _ => safe_ret _ _ _
  case piCheckOk => exact (safe_piCheckOk _).andThen (safe_ret _ _ _)
  case piCommand => exact (safe_piCommand _ _ _ _).bind fun _ => safe_ret _ _ _
  case readDirect => exact (safe_readDirect _ _ _).bind fun _ => safe_ret _ _ _
  case writeDirect => exact (safe_writeDirect _ _ _ _).andThen (safe_ret _ _ _)
  case blockRead =>
    simp only [opBlockRead, List.forall_mem_cons, Bool.or_eq_true, decide_eq_true_eq] at hc
    obtain ⟨-, hlen, -⟩ := hc
    refine (safe_blockRead _ _ _ ?_).andThen (safe_ret _ _ _)
    split
    · trivial
    · next hd => exact hlen.resolve_left hd
  case blockWrite =>
    simp only [opBlockWrite, List.forall_mem_cons, decide_eq_true_eq] at hc
    obtain ⟨-, hlen, -⟩ := hc
    exact (safe_blockWrite (src := .buf) _ _ _ hlen).andThen (safe_ret _ _ _)
  case erasePage => exact (safe_erasePage _ _ _ _).andThen (safe_ret _ _ _)
  case eraseDevice => exact (safe_eraseDevice _ _).andThen (safe_ret _ _ _)
  case resetHalt => exact (safe_resetAndHalt _).andThen (safe_ret _ _ _)
  case getDeviceInfo => exact safe_getDeviceInfo.bind fun _ => safe_ret _ _ _
  case getPiInfo => exact (safe_getPiInfo _ _).bind fun _ => safe_ret _ _ _
  case flashChunk =>
    simp only [opFlashChunk, chunkChecks, List.forall_mem_cons, Bool.and_eq_true, decide_eq_true_eq, isPow2_iff] at hc
    obtain ⟨-, ⟨⟨k, -, hk⟩, hs⟩, -, -, hb, -⟩ := hc
    have hp : 0 < s.pageSize.toNat := hk ▸ Nat.two_pow_pos k
    exact (safe_flashChunk _ _ _ hp hs hb).bind fun _ => safe_ret _ _ _

/-! ## Where the invariant comes from -/

/-- What of the invariant no operation touches, and the host cannot break. -/
def Wired (s : State) : Prop := s.dPullup = true ∧ s.familyCtl &&& 0xFC#8 = 0#8

theorem Inv.wired {s : State} (h : Inv s) : Wired s := ⟨h.pullup, h.ctl⟩
theorem Inv.memories {s : State} (h : Inv s) : MemoriesFit s := ⟨h.buf, h.scratch⟩

theorem Wired.of_samePort {s t : State} (h : Wired s) (hs : SamePort s t) : Wired t := by
  obtain ⟨-, -, -, ⟨-, ⟨-, -, -, hctl, -⟩, ⟨hpull, -⟩⟩, -⟩ := hs
  exact ⟨hpull.trans h.1, by rw [hctl]; exact h.2⟩

/-- The core has no operation running exactly when it is not busy. -/
theorem Inv.idle_of_not_busy {s : State} (h : Inv s) (hb : s.busy = false) : s.seq = .idle := by
  by_contra hne
  rw [h.busy.mpr hne] at hb
  cases hb

theorem Inv.linesIdle {s : State} (h : Inv s) (hq : s.seq = .idle) : LinesIdle s := by
  have hl := h.lines
  rwa [LinesFit, hq] at hl

theorem linesFit_idle {s : State} (hq : s.seq = .idle) (hl : LinesIdle s) : LinesFit s := by
  rw [LinesFit, hq]
  exact hl

theorem linesFit_run {s : State} {answers : List Byte} {o : Operation} (hq : s.seq = .run answers)
    (ho : operationOf s.cmd = some o) (hs : ((o.prog s).resume answers).Safe s.ck s.dOe true false) : LinesFit s := by
  rw [LinesFit, hq]
  exact ⟨o, ho, hs⟩

/-- An operation that runs, with what is left of it. -/
theorem Inv.running {s : State} (h : Inv s) {answers : List Byte} (hq : s.seq = .run answers) :
    ∃ o, operationOf s.cmd = some o ∧ ((o.prog s).resume answers).Safe s.ck s.dOe true false := by
  have hl := h.lines
  rwa [LinesFit, hq] at hl

/-- What has the STATUS of a safe state, and is idle exactly when that is, has still to show its lines and memories. -/
theorem Inv.of_status {s t : State} (h : Inv s) (hst : t.status = s.status) (hq : t.seq = .idle ↔ s.seq = .idle)
    (hw : Wired t) (hm : MemoriesFit t) (hl : LinesFit t) : Inv t where
  pullup := hw.1
  busy := by rw [State.busy, hst, Ne, hq]; exact h.busy
  reserved := by rw [hst]; exact h.reserved
  err := by rw [hst]; exact h.err
  cleared := by rw [State.busy, hst]; exact h.cleared
  ctl := hw.2
  buf := hm.1
  scratch := hm.2
  lines := hl

/-- An operation ends, by success or failure, in a safe state. -/
theorem inv_of_ended {t : State} {err : BitVec 3} {iv piv : Bit} (he : EndedWith t err iv piv)
    (herr : err ∈ [0#3, 1#3, 2#3, 3#3, 7#3]) (hw : Wired t) (hl : LinesIdle t) (hm : MemoriesFit t) :
    Inv t := by
  obtain ⟨hq, hb, -, herr', -, -, h7⟩ := he
  exact {
    pullup := hw.1
    busy := by simp [State.busy, hb, hq]
    reserved := h7
    err := herr'.symm ▸ herr
    cleared := fun h => by rw [State.busy, hb] at h; cases h
    ctl := hw.2
    buf := hm.1
    scratch := hm.2
    lines := linesFit_idle hq hl }

theorem inv_succeed {s : State} (r : Results) (hw : Wired s) (hl : LinesIdle s) (hm : MemoriesFit s) :
    Inv (s.succeed r) :=
  inv_of_ended (ended_finish (((s.putResults r).capture r.device).capturePi r.pi) 0#3) (by simp) hw hl hm

/-- A failure of a kind the core raises (R250: `StorageIo` is reserved). -/
theorem inv_fail {s : State} {k : FailKind} (hk : k ≠ .storageIo) (d : Bool) (hw : Wired s) (hl : LinesIdle s)
    (hm : MemoriesFit s) : Inv (s.fail k d) := by
  have hmem : MemoriesFit (s.fail k d) := by
    refine ⟨?_, Memory.within_nil _⟩
    rw [State.fail_buf]
    split
    · exact Memory.within_nil _
    · exact hm.1
  exact inv_of_ended (ended_finish (s.putResults {}) k.code) (by cases k <;> simp_all [FailKind.code]) hw hl hmem

theorem Prog.Uses.kind {p : Prog α} (h : p.Uses fun _ => True) {s t : State} {k : FailKind}
    (hr : p.run s = (.failed k, t)) : k ≠ .storageIo := by
  rcases h.run hr with rfl | rfl <;> simp

theorem operation_uses {i : Instr} {o : Operation} (h : operationOfInstr i = some o) (s : State) :
    (o.prog s).Uses fun _ => True :=
  uses_operation plain_any h s (fun _ _ _ _ => trivial) fun _ _ _ => trivial

/-- A safe procedure run to its end leaves what an end needs. -/
theorem run_fits {p : Prog α} {s : State} (hw : Wired s) (hm : MemoriesFit s) (hp : p.Safe s.ck s.dOe true false) :
    Wired (p.run s).2 ∧ LinesIdle (p.run s).2 ∧ MemoriesFit (p.run s).2 :=
  ⟨hw.of_samePort (run_samePort p s), run_safe hp hm⟩

theorem inv_conclude {p : Prog Results} {s : State} (hw : Wired s) (hm : MemoriesFit s)
    (hp : p.Safe s.ck s.dOe true false) (hu : p.Uses fun _ => True) : Inv (conclude (p.run s)) := by
  obtain ⟨hw', hl', hm'⟩ := run_fits hw hm hp
  unfold conclude
  split
  next v t hr => rw [hr] at hw' hl' hm'; exact inv_succeed v hw' hl' hm'
  next k t hr => rw [hr] at hw' hl' hm'; exact inv_fail (hu.kind hr) _ hw' hl' hm'

/-! ## The invariant, move by move -/

/-- The port, what the host read last, and the counter of free values do not matter to it. -/
theorem Inv.congr {s t : State} (h : Inv s)
    (e : t = { s with port := t.port, hostData := t.hostData, fresh := t.fresh }) : Inv t := by
  have hck : t.ck = s.ck := by rw [e]
  have hoe : t.dOe = s.dOe := by rw [e]
  have hcmd : t.cmd = s.cmd := by rw [e]
  have hseq : t.seq = s.seq := by rw [e]
  refine h.of_status (by rw [e]) (by rw [hseq]) (by rw [e]; exact h.wired) (by rw [e]; exact h.memories) ?_
  cases hq : s.seq with
  | idle => exact linesFit_idle (hseq.trans hq) ⟨hck.trans (h.linesIdle hq).1, hoe.trans (h.linesIdle hq).2⟩
  | run answers =>
    obtain ⟨o, ho, hs⟩ := h.running hq
    obtain ⟨_, -, hi⟩ := decode_of_operation ho
    have hp : o.prog t = o.prog s := prog_eq_of_same hi (by rw [e]; exact ⟨rfl, rfl, rfl, rfl, rfl⟩)
      (by rw [e]; exact ⟨rfl, rfl, rfl, rfl, rfl⟩)
    exact linesFit_run (hseq.trans hq) (hcmd ▸ ho) (by rw [hp, hck, hoe]; exact hs)

theorem inv_resetCore (s : State) : Inv s.resetCore where
  pullup := rfl
  busy := by simp [State.busy, State.reset, statusBusy]
  reserved := by simp [State.reset]
  err := by simp [State.reset, statusErr]
  cleared := by simp [State.busy, State.reset, statusBusy]
  ctl := by simp [State.reset]
  buf := Memory.within_nil _
  scratch := Memory.within_nil _
  lines := ⟨rfl, rfl⟩

/-- An idle core is where an operation or a layer call begins. -/
theorem Inv.begin {s : State} (h : Inv s) (hb : s.busy = false) : Wired s ∧ LinesIdle s ∧ MemoriesFit s :=
  ⟨h.wired, h.linesIdle (h.idle_of_not_busy hb), h.memories⟩

/-- A refused request ends at once. -/
theorem inv_start_fail {s : State} (h : Inv s) (hb : s.busy = false) (op : Byte) {k : FailKind}
    (hk : k ≠ .storageIo) (d : Bool) : Inv ((s.start op).fail k d) := by
  obtain ⟨hw, hl, hm⟩ := h.begin hb
  exact inv_fail hk d hw hl hm

/-- A request that an admission check refuses. -/
theorem inv_refused {s : State} (h : Inv s) (hb : s.busy = false) {op : Byte} {o : Operation}
    (ho : operationOf op = some o) {k : FailKind} (ha : o.admission (s.start op) = some k) (d : Bool) :
    Inv ((s.start op).fail k d) := by
  obtain ⟨_, hd, hi⟩ := decode_of_operation ho
  refine inv_start_fail h hb op ?_ d
  rcases admission_kind hd hi ha with rfl | rfl <;> simp

/-- An admitted operation is at its first primitive. -/
theorem inv_start {s : State} (h : Inv s) (hb : s.busy = false) {op : Byte} {o : Operation}
    (ho : operationOf op = some o) (ha : o.admission (s.start op) = none) : Inv (s.start op) := by
  obtain ⟨_, -, hi⟩ := decode_of_operation ho
  obtain ⟨hw, hl, hm⟩ := h.begin hb
  exact {
    pullup := hw.1
    busy := by simp [State.busy]
    reserved := status7_start _
    err := by simp
    cleared := fun _ => by simp
    ctl := hw.2
    buf := hm.1
    scratch := hm.2
    lines := ⟨o, ho, by simpa [hl.1, hl.2] using operation_safe hi ha⟩ }

theorem inv_startOperation {s : State} (h : Inv s) {op : Byte} {o : Operation} (ho : operationOf op = some o) :
    Inv (startOperation op o s) := by
  unfold startOperation
  split
  · exact h
  next hb =>
    rw [Bool.not_eq_true] at hb
    split
    next ha => exact inv_refused h hb ho ha _
    next ha => exact inv_start h hb ho ha

theorem inv_illegalCommand {s : State} (h : Inv s) (op : Byte) : Inv (illegalCommand op s) := by
  unfold illegalCommand
  split
  · exact h
  next hb => exact inv_start_fail h (by simpa using hb) op (by simp) _

theorem inv_startCommand {s : State} (h : Inv s) (op : Byte) : Inv (startCommand op s) := by
  unfold startCommand
  split
  next o ho => exact inv_startOperation h ho
  next => exact inv_illegalCommand h op

theorem inv_runOperation {s : State} (h : Inv s) {op : Byte} {o : Operation} (ho : operationOf op = some o) :
    Inv (runOperation op o s) := by
  unfold runOperation
  split
  · exact h
  next hb =>
    rw [Bool.not_eq_true] at hb
    split
    next ha => exact inv_refused h hb ho ha _
    next ha =>
      obtain ⟨_, -, hi⟩ := decode_of_operation ho
      obtain ⟨hw, hl, hm⟩ := h.begin hb
      exact inv_conclude hw hm (by simpa [hl.1, hl.2] using operation_safe hi ha) (operation_uses hi _)

theorem inv_layerCall {p : Prog α} {s : State} (h : Inv s) (hp : p.Safe true false true false)
    (hu : p.Uses fun _ => True) (d : Bool) : Inv (layerCall p d s) := by
  unfold layerCall
  split
  · exact h
  next hb =>
    rw [Bool.not_eq_true] at hb
    obtain ⟨hw, hl, hm⟩ := h.begin hb
    obtain ⟨hw', hl', hm'⟩ := run_fits hw hm (p := p) (by rwa [hl.1, hl.2])
    have hs := run_samePort p s
    split
    next v t hr =>
      rw [hr] at hw' hl' hm' hs
      obtain ⟨-, hst, hseq, -⟩ := hs
      exact h.of_status hst (by rw [hseq]) hw' hm' (linesFit_idle (hseq.trans (h.idle_of_not_busy hb)) hl')
    next k t hr => rw [hr] at hw' hl' hm'; exact inv_fail (hu.kind hr) d hw' hl' hm'

theorem inv_exec {s t : State} (h : Inv s) {i : Instr} (hwf : i.wellFormed = true) (he : exec i s = .next t) :
    Inv t := by
  by_cases hi : i.space = .host
  · obtain ⟨op, hop⟩ := exists_opcode hi
    obtain ⟨o, -, ho, hx⟩ := exec_host hop
    rw [hx] at he
    cases he
    exact inv_runOperation h ho
  · obtain ⟨α, p, d, hu, hp, hx⟩ := exec_layer hi s
    rw [hx s rfl] at he
    cases he
    exact inv_layerCall h (hp hwf) hu d

/-! ## The core by itself -/

/-- `s` after the primitive `q` of an operation that runs, its answer noted. -/
def State.afterPrim (s : State) (answers : List Byte) (q : Prim) : State :=
  (doPrim q s).1.atSeq (.run (answers ++ [(doPrim q s).2]))

section
variable {s : State} {answers : List Byte} {q : Prim} {next : Byte → Prog Results}

/-- An allowed primitive is performed without a fault (R132). -/
theorem performNext_prim (h : q.allowed s.ck s.dOe) : performNext answers (.prim q next) s = .next (s.afterPrim answers q) :=
  if_neg fun ⟨hread, hdriven⟩ => by
    subst hread
    exact absurd (h.2.symm.trans hdriven) (by simp)

/-- What is left of the operation after a primitive. -/
theorem afterPrim_resume {o : Operation} (ho : operationOf s.cmd = some o)
    (hp : (o.prog s).resume answers = .prim q next) :
    (o.prog (s.afterPrim answers q)).resume (answers ++ [(doPrim q s).2]) = next (doPrim q s).2 := by
  obtain ⟨_, -, hi⟩ := decode_of_operation ho
  have hin := sameInputs_of_samePort (doPrim_samePort q s)
  have hprog : o.prog (s.afterPrim answers q) = o.prog s := prog_congr hi hin
  rw [hprog, resume_append _ hp]

theorem afterPrim_safe (h : (Prog.prim q next).Safe s.ck s.dOe true false) :
    (next (doPrim q s).2).Safe (s.afterPrim answers q).ck (s.afterPrim answers q).dOe true false := by
  obtain ⟨hck, hoe⟩ := doPrim_lines q s
  simpa only [State.afterPrim, State.atSeq, hck, hoe] using h.2 _

end

theorem inv_afterPrim {s : State} (h : Inv s) {answers : List Byte} {o : Operation} {q : Prim}
    {next : Byte → Prog Results} (hq : s.seq = .run answers) (ho : operationOf s.cmd = some o)
    (hp : (o.prog s).resume answers = .prim q next) (hs : (Prog.prim q next).Safe s.ck s.dOe true false) :
    Inv (s.afterPrim answers q) := by
  have hw := h.wired.of_samePort (doPrim_samePort q s)
  obtain ⟨hcmd, hst, -⟩ := doPrim_samePort q s
  have hl : LinesFit (s.afterPrim answers q) :=
    linesFit_run rfl (hcmd ▸ ho) (by rw [afterPrim_resume ho hp]; exact afterPrim_safe hs)
  exact h.of_status hst (by simp [hq, State.afterPrim, State.atSeq]) hw (doPrim_memories h.memories hs.1) hl

theorem inv_advance {s t : State} (h : Inv s) (ha : advance s = .next t) : Inv t := by
  unfold advance at ha
  split at ha
  · cases ha; exact h
  next answers hq =>
    obtain ⟨o, ho, hs⟩ := h.running hq
    simp only [ho] at ha
    cases hp : (o.prog s).resume answers with
    | ret v =>
      rw [hp] at ha hs
      cases ha
      exact inv_succeed v h.wired hs h.memories
    | raise k =>
      obtain ⟨_, -, hi⟩ := decode_of_operation ho
      have hu := (operation_uses hi s).resume answers
      rw [hp] at ha hs hu
      cases ha
      exact inv_fail (hu.kind (run_raise k s)) _ h.wired hs h.memories
    | prim q next =>
      rw [hp] at hs
      rw [hp, performNext_prim hs.1] at ha
      cases ha
      exact inv_afterPrim h hq ho hp hs

theorem inv_complete {s : State} (h : Inv s) : Inv (complete s) := by
  unfold complete
  split
  · exact h
  next answers hq =>
    obtain ⟨o, ho, hs⟩ := h.running hq
    simp only [ho]
    obtain ⟨_, -, hi⟩ := decode_of_operation ho
    exact inv_conclude h.wired h.memories hs ((operation_uses hi s).resume answers)

/-! ## Moves of the host -/

theorem ctlWritten_reserved (v : Byte) : ctlWritten v &&& 0xFC#8 = 0#8 := by
  revert v; decide

theorem inv_writeReg {s : State} (h : Inv s) (hq : s.seq = .idle) (r : HReg) (v : Word32) : Inv (s.writeReg r v) := by
  have hl := h.linesIdle hq
  have idle : ∀ {t : State}, t.seq = s.seq → t.ck = s.ck → t.dOe = s.dOe → LinesFit t := by
    intro t h1 h2 h3
    exact linesFit_idle (h1.trans hq) ⟨h2.trans hl.1, h3.trans hl.2⟩
  cases r
  case familyCtl => exact { h with ctl := ctlWritten_reserved _, lines := idle rfl rfl rfl }
  all_goals exact { h with lines := idle rfl rfl rfl }

theorem inv_hostWrite {s t : State} (h : Inv s) {r : HReg} {v : Word32} (ht : hostWrite r v s = .next t) : Inv t := by
  unfold hostWrite at ht
  split_ifs at ht with hb <;> cases ht
  · exact h
  · exact inv_startCommand h _
  · exact inv_writeReg h (h.idle_of_not_busy (by simpa using hb)) r v

theorem inv_hostRead {s t : State} (h : Inv s) {r : HReg} (ht : hostRead r s = .next t) : Inv t := by
  unfold hostRead at ht
  split_ifs at ht <;> cases ht
  · exact h.congr rfl
  · exact h.congr rfl

theorem inv_hostWriteBuf {s t : State} (h : Inv s) {i : Nat} {b : Byte} (ht : hostWriteBuf i b s = .next t) : Inv t := by
  unfold hostWriteBuf at ht
  split_ifs at ht with hb hi <;> cases ht
  · exact h
  · have hq := h.idle_of_not_busy (by simpa using hb)
    exact h.of_status rfl Iff.rfl h.wired ⟨Memory.within_write h.buf hi b, h.scratch⟩ (linesFit_idle hq (h.linesIdle hq))

theorem inv_hostReadBuf {s t : State} (h : Inv s) {i : Nat} (ht : hostReadBuf i s = .next t) : Inv t := by
  unfold hostReadBuf at ht
  split_ifs at ht <;> cases ht
  · exact h.congr rfl
  · refine h.congr ?_
    rw [State.answerHost, readCell_fst]

theorem inv_undecodedMove {s t : State} (h : Inv s) {sp : Space} {bytes : List Byte}
    (ht : undecodedMove sp bytes s = .next t) : Inv t := by
  unfold undecodedMove at ht
  split at ht <;> cases ht
  · exact inv_layerCall h (safe_checkResponse _) (uses_checkResponse _) false
  · exact inv_illegalCommand h _

theorem inv_takeMove {s t : State} (h : Inv s) {m : PortMove} (ht : takeMove m s = .next t) : Inv t := by
  cases m with
  | run op =>
    simp only [takeMove] at ht
    split at ht
    next hi => exact inv_exec h (decodeHost_wellFormed hi) ht
    next => cases ht; exact inv_illegalCommand h op
  | write r v => exact inv_hostWrite h ht
  | read r => exact inv_hostRead h ht
  | writeBuf i b => exact inv_hostWriteBuf h ht
  | readBuf i => exact inv_hostReadBuf h ht
  | pass => exact inv_advance h ht
  | wait => cases ht; exact inv_complete h
  | layer sp bytes =>
    simp only [takeMove] at ht
    split at ht
    next hi => exact inv_exec h (decode_wellFormed hi) ht
    next => exact inv_undecodedMove h ht
  | reset => cases ht; exact inv_resetCore s
  | otherMaster => cases ht

theorem inv_step {s t : State} (h : Inv s) (ht : step s = .next t) : Inv t := by
  unfold step at ht
  split at ht
  · exact inv_advance h ht
  · exact inv_takeMove (h.congr rfl) ht

/-- Settles O55: whatever the next move or primitive is, it keeps the invariant. -/
theorem stepKeepsSafety : Obligations.StepKeepsSafety := fun _ _ h ht => inv_step h ht

/-- Settles O54: the state after reset is what reset leaves of itself. -/
theorem resetIsSafe : Obligations.ResetIsSafe := inv_resetCore State.reset

end Sys2Proof.Machine
end

section
/-! PROOFS about the state, third part: the local memories as data, and what the host can see and change: reads and writes
of the registers and of BUF, while idle and while busy (R27, R28, R39), and the values of reset (R45). -/

namespace Sys2Proof.Machine

/-! ## Canonical memories -/

/-- Below the first listed index nothing is listed. -/
theorem Memory.read_below {m : Memory} {i : Nat} (h : ∀ c ∈ m, i < c.1) : m.read i = none := by
  induction m with
  | nil => rfl
  | cons c m ih =>
    have hc : i < c.1 := h c (by simp)
    simp only [Memory.read]
    rw [if_neg (by omega), ih fun d hd => h d (by simp [hd])]

theorem Memory.read_head (c : Host.Cell) (m : Memory) : Memory.read (c :: m) c.1 = some c.2 := if_pos rfl

/-- Of two canonical memories that read alike, neither begins below the other. -/
theorem Memory.not_head_lt {c d : Host.Cell} {m m' : Memory} (h' : Memory.wf (d :: m'))
    (hr : ∀ i, Memory.read (c :: m) i = Memory.read (d :: m') i) : ¬ c.1 < d.1 := by
  intro hlt
  have hbelow : Memory.read (d :: m') c.1 = none := Memory.read_below fun e he => by
    rcases List.mem_cons.mp he with rfl | he
    · exact hlt
    · exact Nat.lt_trans hlt (List.rel_of_pairwise_cons h' he)
  rw [← hr, Memory.read_head] at hbelow
  cases hbelow

theorem Memory.ext_of_wf {m m' : Memory} (h : m.wf) (h' : m'.wf) (hr : ∀ i, m.read i = m'.read i) : m = m' := by
  induction m generalizing m' with
  | nil =>
    cases m' with
    | nil => rfl
    | cons d m' => have := hr d.1; rw [Memory.read_head] at this; cases this
  | cons c m ih =>
    cases m' with
    | nil => have := hr c.1; rw [Memory.read_head] at this; cases this
    | cons d m' =>
      have hlt := Memory.not_head_lt h' hr
      have hgt := Memory.not_head_lt h fun i => (hr i).symm
      have hidx : c.1 = d.1 := by omega
      have hval : c.2 = d.2 := by
        have := hr c.1
        rw [Memory.read_head, hidx, Memory.read_head] at this
        exact Option.some.inj this
      obtain ⟨hc, hm⟩ := List.pairwise_cons.mp h
      obtain ⟨hd, hm'⟩ := List.pairwise_cons.mp h'
      have htail : ∀ i, Memory.read m i = Memory.read m' i := fun i => by
        by_cases hi : i = c.1
        · rw [Memory.read_below fun e he => hi ▸ hc e he, Memory.read_below fun e he => hi ▸ hidx ▸ hd e he]
        · have := hr i
          simpa only [Memory.read, if_neg hi, if_neg (hidx ▸ hi)] using this
      rw [Prod.ext hidx hval, ih hm hm' htail]

/-- Settles O60, by induction on the lists: heads are the least indices, and agree. -/
theorem canonicalMemoriesThatReadAlikeAreEqual : Obligations.CanonicalMemoriesThatReadAlikeAreEqual :=
  fun _ _ => Memory.ext_of_wf

/-! ## The registers (R27) -/

theorem setWidth_eq_and {w : Nat} (h : w ≤ 32) (v : Word32) :
    (v.setWidth w).setWidth 32 = v &&& BitVec.ofNat 32 (2 ^ w - 1) := by
  apply BitVec.eq_of_toNat_eq
  have hpow : 2 ^ w ≤ 2 ^ 32 := Nat.pow_le_pow_right (by decide) h
  have hpos : 0 < 2 ^ w := Nat.two_pow_pos w
  rw [BitVec.toNat_and, BitVec.toNat_ofNat, Nat.mod_eq_of_lt (by omega), Nat.and_two_pow_sub_one_eq_mod,
    BitVec.toNat_setWidth, BitVec.toNat_setWidth, Nat.mod_eq_of_lt]
  have := Nat.mod_lt v.toNat hpos
  omega

theorem ctlWritten_setWidth (v : Word32) : (ctlWritten (v.setWidth 8)).setWidth 32 = v &&& 3#32 := by
  rw [ctlWritten, BitVec.setWidth_and, setWidth_eq_and (by decide), BitVec.and_assoc]
  rfl

theorem readReg_writeReg_same (s : State) {r : HReg} (v : Word32) (hw : r.writable = true) (hc : r ≠ .cmd) :
    (s.writeReg r v).readReg r = if r = .familyCtl then v &&& 3#32 else v &&& BitVec.ofNat 32 (2 ^ r.width - 1) := by
  have full : v = v &&& BitVec.ofNat 32 (2 ^ 32 - 1) := by rw [← setWidth_eq_and (by decide)]; simp
  cases r
  case addr => exact setWidth_eq_and (by decide) v
  case len | pollOut | pageSize => exact full
  case byte0 | byte1 | flags | fpdatAddr | fpctlAddr => exact setWidth_eq_and (by decide) v
  case familyCtl => exact ctlWritten_setWidth v
  case cmd => exact absurd rfl hc
  all_goals cases hw

theorem readReg_writeReg_other (s : State) {r q : HReg} (v : Word32) (h : q ≠ r) :
    (s.writeReg r v).readReg q = s.readReg q := by
  cases r
  case cmd | status | res0 | res1 | resLen | deviceId | revisionId | piVersion | piDerivative => rfl
  all_goals cases q <;> trivial

/-- A write of a register changes the writable registers at most. -/
theorem writeReg_frame (s : State) (r : HReg) (v : Word32) :
    s.writeReg r v = { s with
      addr := (s.writeReg r v).addr, len := (s.writeReg r v).len, byte0 := (s.writeReg r v).byte0
      byte1 := (s.writeReg r v).byte1, flags := (s.writeReg r v).flags, pollOut := (s.writeReg r v).pollOut
      fpdatAddr := (s.writeReg r v).fpdatAddr, pageSize := (s.writeReg r v).pageSize
      familyCtl := (s.writeReg r v).familyCtl, fpctlAddr := (s.writeReg r v).fpctlAddr } := by
  cases r <;> rfl

/-! ## Accesses of the host while idle (R28, R39) -/

section
variable {s : State}

theorem hostWrite_idle (hb : s.busy = false) {r : HReg} (v : Word32) (hw : r.writable = true) (hc : r ≠ .cmd) :
    hostWrite r v s = .next (s.writeReg r v) := by
  simp [hostWrite, hb, hw, hc]

theorem hostWrite_readOnly (hb : s.busy = false) {r : HReg} (v : Word32) (hw : r.writable = false) :
    hostWrite r v s = .refused .writeOfReadOnly := by
  have hc : r ≠ .cmd := by rintro rfl; cases hw
  simp [hostWrite, hb, hw, hc]

theorem hostRead_idle (hb : s.busy = false) {q : HReg} (hq : q.readable = true) :
    hostRead q s = .next { s with hostData := s.readReg q } := by
  simp [hostRead, hb, hq, State.answerHost]

theorem hostRead_writeOnly (hb : s.busy = false) {q : HReg} (hq : q.readable = false) :
    hostRead q s = .refused .readOfWriteOnly := by
  simp [hostRead, hb, hq]

theorem hostWriteBuf_idle (hb : s.busy = false) {i : Nat} (hi : i < Config.bufSize) (b : Byte) :
    hostWriteBuf i b s = .next { s with buf := s.buf.write i b } := by
  simp [hostWriteBuf, hb, hi]

theorem hostReadBuf_idle (hb : s.busy = false) {i : Nat} (hi : i < Config.bufSize) {b : Byte}
    (h : s.buf.read i = some b) : hostReadBuf i s = .next { s with hostData := b.setWidth 32 } := by
  simp [hostReadBuf, hb, hi, State.readCell, h, State.answerHost]

theorem hostBuf_outside (hb : s.busy = false) {i : Nat} (hi : Config.bufSize ≤ i) (b : Byte) :
    hostWriteBuf i b s = .fault .bufIndexOutOfRange ∧ hostReadBuf i s = .fault .bufIndexOutOfRange := by
  simp [hostWriteBuf, hostReadBuf, hb, Nat.not_lt.mpr hi]

theorem busy_writeReg (r : HReg) (v : Word32) : (s.writeReg r v).busy = s.busy := by
  cases r <;> rfl

end

/-- Settles O45, access by access. -/
theorem hostReadsBackWhatItWrote : Obligations.HostReadsBackWhatItWrote := by
  intro s r q v hb
  refine ⟨fun hw hc => ?_, hostRead_idle hb, hostWrite_readOnly hb v, hostRead_writeOnly hb, fun i j b => ⟨fun hi => ?_,
    fun hi => hostBuf_outside hb hi b⟩⟩
  · exact ⟨s.writeReg r v, hostWrite_idle hb v hw hc, (busy_writeReg r v).trans hb, readReg_writeReg_same s v hw hc,
      readReg_writeReg_other s v, writeReg_frame s r v⟩
  · have hread := Memory.read_write_same s.buf i b
    exact ⟨_, hostWriteBuf_idle hb hi b, rfl, hread, Memory.read_write_other _ b,
      hostReadBuf_idle (s := { s with buf := s.buf.write i b }) hb hi hread⟩

/-! ## Accesses of the host while busy (R28, R235) -/

/-- A busy core runs no instruction. -/
theorem exec_busy {s : State} (hb : s.busy = true) (i : Instr) : exec i s = .next s := by
  by_cases hi : i.space = .host
  · obtain ⟨op, hop⟩ := exists_opcode hi
    obtain ⟨o, -, -, hx⟩ := exec_host hop
    rw [hx, runOperation_busy hb]
  · obtain ⟨α, p, d, -, -, hx⟩ := exec_layer hi s
    rw [hx s rfl, layerCall_busy hb]

/-- Settles O44: each access tests `BUSY` first. -/
theorem busyCoreIgnoresTheHost : Obligations.BusyCoreIgnoresTheHost := by
  intro s i r v k b hb
  refine ⟨exec_busy hb i, if_pos hb, if_pos hb, ?_, fun hr => if_pos ⟨hb, hr⟩, if_pos hb⟩
  simp [hostRead, HReg.readable, State.answerHost, State.readReg]

/-! ## Reset (R45) -/

/-- Settles O52: each value is a field of `State.reset`. -/
theorem resetGivesTheTable : Obligations.ResetGivesTheTable :=
  ⟨rfl, rfl, rfl, rfl, rfl, rfl, rfl, rfl, rfl⟩

end Sys2Proof.Machine
end

section
/-! PROOFS about the state, fourth part: whole commands. What a command leaves of the local memories (R35, R197, R259), that
the past on the wire influences nothing (R20, R43), and what a core with no target on its lines does (U21). -/

namespace Sys2Proof.Machine

variable {α : Type}

/-! ## How a command ends -/

theorem bufIsDest_of_samePort {s t : State} (h : SamePort s t) : t.bufIsDest = s.bufIsDest := by
  obtain ⟨hcmd, -, -, ⟨⟨-, -, -, -, hflags⟩, -⟩, -⟩ := h
  rw [State.bufIsDest, hcmd, hflags, State.bufIsDest]

/-- A command from an idle core: refused at once, or run to its return or its first failure (R235, R237). -/
theorem runOperation_cases {s : State} (hb : s.busy = false) {op : Byte} {i : Instr} {o : Operation}
    (h1 : decodeHost op = .ok i) (h2 : operationOfInstr i = some o) :
    (∃ k, k.code ≠ 0#3 ∧ runOperation op o s = (s.start op).fail k (s.start op).bufIsDest) ∨
    (∃ v t, (o.prog (s.start op)).run (s.start op) = (.ok v, t) ∧ runOperation op o s = t.succeed v) ∨
    ∃ k t, k.code ≠ 0#3 ∧ (o.prog (s.start op)).run (s.start op) = (.failed k, t) ∧
      runOperation op o s = t.fail k (s.start op).bufIsDest := by
  cases ha : o.admission (s.start op) with
  | some k =>
    refine .inl ⟨k, ?_, by simp [runOperation, hb, ha]⟩
    rcases admission_kind h1 h2 ha with rfl | rfl <;> simp [FailKind.code]
  | none =>
    rcases hr : (o.prog (s.start op)).run (s.start op) with ⟨v | k, t⟩
    · exact .inr (.inl ⟨v, t, rfl, by simp [runOperation, hb, ha, hr, conclude]⟩)
    · have hd := bufIsDest_of_samePort (run_samePort_of hr)
      refine .inr (.inr ⟨k, t, ?_, rfl, by simp [runOperation, hb, ha, hr, conclude, hd]⟩)
      rcases (operation_uses h2 _).run hr with rfl | rfl <;> simp [FailKind.code]

/-! ## The local memories after a command -/

theorem opcode_blockRead {op : Byte} {i : Instr} (h : decodeHost op = .ok i) : op = 0x32#8 ↔ i = .blockRead := by
  constructor
  · rintro rfl
    cases h
    rfl
  · rintro rfl
    simpa [hostOpcodes] using mem_of_decodeHost h

/-- BUF is a destination of a `BLOCK_READ` that stores, and of nothing else (R110). -/
theorem bufIsDest_start {op : Byte} {i : Instr} (h : decodeHost op = .ok i) (s : State) :
    (s.start op).bufIsDest = true ↔ i = .blockRead ∧ flagDiscard s.flags = false := by
  simp [State.bufIsDest, opcode_blockRead h]

theorem runOperation_buf {s : State} (hb : s.busy = false) {op : Byte} {i : Instr} {o : Operation}
    (h1 : decodeHost op = .ok i) (h2 : operationOfInstr i = some o)
    (hd : ¬ (i = .blockRead ∧ flagDiscard s.flags = false)) : (runOperation op o s).buf = s.buf := by
  have hdest : (s.start op).bufIsDest = false := by simpa using mt (bufIsDest_start h1 s).mp hd
  have hrun : ((o.prog (s.start op)).run (s.start op)).2.buf = s.buf :=
    (uses_operation plain_noStoreBuf h2 (s.start op) (fun hi hf => absurd ⟨hi, hf⟩ hd) fun _ => by simp).buf _
  rcases runOperation_cases hb h1 h2 with ⟨k, -, he⟩ | ⟨v, t, hr, he⟩ | ⟨k, t, -, hr, he⟩
  · simp [he, hdest]
  · rw [hr] at hrun; rw [he, State.succeed_buf, hrun]
  · rw [hr] at hrun; simpa [he, hdest] using hrun

theorem runOperation_scratch {s : State} (hb : s.busy = false) {op : Byte} {i : Instr} {o : Operation}
    (h1 : decodeHost op = .ok i) (h2 : operationOfInstr i = some o)
    (he : statusErr (runOperation op o s).status = 0#3) (hi : i ≠ .flashChunk) :
    (runOperation op o s).scratch = s.scratch := by
  have hrun : ((o.prog (s.start op)).run (s.start op)).2.scratch = s.scratch :=
    (uses_operation plain_noStoreScratch h2 (s.start op) (fun _ _ => by simp) fun hc => absurd hc hi).scratch _
  rcases runOperation_cases hb h1 h2 with ⟨k, hk, hx⟩ | ⟨v, t, hr, hx⟩ | ⟨k, t, hk, hr, hx⟩
  · rw [hx] at he; exact absurd (by simpa using he) hk
  · rw [hr] at hrun; rw [hx, State.succeed_scratch, hrun]
  · rw [hx] at he; exact absurd (by simpa using he) hk

/-- A failed command leaves no value in SCRATCH, nor in BUF if it was the destination. -/
theorem runOperation_failed {s : State} (hb : s.busy = false) {op : Byte} {i : Instr} {o : Operation}
    (h1 : decodeHost op = .ok i) (h2 : operationOfInstr i = some o)
    (he : statusErr (runOperation op o s).status ≠ 0#3) :
    (runOperation op o s).scratch = [] ∧
      (i = .blockRead → flagDiscard s.flags = false → (runOperation op o s).buf = []) := by
  have hdest := fun hi hf => (bufIsDest_start h1 s).mpr ⟨hi, hf⟩
  rcases runOperation_cases hb h1 h2 with ⟨k, -, hx⟩ | ⟨v, t, -, hx⟩ | ⟨k, t, -, -, hx⟩
  · rw [hx]; exact ⟨rfl, fun hi hf => by simp [hdest hi hf]⟩
  · rw [hx] at he; exact absurd (by simp) he
  · rw [hx]; exact ⟨rfl, fun hi hf => by simp [hdest hi hf]⟩

/-- Settles O49, by the three ends a command can have. -/
theorem hostCommandsLeaveTheMemories : Obligations.HostCommandsLeaveTheMemories := by
  rintro s t op i ⟨-, -, hb⟩ hd hx
  obtain ⟨o, ho, -, hexec⟩ := exec_host hd
  rw [hexec] at hx
  cases hx
  refine ⟨fun h j => by rw [runOperation_buf hb hd ho h], fun he hi j => by rw [runOperation_scratch hb hd ho he hi],
    fun he j => by rw [(runOperation_failed hb hd ho he).1]; rfl, fun he hi hf j => ?_⟩
  rw [(runOperation_failed hb hd ho he).2 hi hf]
  rfl

/-! ## The past on the wire -/

section
variable (past : List Event) (s : State)

theorem layerCall_withPast (p : Prog α) (d : Bool) : layerCall p d (s.withPast past) = (layerCall p d s).withPast past := by
  have hb' : (s.withPast past).busy = s.busy := rfl
  cases hb : s.busy with
  | true => rw [layerCall_busy hb, layerCall_busy (hb'.trans hb)]
  | false =>
    have hr' := (unseen_withPast past).run p s
    rcases hr : p.run s with ⟨v | k, t⟩ <;> rw [hr] at hr'
    · rw [layerCall_ok hb hr, layerCall_ok (hb'.trans hb) hr']
    · rw [layerCall_failed hb hr, layerCall_failed (hb'.trans hb) hr']
      rfl

theorem conclude_withPast (e : Ending Results) : conclude (e, s.withPast past) = (conclude (e, s)).withPast past := by
  cases e <;> rfl

theorem runOperation_withPast {op : Byte} {i : Instr} {o : Operation} (h1 : decodeHost op = .ok i)
    (h2 : operationOfInstr i = some o) :
    runOperation op o (s.withPast past) = (runOperation op o s).withPast past := by
  have hb : (s.withPast past).busy = s.busy := rfl
  have hs : (s.withPast past).start op = (s.start op).withPast past := rfl
  have ha : o.admission ((s.start op).withPast past) = o.admission (s.start op) := by
    rw [admit_eq_table _ h1 h2, admit_eq_table _ h1 h2]
    rfl
  have hp : o.prog ((s.start op).withPast past) = o.prog (s.start op) :=
    prog_congr h2 (sameInputs_of_samePort (SamePort.refl (s.start op)))
  unfold runOperation
  rw [hb, hs, ha, hp, (unseen_withPast past).run, conclude_withPast]
  split
  · rfl
  · split <;> rfl

end

/-- Settles O51: neither a primitive, nor a check, nor an end looks at the trace. -/
theorem traceInfluencesNothing : Obligations.TraceInfluencesNothing := by
  intro i s t past hx
  change exec i (s.withPast past) = .next (t.withPast past)
  by_cases hi : i.space = .host
  · obtain ⟨op, hop⟩ := exists_opcode hi
    obtain ⟨o, ho, -, hexec⟩ := exec_host hop
    rw [hexec] at hx ⊢
    cases hx
    rw [runOperation_withPast past s hop ho]
  · obtain ⟨α, p, d, -, -, hexec⟩ := exec_layer hi s
    rw [hexec s rfl] at hx
    cases hx
    rw [hexec (s.withPast past) rfl, layerCall_withPast]

/-! ## No target on the lines (U21) -/

/-- While every sample shows 1, the target answers whatever asks for ones only. -/
theorem answers_of_ones {s : State} {n m : Nat} (h : ∀ k < n, s.line k = true) {xs : List Xact}
    (hx : samplesOf xs = List.replicate m true) (hm : m ≤ n) : Answers s xs := by
  refine lines_eq_iff.mpr fun k hk => ?_
  have hk' : k < m := by simpa [hx] using hk
  rw [h k (by omega)]
  simp [hx]

/-- A `PI_WRITE` that polls a busy target to the end of its budget: one sample of WAIT, and eight of each poll. -/
theorem samplesOf_busyPolls (b : Byte) :
    samplesOf (.wd b 1 :: exhaustedXacts 1 (List.replicate 20 0xFF#8)) = List.replicate 161 true := by
  simp [samplesOf, exhaustedXacts, Xact.samples, serialise, List.replicate]

/-- The frames of `reset_and_halt` after the pulse, at first-try answers (R206). -/
theorem does_haltFrames (fpctl : Byte) :
    Does ((writeAr fpctl).andThen <| (writeDr Config.fpctlReset).andThen <| (writeDr Config.fpctlCoreReset).andThen <|
        (writeDr Config.fpctlHalt).andThen <| delay Config.haltSettle) ()
      [.wa fpctl, .wd Config.fpctlReset 1, .wd Config.fpctlCoreReset 1, .wd Config.fpctlHalt 1, .gap Config.haltSettle]
      Anything :=
  (does_writeAr fpctl).andThen <| (does_writeDr _ (by decide) (by decide)).andThen <|
    (does_writeDr _ (by decide) (by decide)).andThen <| (does_writeDr _ (by decide) (by decide)).andThen
      (does_delay (by decide))

/-- `reset_and_halt` succeeds on a line that shows ones. -/
theorem run_resetAndHalt_ones (fpctl : Byte) {s : State} (hi : LinesIdle s) (h : ∀ k < 3, s.line k = true) :
    ∃ t, (resetAndHalt fpctl).run s = (.ok (), t) := by
  have hline : ∀ k < 3, (s.moved true s.dOe s.dOut s.shift s.bitcnt s.trycnt resetPulseEvents 0).line k = true := by
    simpa using h
  have hidle : LinesIdle (s.moved true s.dOe s.dOut s.shift s.bitcnt s.trycnt resetPulseEvents 0) := ⟨rfl, hi.2⟩
  obtain ⟨t, ht, -⟩ := (does_haltFrames fpctl).goes hidle
    (answers_of_ones hline (m := 3) (by simp [samplesOf, Xact.samples, List.replicate]) (by omega))
  exact ⟨t, by rw [resetAndHalt, run_andThen_ok _ (run_resetPulse s), ht.1]⟩

section
variable {s : State} (hr : Ready s)
include hr

theorem readAr_ones (h : ∀ k < 8, s.line k = true) :
    ∃ t, exec .readAr s = .next t ∧ statusErr t.status = 0#3 ∧ t.res0 = 0xFF#8 := by
  have hd := (does_readAr 0xFF#8).bindRet (f := fun r => ({ res0 := some r } : Results))
  have hans := answers_of_ones h (xs := [.ra 0xFF#8]) (m := 8) rfl (by omega)
  obtain ⟨⟨-, ⟨⟨-, -, -, herr, -⟩, -⟩, -⟩, hres⟩ := command_does (op := 0x11#8) (o := opReadAr) hr.1 hr.2.2
    (admit_free rfl (fun _ => rfl) _) hans hd rfl rfl
  exact ⟨_, rfl, herr, hres _ rfl⟩

theorem piWrite_ones (h : ∀ k < 161, s.line k = true) :
    ∃ t, exec .piWrite s = .next t ∧ FailedWith s t .busTimeout false ∧
      OnWire s t (.wd s.byte0 1 :: exhaustedXacts 1 (List.replicate 20 0xFF#8)) := by
  have hd : DoesFail (opPiWrite.prog (s.start 0x20#8)) .busTimeout
      (.wd s.byte0 1 :: exhaustedXacts 1 (List.replicate 20 0xFF#8)) :=
    (doesFail_busy (a := ⟨1, [], 0xFF#8⟩) (by decide) (by decide) (by simp [Config.busyTries]) (by decide) s.byte0).andThen _
  have hans := answers_of_ones h (samplesOf_busyPolls s.byte0) (Nat.le_refl _)
  exact ⟨_, rfl, command_doesFail hr (admit_free rfl (fun _ => rfl) _) hans hd⟩

theorem getDeviceInfo_ones (h : ∀ k < 18, s.line k = true) :
    ∃ t, exec .getDeviceInfo s = .next t ∧ statusErr t.status = 0#3 ∧ t.deviceId = 0xFF#8 ∧ t.revisionId = 0xFF#8 := by
  have hd := (does_getDeviceInfo 0xFF#8 0xFF#8 (n := 1) (m := 1) (by decide) (by decide) (by decide)
    (by decide)).bindRet (f := fun v => ({ res0 := some v.1, res1 := some v.2, device := some v } : Results))
  obtain ⟨t, ht, -⟩ := hd.goes (linesIdle_start hr.1 0x37#8)
    (answers_start (answers_of_ones h (m := 18) rfl (by omega)) 0x37#8)
  have hx := runOperation_goes (o := opGetDeviceInfo) hr.2.2 (admit_free rfl (fun _ => rfl) _) ht
  exact ⟨_, congrArg Host.Outcome.next hx, by simp, rfl, rfl⟩

theorem resetHalt_ones (h : ∀ k < 3, s.line k = true) :
    ∃ t, exec .resetHalt s = .next t ∧ statusErr t.status = 0#3 := by
  obtain ⟨t, ht⟩ := run_resetAndHalt_ones s.fpctlAddr (linesIdle_start hr.1 0x36#8) h
  have hx : runOperation 0x36#8 opResetHalt s = t.succeed {} := by
    have hrun : (opResetHalt.prog (s.start 0x36#8)).run (s.start 0x36#8) = (.ok {}, t) := run_andThen_ok _ ht
    simp [runOperation, hr.2.2, admit_free (o := opResetHalt) rfl (fun _ => rfl), hrun, conclude]
  exact ⟨_, congrArg Host.Outcome.next hx, by simp⟩

end

/-- Settles O36: the frames that each of the four commands makes ask for ones only. -/
theorem absentTargetReadsAsOnes : Obligations.AbsentTargetReadsAsOnes := fun _ hr h =>
  ⟨readAr_ones hr fun k hk => h k (by omega), piWrite_ones hr h, getDeviceInfo_ones hr fun k hk => h k (by omega),
    resetHalt_ones hr fun k hk => h k (by omega)⟩

end Sys2Proof.Machine
end

section
/-! PROOFS about the state, fifth part: a started command performed primitive by primitive (R36, R37) reaches the state that
its whole run gives. -/

namespace Sys2Proof.Machine

/-! ## Steps of a core that is left alone -/

theorem step_alone {s : State} (hp : s.port = []) : step s = advance s := by
  simp [step, hp]

theorem stepN_idle {s : State} (hp : s.port = []) (hq : s.seq = .idle) (n : Nat) : stepN n s = .next s := by
  induction n with
  | zero => rfl
  | succ n ih => simp only [stepN, step_alone hp, advance, hq, ih]

theorem stepN_succ {s t : State} (h : step s = .next t) (n : Nat) : stepN (n + 1) s = stepN n t := by
  simp only [stepN, h]

theorem advance_running {s : State} {answers : List Byte} {o : Operation} (hq : s.seq = .run answers)
    (ho : operationOf s.cmd = some o) : advance s = performNext answers ((o.prog s).resume answers) s := by
  simp only [advance, hq, ho]

/-! ## The end of an operation does not depend on the sequencer position it is reached from -/

theorem conclude_atSeq (e : Ending Results) (s : State) (x : Seq) : conclude (e, s.atSeq x) = conclude (e, s) := by
  cases e <;> rfl

theorem conclude_run_atSeq (p : Prog Results) (s : State) (x : Seq) : conclude (p.run (s.atSeq x)) = conclude (p.run s) := by
  rw [(unseen_atSeq x).run, conclude_atSeq]

theorem conclude_seq (r : Ending Results × State) : (conclude r).seq = .idle := by
  rcases r with ⟨v | k, t⟩ <;> rfl

/-! ## Primitive by primitive -/

/-- A step that ends an operation is its last. -/
theorem stepN_ended {s : State} {e : Ending Results} (hport : s.port = []) (h : step s = .next (conclude (e, s))) (m : Nat) :
    stepN (1 + m) s = .next (conclude (e, s)) := by
  have hport' : (conclude (e, s)).port = [] := by cases e <;> exact hport
  rw [Nat.add_comm, stepN_succ h, stepN_idle hport' (conclude_seq _)]

/-- A running operation whose remaining procedure is safe reaches the end of that procedure in finitely many steps, and
stays there. -/
theorem stepN_reaches_conclude {o : Operation} (p : Prog Results) {s : State} {answers : List Byte} (hport : s.port = [])
    (hq : s.seq = .run answers) (ho : operationOf s.cmd = some o) (hp : (o.prog s).resume answers = p)
    (hs : p.Safe s.ck s.dOe true false) : ∃ n, ∀ m, stepN (n + m) s = .next (conclude (p.run s)) := by
  induction p generalizing s answers with
  | ret v => exact ⟨1, stepN_ended hport (by rw [step_alone hport, advance_running hq ho, hp]; rfl)⟩
  | raise k => exact ⟨1, stepN_ended hport (by rw [step_alone hport, advance_running hq ho, hp]; rfl)⟩
  | prim q next ih =>
    have hst : step s = .next (s.afterPrim answers q) := by
      rw [step_alone hport, advance_running hq ho, hp, performNext_prim hs.1]
    obtain ⟨hcmd, -, -, ⟨-, -, -, hport', -⟩, -⟩ := doPrim_samePort q s
    obtain ⟨n, hn⟩ := ih (doPrim q s).2 (s := s.afterPrim answers q) (hport'.trans hport) rfl (hcmd ▸ ho)
      (afterPrim_resume ho hp) (afterPrim_safe hs)
    refine ⟨n + 1, fun m => ?_⟩
    rw [Nat.add_right_comm, stepN_succ hst, hn, State.afterPrim, conclude_run_atSeq, run_prim]

/-! ## Starting a command -/

/-- Waiting for a started command gives what the whole command gives. -/
theorem complete_startOperation {s : State} (hb : s.busy = false) {op : Byte} {o : Operation}
    (ho : operationOf op = some o) : complete (startOperation op o s) = runOperation op o s := by
  simp only [startOperation, runOperation, hb, Bool.false_eq_true, if_false]
  split
  · rfl
  · simp only [complete, State.start_seq, State.start_cmd, ho, resume_nil]

/-- A started command is run by steps of the core alone. -/
theorem stepN_startOperation {s : State} (hr : Ready s) (hport : s.port = []) {op : Byte} {o : Operation}
    (ho : operationOf op = some o) : ∃ n, ∀ m, stepN (n + m) (startOperation op o s) = .next (runOperation op o s) := by
  obtain ⟨⟨hck, hoe⟩, -, hb⟩ := hr
  obtain ⟨_, -, hi⟩ := decode_of_operation ho
  cases ha : o.admission (s.start op) with
  | some k =>
    simp only [startOperation, runOperation, hb, ha, Bool.false_eq_true, if_false]
    exact ⟨0, fun m => stepN_idle (s := (s.start op).fail k _) hport rfl _⟩
  | none =>
    simp only [startOperation, runOperation, hb, ha, Bool.false_eq_true, if_false]
    exact stepN_reaches_conclude (o := o) (o.prog (s.start op)) hport rfl ho (resume_nil _)
      (by simpa [hck, hoe] using operation_safe hi ha)

/-- `s` with other moves at its port. -/
def State.atPort (s : State) (ps : List PortMove) : State := { s with port := ps }

/-- What the port holds does not matter to the start of a command. -/
theorem startOperation_atPort {i : Instr} {op : Byte} {o : Operation} (h1 : decodeHost op = .ok i)
    (h2 : operationOfInstr i = some o) (s : State) (ps : List PortMove) :
    startOperation op o (s.atPort ps) = (startOperation op o s).atPort ps := by
  have ha : o.admission ((s.atPort ps).start op) = o.admission (s.start op) := by
    rw [admit_eq_table _ h1 h2, admit_eq_table _ h1 h2]
    rfl
  have hb : (s.atPort ps).busy = s.busy := rfl
  unfold startOperation
  rw [ha, hb]
  split
  · rfl
  · split <;> rfl

theorem startCommand_eq {op : Byte} {o : Operation} (ho : operationOf op = some o) (s : State) :
    startCommand op s = startOperation op o s := by
  simp only [startCommand, ho]

/-- Writing an opcode to CMD starts its command. -/
theorem hostWrite_cmd {s : State} (hb : s.busy = false) (op : Byte) :
    hostWrite .cmd (op.setWidth 32) s = .next (startCommand op s) := by
  have hcut : (op.setWidth 32).setWidth 8 = op := by simp
  simp only [hostWrite, hb, hcut, Bool.false_eq_true, if_false, if_true]

/-- Settles O59: left alone, the remaining procedure shrinks by one primitive a step (`stepN_reaches_conclude`); a host that
waits runs the same procedure in one. -/
theorem primitiveStepsReachTheWholeOperation : Obligations.PrimitiveStepsReachTheWholeOperation := by
  intro s op i hr hd
  obtain ⟨o, hi, ho, hexec⟩ := exec_host hd
  refine ⟨fun hport => ?_, fun rest hport => ?_⟩
  · obtain ⟨n, hn⟩ := stepN_startOperation hr hport ho
    exact ⟨n, _, hexec s, fun m => by rw [startCommand_eq ho, hn]⟩
  · have hb : ∀ ps, (s.atPort ps).busy = false := fun _ => hr.2.2
    have hwrite : step s = .next (startCommand op (s.atPort (.wait :: rest))) := by
      simp only [step, hport]
      exact hostWrite_cmd (hb _) op
    have hwait : step (startCommand op (s.atPort (.wait :: rest))) = .next (runOperation op o (s.atPort rest)) := by
      rw [startCommand_eq ho, startOperation_atPort hd hi, ← complete_startOperation (hb rest) ho,
        startOperation_atPort hd hi]
      rfl
    rw [stepN_succ hwrite, stepN_succ hwait]
    exact (hexec (s.atPort rest)).symm

end Sys2Proof.Machine
end

section
/-! PROOFS about the encodings (30_encoding.md), first part: codes as bytes. Of each decoder: what it accepts is the encoding
of its answer, and it accepts the encoding of every instruction of its space. -/

namespace Sys2Proof

open Machine

/-! ## Frame words (R92 to R97) -/

theorem frameWord_writeAr (a : Byte) : frameWord (.writeArFrame a) = 0#6 ++ a ++ insWriteAr := by
  revert a; decide

theorem frameWord_readAr : frameWord .readArFrame = 0#14 ++ insReadAr := rfl

theorem frameWord_writeDr (d : Byte) : frameWord (.writeDrFrame d) = 0#4 ++ d ++ length1Byte ++ insWriteDr := by
  revert d; decide

theorem frameWord_readDr : frameWord .readDrFrame = 0#12 ++ length1Byte ++ insReadDr := rfl

theorem ins_eq_readDr {ins : BitVec 2} (h1 : ins ≠ insWriteAr) (h2 : ins ≠ insReadAr) (h3 : ins ≠ insWriteDr) :
    ins = insReadDr := by
  revert ins; decide

/-- A frame word that is accepted is the word of its frame: INS, LENGTH and payload are its slices, and no bit stands above. -/
theorem frameWord_of_decode {w : Word16} {i : Instr} (h : decodeFrameWord w = .ok i) : frameWord i = w := by
  have join : ∀ {a b : Nat} (n : Nat), b = a + n →
      ∀ m, w.extractLsb' b m ++ w.extractLsb' a n = w.extractLsb' a (m + n) := fun _ hb _ =>
    BitVec.extractLsb'_append_extractLsb'_eq_extractLsb' hb
  unfold decodeFrameWord at h
  simp only at h
  split_ifs at h with hwa ha hra hr hlen hwd hd h0 <;> cases h
  · rw [frameWord_writeAr, ← hwa, ← ha, join 8 rfl, join 2 rfl, BitVec.extractLsb'_eq_self]
  · rw [frameWord_readAr, ← hra, ← hr, join 2 rfl, BitVec.extractLsb'_eq_self]
  · rw [frameWord_writeDr, ← hwd, ← hd, ← not_not.mp hlen, join 8 rfl, join 2 rfl, join 2 rfl, BitVec.extractLsb'_eq_self]
  · rw [frameWord_readDr, ← ins_eq_readDr hwa hra hwd, ← h0, ← not_not.mp hlen, join 2 rfl, join 2 rfl,
      BitVec.extractLsb'_eq_self]

theorem decodeFrameWord_frameWord {i : Instr} (h : i.space = .frame) : decodeFrameWord (frameWord i) = .ok i := by
  cases i <;> simp only [Instr.space, reduceCtorEq] at h
  case writeArFrame a => revert a; decide
  case readArFrame => rfl
  case writeDrFrame d => revert d; decide
  case readDrFrame => rfl

@[simp] theorem addrHi_append (hi lo : Byte) : addrHi (hi ++ lo) = hi := BitVec.extractLsb'_append_eq_left
@[simp] theorem addrLo_append (hi lo : Byte) : addrLo (hi ++ lo) = lo := BitVec.extractLsb'_append_eq_right

@[simp] theorem addrHi_append_addrLo (w : Word16) : addrHi w ++ addrLo w = w := by
  rw [addrHi, addrLo, BitVec.extractLsb'_append_extractLsb'_eq_extractLsb' (Nat.zero_add 8).symm, BitVec.extractLsb'_eq_self]

/-- A frame word is laid out as an address is, but low byte first. -/
theorem frameBytes_eq (w : Word16) : frameBytes w = [addrLo w, addrHi w] := rfl

theorem encodeWith_frame {i : Instr} (c : Config.PiCodes) (h : i.space = .frame) :
    encodeWith c i = frameBytes (frameWord i) := by
  cases i <;> simp only [Instr.space, reduceCtorEq] at h <;> rfl

theorem decodeFrameBytes_sound {c : Config.PiCodes} {bytes tail : List Byte} {i : Instr}
    (h : decodeFrameBytes bytes = .ok (i, tail)) : i.space = .frame ∧ encodeWith c i ++ tail = bytes := by
  unfold decodeFrameBytes at h
  split at h
  next lo hi rest =>
    split at h
    next hw =>
      cases h
      have hs := decodeFrameWord_space hw
      rw [encodeWith_frame c hs, frameWord_of_decode hw, frameBytes_eq, addrLo_append, addrHi_append]
      exact ⟨hs, rfl⟩
    next => cases h
  next => cases h

theorem decodeFrameBytes_encodeWith {i : Instr} (c : Config.PiCodes) (h : i.space = .frame) (tail : List Byte) :
    decodeFrameBytes (encodeWith c i ++ tail) = .ok (i, tail) := by
  simp [encodeWith_frame c h, frameBytes_eq, decodeFrameBytes, decodeFrameWord_frameWord h]

/-! ## One-byte codes: responses (R105), masks (R106), FPCTL bytes (R107) and host opcodes (R109) -/

section
variable (c : Config.PiCodes) {b : Byte} {i : Instr}

theorem decodeResp_sound (h : decodeResp b = .ok i) : i.space = .resp ∧ encodeWith c i = [b] := by
  unfold decodeResp at h
  split_ifs at h <;> cases h <;> subst b <;> exact ⟨rfl, rfl⟩

theorem decodeFpctl_sound (h : decodeFpctl b = .ok i) : i.space = .fpctl ∧ encodeWith c i = [b] := by
  unfold decodeFpctl at h
  split_ifs at h <;> cases h <;> subst b <;> exact ⟨rfl, rfl⟩

theorem decodeMask_sound (h : decodeMask b = .ok i) : i.space = .arStatus ∧ encodeWith c i = [b] := by
  unfold decodeMask at h
  split_ifs at h <;> cases h <;> subst b <;> exact ⟨rfl, rfl⟩

theorem decodeHost_sound (h : decodeHost b = .ok i) : i.space = .host ∧ encodeWith c i = [b] := by
  have hrow : ∀ row ∈ hostOpcodes, row.2.space = .host ∧ encodeWith c row.2 = [row.1] := by
    simp [hostOpcodes, Instr.space, encodeWith]
  exact hrow _ (mem_of_decodeHost h)

theorem decodeResp_complete (h : i.space = .resp) : ∃ b, encodeWith c i = [b] ∧ decodeResp b = .ok i := by
  cases i <;> simp only [Instr.space, reduceCtorEq] at h <;> exact ⟨_, rfl, rfl⟩

theorem decodeFpctl_complete (h : i.space = .fpctl) : ∃ b, encodeWith c i = [b] ∧ decodeFpctl b = .ok i := by
  cases i <;> simp only [Instr.space, reduceCtorEq] at h <;> exact ⟨_, rfl, rfl⟩

theorem decodeMask_complete (h : i.space = .arStatus) : ∃ b, encodeWith c i = [b] ∧ decodeMask b = .ok i := by
  cases i <;> simp only [Instr.space, reduceCtorEq] at h <;> exact ⟨_, rfl, rfl⟩

theorem decodeHost_complete (h : i.space = .host) : ∃ b, encodeWith c i = [b] ∧ decodeHost b = .ok i := by
  obtain ⟨op, hop⟩ := exists_opcode h
  exact ⟨op, (decodeHost_sound c hop).2, hop⟩

/-- What a decoder of single bytes gives for a list of them. -/
theorem oneByte_sound {d : Byte → Except DecodeError Instr} {sp : Space} {bytes tail : List Byte}
    (hd : ∀ {b i}, d b = .ok i → i.space = sp ∧ encodeWith c i = [b]) (h : oneByte d bytes = .ok (i, tail)) :
    i.space = sp ∧ encodeWith c i ++ tail = bytes := by
  cases bytes with
  | nil => cases h
  | cons b rest =>
    simp only [oneByte] at h
    split at h
    next hb =>
      cases h
      obtain ⟨hs, he⟩ := hd hb
      exact ⟨hs, by rw [he]; rfl⟩
    next => cases h

theorem oneByte_encodeWith {d : Byte → Except DecodeError Instr} (h : ∃ b, encodeWith c i = [b] ∧ d b = .ok i)
    (tail : List Byte) : oneByte d (encodeWith c i ++ tail) = .ok (i, tail) := by
  obtain ⟨b, he, hb⟩ := h
  simp [he, oneByte, hb]

end

/-! ## PI commands (R102 to R104) -/

theorem subBlockByte_subBlockOfByte (b : Byte) : subBlockByte (subBlockOfByte b) = b := by
  revert b; decide

/-- The length byte of an admitted size stands for it; that of 256 is 0. -/
theorem subBlockOfByte_subBlockByte {n : Nat} (h : subBlockSizeOk n = true) : subBlockOfByte (subBlockByte n) = n := by
  obtain ⟨h1, h256⟩ : 1 ≤ n ∧ n ≤ Config.subblockMax := by simpa [subBlockSizeOk] using h
  obtain rfl | hlt := Nat.eq_or_lt_of_le h256
  · rfl
  · have htoNat : (subBlockByte n).toNat = n := by
      rw [subBlockByte, BitVec.toNat_ofNat, Nat.mod_eq_of_lt (show n < 2 ^ 8 from hlt)]
    have hne : subBlockByte n ≠ 0#8 := fun h0 => by simp [h0] at htoNat; omega
    rw [subBlockOfByte, if_neg hne, htoNat]

section
variable {bytes tail : List Byte} {i : Instr}

theorem decodeKey_sound (h : decodeKey bytes = .ok (i, tail)) :
    i = .piDeviceErase ∧ bytes = 0xDE#8 :: 0xAD#8 :: 0xA5#8 :: tail := by
  unfold decodeKey at h
  split at h
  · split_ifs at h with hk
    cases h
    obtain ⟨rfl, rfl, rfl⟩ := hk
    exact ⟨rfl, rfl⟩
  · cases h

theorem decodeBlockHeader_sound {mk : Word16 → Nat → Instr} (h : decodeBlockHeader mk bytes = .ok (i, tail)) :
    ∃ a n, i = mk a n ∧ bytes = addrHi a :: addrLo a :: subBlockByte n :: tail := by
  unfold decodeBlockHeader at h
  split at h
  next hi lo len rest =>
    cases h
    exact ⟨hi ++ lo, subBlockOfByte len, rfl, by rw [addrHi_append, addrLo_append, subBlockByte_subBlockOfByte]⟩
  next => cases h

theorem decodePage_sound (h : decodePage bytes = .ok (i, tail)) : ∃ p, i = .piPageErase p ∧ bytes = p :: 0x00#8 :: tail := by
  unfold decodePage at h
  split at h
  · split_ifs at h with ht
    cases h
    subst ht
    exact ⟨_, rfl, rfl⟩
  · cases h

theorem decodeDirectRead_sound (h : decodeDirectRead bytes = .ok (i, tail)) :
    ∃ r, i = .piDirectRead r ∧ bytes = r :: 0x01#8 :: tail := by
  unfold decodeDirectRead at h
  split at h
  · split_ifs at h with hl
    cases h
    subst hl
    exact ⟨_, rfl, rfl⟩
  · cases h

theorem decodeDirectWrite_sound (h : decodeDirectWrite bytes = .ok (i, tail)) :
    ∃ r v, i = .piDirectWrite r v ∧ bytes = r :: 0x01#8 :: v :: tail := by
  unfold decodeDirectWrite at h
  split at h
  · split_ifs at h with hl
    cases h
    subst hl
    exact ⟨_, _, rfl, rfl⟩
  · cases h

/-- By the command byte that was recognised, and the decoder of its operands. -/
theorem decodePi_sound {c : Config.PiCodes} (h : decodePi c bytes = .ok (i, tail)) :
    i.space = .pi ∧ encodeWith c i ++ tail = bytes := by
  unfold decodePi at h
  split at h
  · cases h
  next b rest =>
    split_ifs at h with hb hb hb hb hb hb hb hb <;> subst hb
    · cases h; exact ⟨rfl, rfl⟩
    · cases h; exact ⟨rfl, rfl⟩
    · obtain ⟨rfl, rfl⟩ := decodeKey_sound h; exact ⟨rfl, rfl⟩
    · obtain ⟨a, n, rfl, rfl⟩ := decodeBlockHeader_sound h; exact ⟨rfl, rfl⟩
    · obtain ⟨a, n, rfl, rfl⟩ := decodeBlockHeader_sound h; exact ⟨rfl, rfl⟩
    · obtain ⟨p, rfl, rfl⟩ := decodePage_sound h; exact ⟨rfl, rfl⟩
    · obtain ⟨r, rfl, rfl⟩ := decodeDirectRead_sound h; exact ⟨rfl, rfl⟩
    · obtain ⟨r, v, rfl, rfl⟩ := decodeDirectWrite_sound h; exact ⟨rfl, rfl⟩

end

theorem decodeBlockHeader_bytes (mk : Word16 → Nat → Instr) (a : Word16) {n : Nat} (h : subBlockSizeOk n = true)
    (tail : List Byte) :
    decodeBlockHeader mk (addrHi a :: addrLo a :: subBlockByte n :: tail) = .ok (mk a n, tail) := by
  rw [decodeBlockHeader, subBlockOfByte_subBlockByte h, addrHi_append_addrLo]

/-- Distinct command bytes: none is taken for one that is tried before it. -/
theorem decodePi_encodeWith {c : Config.PiCodes} (hd : c.Distinct) {i : Instr} (hs : i.space = .pi)
    (hw : i.wellFormed = true) (tail : List Byte) : decodePi c (encodeWith c i ++ tail) = .ok (i, tail) := by
  have hne := List.nodup_reverse.mpr hd
  simp only [List.reverse_cons, List.reverse_nil, List.nil_append, List.cons_append, List.nodup_cons, List.mem_cons,
    List.not_mem_nil, or_false, not_or] at hne
  obtain ⟨hdw, hdr, hpe, hbw, hbr, hde, -⟩ := hne
  cases i <;> simp only [Instr.space, reduceCtorEq] at hs
  case piGetVersion | piGetDerivative => rfl
  case piDeviceErase => simp [encodeWith, decodePi, hde, decodeKey, Config.eraseKey0, Config.eraseKey1, Config.eraseKey2]
  case piBlockRead a n => simp [encodeWith, decodePi, hbr, decodeBlockHeader_bytes _ a hw]
  case piBlockWrite a n => simp [encodeWith, decodePi, hbw, decodeBlockHeader_bytes _ a hw]
  case piPageErase p => simp [encodeWith, decodePi, hpe, decodePage, Config.eraseTerm]
  case piDirectRead r => simp [encodeWith, decodePi, hdr, decodeDirectRead, Config.directLen]
  case piDirectWrite r v => simp [encodeWith, decodePi, hdw, decodeDirectWrite, Config.directLen]

/-! ## The whole decoder -/

/-- Settles O1, by the code space. -/
theorem encodeThenDecodeGivesTheInstruction : Obligations.EncodeThenDecodeGivesTheInstruction := by
  intro c i rest hd hw
  cases hs : i.space with
  | frame => exact decodeFrameBytes_encodeWith c hs rest
  | pi => exact decodePi_encodeWith hd hs hw rest
  | resp => exact oneByte_encodeWith c (decodeResp_complete c hs) rest
  | fpctl => exact oneByte_encodeWith c (decodeFpctl_complete c hs) rest
  | arStatus => exact oneByte_encodeWith c (decodeMask_complete c hs) rest
  | host => exact oneByte_encodeWith c (decodeHost_complete c hs) rest

theorem decodeWith_sound {c : Config.PiCodes} {sp : Space} {bytes tail : List Byte} {i : Instr}
    (h : decodeWith c sp bytes = .ok (i, tail)) : i.space = sp ∧ encodeWith c i ++ tail = bytes := by
  cases sp with
  | frame => exact decodeFrameBytes_sound h
  | pi => exact decodePi_sound h
  | resp => exact oneByte_sound c (decodeResp_sound c) h
  | fpctl => exact oneByte_sound c (decodeFpctl_sound c) h
  | arStatus => exact oneByte_sound c (decodeMask_sound c) h
  | host => exact oneByte_sound c (decodeHost_sound c) h

/-- Settles O2: only a PI command can be ill-formed (`wellFormed_of_space`), and the PI decoder answers none that is. -/
theorem decodeThenEncodeGivesTheBytes : Obligations.DecodeThenEncodeGivesTheBytes := by
  intro c sp bytes rest i h
  obtain ⟨rfl, he⟩ := decodeWith_sound h
  refine ⟨rfl, ?_, he⟩
  by_cases hs : i.space = .pi
  · rw [hs] at h
    exact decodePi_wellFormed h
  · exact wellFormed_of_space hs

/-- No row of another opcode is found (R111). -/
theorem decodeHost_illegal {op : Byte} (h : op ∉ hostOpcodes.map (·.1)) : decodeHost op = .error .illegalOpcode := by
  have hnone : hostOpcodes.find? (fun row => row.1 = op) = none := List.find?_eq_none.mpr fun row hrow => by
    have hne : row.1 ≠ op := fun he => h (he ▸ List.mem_map_of_mem hrow)
    simpa using hne
  rw [decodeHost, hnone]

/-- Settles O5: the rows by evaluation, and no row of another opcode is found. -/
theorem hostOpcodesAreTheTable : Obligations.HostOpcodesAreTheTable :=
  ⟨by decide, fun _ => decodeHost_illegal⟩

/-- Settles O6, by evaluation. -/
theorem wordsOfTheSpecDecode : Obligations.WordsOfTheSpecDecode :=
  ⟨by decide, by decide, by decide, by decide, rfl, by decide, rfl, rfl, rfl, rfl⟩

end Sys2Proof
end

section
/-! PROOFS about the encodings, second part: bits and slots on the wire. What each reader of the slot decoder does with the
slots it is made for, and which slots a receiver sees in the events of each frame. -/

namespace Sys2Proof

open Machine

/-! ## Bit order (R100, R101) -/

theorem repeat_shiftRight (k : Nat) (v : Byte) : Nat.repeat shiftRight k v = v >>> k := by
  induction k with
  | zero => simp [Nat.repeat]
  | succ k ih => rw [Nat.repeat, ih, shiftRight, BitVec.shiftRight_add]

/-- Settles O7: outbound by the bits of a shifted byte, inbound by `shiftInto_eight`. -/
theorem bytesTravelBitZeroFirst : Obligations.BytesTravelBitZeroFirst := by
  refine ⟨fun v => rfl, fun v k _ => by simp [repeat_shiftRight], by decide, fun start bits h => ?_⟩
  match bits, h with
  | [b0, b1, b2, b3, b4, b5, b6, b7], _ => simp only [List.foldl, shiftInto_eight, serialise_assemble]

/-! ## The slots of a frame, read by counting strobes (R93 to R99) -/

theorem takeDriven_serialise (v : Byte) (rest : List Slot) :
    takeDriven ((serialise v).map .driven ++ rest) = .ok (v, rest) := by
  simp only [serialise, List.map, List.cons_append, List.nil_append, takeDriven, assemble_bits]

theorem takeSampled_serialise (v : Byte) (rest : List Slot) :
    takeSampled ((serialise v).map .sampled ++ rest) = .ok (v, rest) := by
  simp only [serialise, List.map, List.cons_append, List.nil_append, takeSampled, assemble_bits]

/-- A WAIT field that succeeds within the budget. -/
theorem takeWait_waitSlots {tries left : Nat} (n : Nat) (h1 : 1 ≤ tries) (h2 : tries ≤ left) (rest : List Slot) :
    takeWait n left (waitSlots tries ++ rest) = .ok (n + tries, rest) := by
  obtain ⟨m, rfl⟩ : ∃ m, tries = m + 1 := ⟨tries - 1, by omega⟩
  induction m generalizing n left with
  | zero =>
    obtain ⟨l, rfl⟩ : ∃ l, left = l + 1 := ⟨left - 1, by omega⟩
    rfl
  | succ m ih =>
    obtain ⟨l, rfl⟩ : ∃ l, left = l + 1 := ⟨left - 1, by omega⟩
    have := ih (n + 1) (left := l) (by omega) (by omega)
    rwa [show n + 1 + (m + 1) = n + (m + 1 + 1) by omega] at this

/-- A WAIT field that shows 0 in every slot of the budget. -/
theorem takeWait_exhausted (n left : Nat) (rest : List Slot) :
    takeWait n left (List.replicate left (.sampled false) ++ rest) = .error .waitExhausted := by
  induction left generalizing n with
  | zero => rfl
  | succ left ih => exact ih (n + 1)

/-- Settles O3, field by field. -/
theorem countingStrobesRecoversEachFrame : Obligations.CountingStrobesRecoversEachFrame := by
  intro f rest h
  cases f with
  | writeAr a =>
    simp [WireFrame.slots, decodeSlots, takeDriven_serialise, takeStop]
  | readAr r =>
    simp [WireFrame.slots, decodeSlots, takeSampled_serialise, takeStop]
  | writeDr d n =>
    obtain ⟨h1, h2⟩ : 1 ≤ n ∧ n ≤ Config.waitTriesWr := by simpa [WireFrame.inBudget] using h
    simp [WireFrame.slots, decodeSlots, takeDriven_serialise, takeWait_waitSlots 0 h1 h2, takeStop]
  | readDr r n =>
    obtain ⟨h1, h2⟩ : 1 ≤ n ∧ n ≤ Config.waitTriesRd := by simpa [WireFrame.inBudget] using h
    simp [WireFrame.slots, decodeSlots, takeSampled_serialise, takeWait_waitSlots 0 h1 h2, takeStop]

theorem decodeFrameWord_reservedLength {w : Word16} (h1 : w.getLsbD 1 = false) (h2 : w.extractLsb' 2 2 ≠ length1Byte) :
    decodeFrameWord w = .error .reservedLength := by
  have hins : (w.extractLsb' 0 2).getLsbD 1 = false := by simpa using h1
  have hne : ∀ {x y : BitVec 2}, x.getLsbD 1 = false → y.getLsbD 1 = true → x ≠ y := by
    rintro x _ hx hy rfl
    rw [hx] at hy
    cases hy
  simp only [decodeFrameWord, if_neg (hne hins (y := insWriteAr) rfl), if_neg (hne hins (y := insReadAr) rfl), if_pos h2]

theorem decodeSlots_writeDr_exhausted (d : Byte) (rest : List Slot) :
    decodeSlots (([.idle, .driven true, .driven false, .driven false, .driven false] : List Slot) ++
      (serialise d).map .driven ++ List.replicate Config.waitTriesWr (Slot.sampled false) ++ rest) = .error .waitExhausted := by
  simp [decodeSlots, takeDriven_serialise, takeWait_exhausted]

theorem decodeSlots_readDr_exhausted (rest : List Slot) :
    decodeSlots (([.idle, .driven false, .driven false, .driven false, .driven false] : List Slot) ++
      List.replicate Config.waitTriesRd (Slot.sampled false) ++ rest) = .error .waitExhausted := by
  simp [decodeSlots, takeWait_exhausted]

/-- Settles O4: LENGTH is tested before any payload, and the WAIT budgets are 20 and 50. -/
theorem reservedLengthAndEndlessWaitAreRefused : Obligations.ReservedLengthAndEndlessWaitAreRefused := by
  refine ⟨fun _ => decodeFrameWord_reservedLength, fun ins l0 l1 rest hl => ?_, decodeSlots_writeDr_exhausted,
    decodeSlots_readDr_exhausted⟩
  cases ins <;> exact if_pos hl

end Sys2Proof

namespace Sys2Proof.Machine

/-! ## What a receiver sees in a trace (R91) -/

@[simp] theorem isDelay_ck (b : Bit) : (Event.ck b).isDelay = false := rfl
@[simp] theorem isDelay_d (b : Bit) : (Event.d b).isDelay = false := rfl
@[simp] theorem isDelay_dz : Event.dz.isDelay = false := rfl
@[simp] theorem isDelay_s (b : Bit) : (Event.s b).isDelay = false := rfl
@[simp] theorem isDelay_t (n : Nat) : (Event.t n).isDelay = true := rfl

/-- The slots in a trace that begins with the data line as given, its delays skipped. -/
def seenFrom (dr : Option Bit) (es : List Event) : List Slot := slotsFrom dr (es.filter fun e => !e.isDelay)

theorem slotsOf_eq_seenFrom (es : List Event) : slotsOf es = seenFrom none es := rfl

/-- The first event that is no delay is not a sample, so a strobe before it is no sampled slot. -/
def NoSampleFirst (es : List Event) : Prop := ∀ b, (es.filter fun e => !e.isDelay).head? ≠ some (.s b)

section
variable (dr : Option Bit) (b : Bit) (es : List Event)

@[simp] theorem noSampleFirst_nil : NoSampleFirst [] := by simp [NoSampleFirst]
@[simp] theorem noSampleFirst_strobe : NoSampleFirst (strobeEvents ++ es) := by
  simp [NoSampleFirst, strobeEvents]
@[simp] theorem noSampleFirst_sendBit : NoSampleFirst (sendBitEvents b ++ es) := by
  simp [NoSampleFirst, sendBitEvents]
@[simp] theorem noSampleFirst_recvBit : NoSampleFirst (recvBitEvents b ++ es) := by
  simp [NoSampleFirst, recvBitEvents, strobeEvents]
@[simp] theorem noSampleFirst_release : NoSampleFirst (releaseEvents ++ es) := by
  simp [NoSampleFirst, releaseEvents]
@[simp] theorem noSampleFirst_gap (n : Nat) : NoSampleFirst (.t n :: es) ↔ NoSampleFirst es := by
  simp [NoSampleFirst]

@[simp] theorem seenFrom_gap (n : Nat) : seenFrom dr (.t n :: es) = seenFrom dr es := by
  simp [seenFrom]

/-- The slot of a rising edge that no sample follows, by what the data line is driven to. -/
def unsampledSlot : Option Bit → Slot
  | some b => .driven b
  | none => .idle

theorem slotsFrom_edge {es : List Event} (h : ∀ b, es.head? ≠ some (.s b)) :
    slotsFrom dr (.ck true :: es) = unsampledSlot dr :: slotsFrom dr es := by
  cases dr <;> match es, h with
  | [], _ => rfl
  | .s b :: _, h => exact absurd rfl (h b)
  | .ck _ :: _, _ | .d _ :: _, _ | .dz :: _, _ | .t _ :: _, _ => rfl

variable {es}

@[simp] theorem seenFrom_strobe (h : NoSampleFirst es) : seenFrom none (strobeEvents ++ es) = .idle :: seenFrom none es := by
  simpa [seenFrom, strobeEvents, slotsFrom, unsampledSlot] using slotsFrom_edge none h

@[simp] theorem seenFrom_sendBit (h : NoSampleFirst es) :
    seenFrom dr (sendBitEvents b ++ es) = .driven b :: seenFrom (some b) es := by
  simpa [seenFrom, sendBitEvents, strobeEvents, slotsFrom, unsampledSlot] using slotsFrom_edge (some b) h

@[simp] theorem seenFrom_recvBit : seenFrom dr (recvBitEvents b ++ es) = .sampled b :: seenFrom dr es := by
  simp [seenFrom, recvBitEvents, strobeEvents, slotsFrom]

@[simp] theorem seenFrom_release : seenFrom dr (releaseEvents ++ es) = seenFrom none es := by
  simp [seenFrom, releaseEvents, slotsFrom]

/-! ## Fields -/

@[simp] theorem noSampleFirst_sendByte (v : Byte) : NoSampleFirst (sendByteEvents v ++ es) := by
  simp [sendByteEvents, serialise]

@[simp] theorem seenFrom_sendByte (v : Byte) (h : NoSampleFirst es) :
    seenFrom dr (sendByteEvents v ++ es) = (serialise v).map .driven ++ seenFrom (some (v.getLsbD 7)) es := by
  simp [sendByteEvents, serialise, h]

@[simp] theorem seenFrom_recvByte (v : Byte) :
    seenFrom dr (recvByteEvents v ++ es) = (serialise v).map .sampled ++ seenFrom dr es := by
  simp [recvByteEvents, serialise]

@[simp] theorem seenFrom_waitRetry (n : Nat) :
    seenFrom dr (waitRetryEvents n ++ es) = List.replicate n (.sampled false) ++ seenFrom dr es := by
  induction n with
  | zero => rfl
  | succ n ih => simp [waitRetryEvents_succ, List.replicate_succ, ih]

end

/-! ## Frames (R93 to R96) -/

/-- Every frame begins with the strobe of its START slot. -/
theorem noSampleFirst_eventsOf (xs : List Xact) : NoSampleFirst (eventsOf xs) := by
  induction xs with
  | nil => exact noSampleFirst_nil
  | cons x xs ih =>
    rw [eventsOf, List.flatMap_cons]
    cases x with
    | gap n => simpa [Xact.events, eventsOf] using ih
    | _ => simp [Xact.events, writeArEvents, readArEvents, writeDrEvents, readDrEvents, writeDrHead, readDrHead]

section
variable {es : List Event} (h : NoSampleFirst es)
include h

theorem seen_writeAr (a : Byte) :
    seenFrom none (writeArEvents a ++ es) = (WireFrame.writeAr a).slots ++ seenFrom none es := by
  simp [writeArEvents, WireFrame.slots, h]

theorem seen_readAr (r : Byte) :
    seenFrom none (readArEvents r ++ es) = (WireFrame.readAr r).slots ++ seenFrom none es := by
  simp [readArEvents, WireFrame.slots, h]

theorem seen_writeDr (d : Byte) (n : Nat) :
    seenFrom none (writeDrEvents d n ++ es) = (WireFrame.writeDr d n).slots ++ seenFrom none es := by
  simp [writeDrEvents, writeDrHead, WireFrame.slots, waitSlots, h]

theorem seen_readDr (r : Byte) (n : Nat) :
    seenFrom none (readDrEvents r n ++ es) = (WireFrame.readDr r n).slots ++ seenFrom none es := by
  simp [readDrEvents, readDrHead, WireFrame.slots, waitSlots, h]

end

/-- Settles O8: the slots of a frame, field by field, and what follows it does not begin with a sample. -/
theorem frameTracesShowTheirSlots : Obligations.FrameTracesShowTheirSlots := by
  intro a r d n m rest _ _
  have h := noSampleFirst_eventsOf rest
  simp only [slotsOf_eq_seenFrom]
  exact ⟨seen_writeAr h a, seen_readAr h r, seen_writeDr h d n, seen_readDr h r m⟩

end Sys2Proof.Machine
end

section
/-! PROOFS about the encodings, third part: the rows of the lower layers, each called by itself (log 9), and the
pseudo-operations (R114). Every row is a call of a procedure whose frames the laws give (`Does`, `Goes`) or whose failure they
give (`Fails`, `DoesFail`). -/

namespace Sys2Proof.Machine

/-! ## Frames and FPCTL bytes (R93 to R96, R107) -/

/-- Settles O17: each row is its frame; the target has no say in a Write AR, and any eight samples answer a Read AR. -/
theorem arFrameRowsRun : Obligations.ArFrameRowsRun := fun s a ⟨hi, _, hb⟩ =>
  ⟨⟨_, rfl, (layer_does hi hb (xs := [.wa a]) rfl (does_writeAr a)).1⟩,
    _, rfl, layer_does hi hb (answers_ra s) (does_readAr _)⟩

/-- A Write DR frame called as a layer: done at any try of the budget, timed out after it. -/
theorem layer_writeDr {s : State} (hr : Ready s) (d : Byte) :
    (∀ n, n < 20 → (∀ k < n, s.line k = false) → s.line n = true →
      LayerDone s (layerCall (writeDr d) false s) [.wd d (n + 1)]) ∧
    ((∀ k < 20, s.line k = false) →
      FailedWith s (layerCall (writeDr d) false s) .busTimeout false ∧
        OnWireEvents s (layerCall (writeDr d) false s) (writeDrTimeoutEvents d) 20) := by
  obtain ⟨hi, -, hb⟩ := hr
  refine ⟨fun n hn h0 h1 => ?_, fun h => ?_⟩
  · exact (layer_does hi hb (answers_wd d h0 h1) (does_writeDr d (Nat.le_add_left ..) hn)).1
  · obtain ⟨t, ht⟩ := fails_writeDr d h
    exact (layer_fails hb ht).symm

/-- Settles O18: four of the five rows are the Write DR frame of their byte. -/
theorem drFrameRowsRun : Obligations.DrFrameRowsRun := by
  intro s hr
  have ⟨hi, _, hb⟩ := hr
  refine ⟨fun i d hmem => ?_, fun n hn h0 h1 => ?_, fun h => ?_⟩
  · have hx : exec i s = .next (layerCall (writeDr d) false s) := by
      simp only [List.mem_cons, Prod.mk.injEq, List.not_mem_nil, or_false] at hmem
      obtain ⟨rfl, -⟩ | ⟨rfl, rfl⟩ | ⟨rfl, rfl⟩ | ⟨rfl, rfl⟩ := hmem <;> rfl
    obtain ⟨hdone, hfail⟩ := layer_writeDr hr d
    exact ⟨fun n hn h0 h1 => ⟨_, hx, hdone n hn h0 h1⟩, fun h => ⟨_, hx, hfail h⟩⟩
  · exact ⟨_, rfl, layer_does hi hb (answers_rd h0 h1) (does_readDr _ (Nat.le_add_left ..) hn)⟩
  · obtain ⟨t, ht⟩ := fails_readDr h
    exact ⟨_, rfl, (layer_fails hb ht).symm⟩

/-! ## PI commands (R103, R104) -/

/-- Settles O23: each row is the bytes of its command, which the laws of the PI protocol run. -/
theorem piCommandRowsRun : Obligations.PiCommandRowsRun := fun _ ⟨hi, _, hb⟩ =>
  ⟨fun _ h ha => ⟨_, rfl, layer_does hi hb ha (does_piQuery h _)⟩,
    fun _ h ha => ⟨_, rfl, layer_does hi hb ha (does_piQuery h _)⟩,
    fun _ h ha => ⟨_, rfl, (layer_does hi hb ha (does_deviceEraseBytes h)).1⟩,
    fun _ page h ha => ⟨_, rfl, (layer_does hi hb ha (does_pageEraseBytes h page)).1⟩,
    fun _ reg h ha => ⟨_, rfl, layer_does hi hb ha (does_directReadBytes h reg)⟩,
    fun _ reg v h ha => ⟨_, rfl, (layer_does hi hb ha (does_directWriteBytes h reg v)).1⟩⟩

theorem ReadAnswer.length_of_ok {n sub : Nat} {a : ReadAnswer} (h : a.ok n sub = true) : a.data.length = sub := by
  simp only [ReadAnswer.ok, Bool.and_eq_true, decide_eq_true_eq] at h
  obtain ⟨⟨-, hlen⟩, -⟩ := h
  exact hlen

/-- A layer call whose procedure returns. -/
theorem layer_goes {α : Type} {p : Prog α} {d : Bool} {s t : State} {v : α} {xs : List Xact} (hb : s.busy = false)
    (h : Goes p s v xs t) : layerCall p d s = t ∧ OnWire s t xs ∧ SamePort s t :=
  ⟨layerCall_ok hb h.1, h.2, run_samePort_of h.1⟩

/-- Settles O24: one pass of the loop of a block read or write, from index 0 of BUF on. -/
theorem piBlockRowsRun : Obligations.PiBlockRowsRun := by
  intro s addr n ⟨hi, _, hb⟩ _ _
  refine ⟨fun a h ha => ?_, fun a h ha => ?_⟩
  · obtain ⟨t, ht, -, hbuf, hscratch⟩ := goes_readSubBlock .buf h addr.toNat 0 hi ha
    obtain ⟨hx, hw, hport⟩ := layer_goes (d := true) hb ht
    have hlen := ReadAnswer.length_of_ok h
    refine ⟨t, congrArg _ hx, hw, hport, fun i => by rw [hscratch], fun i => ?_⟩
    rw [hbuf, Memory.read_writeList]
    simp [hlen]
  · obtain ⟨t, ht, hbuf, hscratch, -⟩ := goes_writeSubBlock .buf h addr.toNat 0 hi ha
    obtain ⟨hx, hw, hport⟩ := layer_goes (d := false) hb ht
    exact ⟨t, congrArg _ hx, hw, hport, fun i => by rw [hbuf], fun i => by rw [hscratch]⟩

/-! ## Responses and masks (R105, R106) -/

/-- The masks as bits of the byte Read AR returns. -/
theorem arReady_eq (r : Byte) : arReady r = r.getLsbD 0 := by
  revert r; decide

theorem arBusy_eq (r : Byte) : arBusy r = r.getLsbD 1 := by
  revert r; decide

theorem all_arBusy {rs : List Byte} (h : ∀ r ∈ rs, r.getLsbD 1 = true) : rs.all arBusy = true := by
  simpa [arBusy_eq] using h

theorem all_not_arReady {rs : List Byte} (h : ∀ r ∈ rs, r.getLsbD 0 = false) : rs.all (fun r => !arReady r) = true := by
  simpa [arReady_eq] using h

/-- A response other than 0x0D, called as a layer. -/
theorem layer_rejected {s : State} (hr : Ready s) {r : Byte} (h : r ≠ Config.piRespOk) :
    FailedWith s (layerCall (checkResponse r) false s) .protocolRejected false ∧
      OnWire s (layerCall (checkResponse r) false s) [] := by
  refine layer_doesFail hr rfl ?_
  rw [checkResponse, if_neg h]
  exact doesFail_raise _

/-- Settles O25: the responses touch no line, and each mask is a poll of Read AR. -/
theorem responseAndMaskRowsRun : Obligations.ResponseAndMaskRowsRun := by
  intro s hr
  have ⟨hi, _, hb⟩ := hr
  refine ⟨congrArg _ (layerCall_ok hb rfl), fun i hmem => ?_, fun g h ha => ?_, fun polls hl hp ha => ?_,
    fun busy free hl hp hf ha => ?_, fun busy hl hp ha => ?_⟩
  · simp only [List.mem_cons, List.not_mem_nil, or_false] at hmem
    obtain rfl | rfl := hmem
    · exact ⟨_, rfl, layer_rejected hr (by decide)⟩
    · exact ⟨_, rfl, layer_rejected hr (by decide)⟩
  · exact ⟨_, rfl, (layer_does hi hb ha (does_readyPoll h)).1⟩
  · exact ⟨_, rfl, layer_doesFail hr ha (doesFail_arPoll (by decide) arReady hl (all_not_arReady hp))⟩
  · exact ⟨_, rfl, (layer_does hi hb ha (does_busyPoll hl (all_arBusy hp) (arBusy_eq free ▸ hf))).1⟩
  · have hpoll : DoesFail busyPoll .busTimeout (exhaustedXacts 1 busy) :=
      doesFail_arPoll (by decide) (fun r => !arBusy r) hl (by simpa using all_arBusy hp)
    exact ⟨_, rfl, layer_doesFail hr ha hpoll⟩

/-! ## Pseudo-operations (R114) -/

/-- The registers whose write has no side effect (R28). -/
def HReg.plain (r : HReg) : Bool := r.writable && r ≠ .cmd

theorem writeReg_atPort (s : State) (r : HReg) (v : Word32) (ps : List PortMove) :
    (s.writeReg r v).atPort ps = (s.atPort ps).writeReg r v := by
  cases r <;> rfl

theorem step_write {s : State} (hb : s.busy = false) {r : HReg} (h : r.plain = true) {v : Word32} {rest : List PortMove}
    (hp : s.port = .write r v :: rest) : step s = .next ((s.writeReg r v).atPort rest) := by
  obtain ⟨hw, hc⟩ : r.writable = true ∧ r ≠ .cmd := by simpa [HReg.plain] using h
  rw [writeReg_atPort]
  simp only [step, hp]
  exact hostWrite_idle (s := s.atPort rest) hb v hw hc

/-- Writes of plain registers while idle, one step each. -/
theorem stepN_writes {s : State} (hb : s.busy = false) (ws : List (HReg × Word32)) (h : ∀ w ∈ ws, w.1.plain = true)
    {rest : List PortMove} (hp : s.port = ws.map (fun w => .write w.1 w.2) ++ rest) :
    stepN ws.length s = .next (ws.foldl (fun t w => t.writeReg w.1 w.2) (s.atPort rest)) := by
  induction ws generalizing s with
  | nil =>
    obtain rfl : s.port = rest := hp
    rfl
  | cons w ws ih =>
    rw [List.length_cons, stepN_succ (step_write hb (h w (by simp)) hp), List.foldl_cons, ← writeReg_atPort]
    exact ih ((busy_writeReg _ _).trans hb) (fun w' hw' => h w' (by simp [hw'])) rfl

/-- FAMILY_CTL as `set_family` writes it. -/
theorem ctlWritten_setFamily (erratum : Bit) :
    let ctl := ctlWritten ((if erratum then 3#32 else 1#32).setWidth 8)
    ctlFamilyValid ctl = true ∧ ctlErratumF5 ctl = erratum := by
  revert erratum; decide

/-- Settles O46, write by write. -/
theorem configurationMovesAreRegisterWrites : Obligations.ConfigurationMovesAreRegisterWrites := by
  intro s n size fpdat erratum rest ⟨_, _, hb⟩
  refine ⟨stepN_writes hb [(.pollOut, n)] (by simp [HReg.plain, HReg.writable]), fun hp => ?_⟩
  have hrun := stepN_writes hb [(.fpdatAddr, fpdat.setWidth 32), (.pageSize, size),
    (.familyCtl, if erratum then 3#32 else 1#32)] (by simp [HReg.plain, HReg.writable]) hp
  exact ⟨_, hrun, by simp [State.writeReg, State.atPort], ctlWritten_setFamily erratum⟩

/-- One step took a command off the port, which succeeded with the frames `xs` on the wire; `rest` is still to come. -/
structure MoveDone (s t : State) (xs : List Xact) (rest : List PortMove) : Prop where
  step : step s = .next t
  ready : Ready t
  wire : OnWire s t xs
  port : t.port = rest
  ended : EndedWith t 0#3 (statusInfoValid s.status) (statusPiInfoValid s.status)

/-- A command of a ready core against a target that answers as it needs. -/
theorem moveDone_run {s : State} {op : Byte} {o : Operation} {v : Results} {xs : List Xact} {Q : State → Prop}
    {rest : List PortMove} (hr : Ready s) (hp : s.port = .run op :: rest) (ho : operationOf op = some o)
    (hadm : o.admission ((s.atPort rest).start op) = none) (ha : Answers s xs)
    (hd : Does (o.prog ((s.atPort rest).start op)) v xs Q) (hdev : v.device = none) (hpi : v.pi = none) :
    ∃ t, MoveDone s t xs rest ∧ ∀ b, v.res0 = some b → t.res0 = b := by
  obtain ⟨hi, -, hb⟩ := hr
  obtain ⟨i, hdec, hop⟩ := decode_of_operation ho
  obtain ⟨o', hop', -, hexec⟩ := exec_host hdec
  obtain rfl : o = o' := Option.some.inj (hop.symm.trans hop')
  obtain ⟨⟨hw, ⟨hend, ⟨-, -, -, hport, -⟩, -⟩, -⟩, hres⟩ :=
    command_does (s := s.atPort rest) hi hb hadm ha hd hdev hpi
  refine ⟨_, ⟨?_, ⟨hw.idle, hend.1, hend.2.1⟩, hw, hport, hend⟩, hres⟩
  simp only [step, hp, takeMove, hdec]
  exact hexec (s.atPort rest)

theorem moveDone_writeAr {s : State} (hr : Ready s) {rest : List PortMove} (hp : s.port = .run 0x10#8 :: rest) :
    ∃ t, MoveDone s t [.wa s.byte0] rest := by
  obtain ⟨t, ht, -⟩ := moveDone_run (o := opWriteAr) (v := {}) hr hp rfl (admit_free rfl (fun _ => rfl) _)
    (xs := [.wa s.byte0]) rfl (does_writeAr s.byte0).andThenRet rfl rfl
  exact ⟨t, ht⟩

theorem moveDone_readDr {s : State} (hr : Ready s) {rest : List PortMove} (hp : s.port = .run 0x13#8 :: rest) {id : Byte}
    {n : Nat} (h1 : 1 ≤ n) (h2 : n ≤ 50) (ha : Answers s [.rd id n]) :
    ∃ t, MoveDone s t [.rd id n] rest ∧ t.res0 = id := by
  have hd := (does_readDr id h1 h2).bindRet (f := fun r => ({ res0 := some r } : Results))
  obtain ⟨t, ht, hres⟩ := moveDone_run (o := opReadDr) hr hp rfl (admit_free rfl (fun _ => rfl) _) ha hd rfl rfl
  exact ⟨t, ht, hres id rfl⟩

theorem step_read {s : State} (hb : s.busy = false) {q : HReg} (hq : q.readable = true) {rest : List PortMove}
    (hp : s.port = .read q :: rest) : step s = .next ((s.atPort rest).answerHost (s.readReg q)) := by
  have hread : (s.atPort rest).readReg q = s.readReg q := by cases q <;> rfl
  simp only [step, hp, ← hread]
  exact hostRead_idle (s := s.atPort rest) hb hq

/-- `MemRead(C2REG, a, 1)` as four moves of the host (20_memory.md R66). -/
theorem stepN_memReadC2 {s : State} (hr : Ready s) (a id : Byte) {n : Nat} (h1 : 1 ≤ n) (h2 : n ≤ 50)
    {rest : List PortMove}
    (hp : s.port = .write .byte0 (a.setWidth 32) :: .run 0x10#8 :: .run 0x13#8 :: .read .res0 :: rest)
    (ha : Answers s [.wa a, .rd id n]) :
    ∃ t, stepN 4 s = .next t ∧ OnWire s t [.wa a, .rd id n] ∧ t.hostData = id.setWidth 32 ∧ t.port = rest ∧
      EndedWith t 0#3 (statusInfoValid s.status) (statusPiInfoValid s.status) := by
  have hs := step_write hr.2.2 (by rfl) hp
  set t := (s.writeReg .byte0 (a.setWidth 32)).atPort (.run 0x10#8 :: .run 0x13#8 :: .read .res0 :: rest)
  have hbyte : t.byte0 = a := by simp [t, State.writeReg, State.atPort]
  obtain ⟨u, hu⟩ := moveDone_writeAr (s := t) hr rfl
  rw [hbyte] at hu
  obtain ⟨w, hw, hres⟩ := moveDone_readDr hu.ready hu.port h1 h2 (Answers.right (s := t) (xs := [.wa a]) ha hu.wire)
  have hx := step_read hw.ready.2.2 (by rfl) hw.port
  rw [stepN_succ hs, stepN_succ hu.step, stepN_succ hw.step, stepN_succ hx]
  refine ⟨_, rfl, hu.wire.trans hw.wire, congrArg (BitVec.setWidth 32) hres, rfl, ?_⟩
  obtain ⟨-, -, -, -, hinfo, hpiInfo, -⟩ := hu.ended
  have hend := hw.ended
  rw [hinfo, hpiInfo] at hend
  exact hend

/-- Settles O47: both are `MemRead(C2REG, a, 1)`, of register 0 and of register 1. -/
theorem identityMovesReadTheRegisters : Obligations.IdentityMovesReadTheRegisters := by
  rintro s id n rest a hr h1 h2 (⟨hp, rfl⟩ | ⟨hp, rfl⟩) ha
  · exact stepN_memReadC2 hr _ id h1 h2 hp ha
  · exact stepN_memReadC2 hr _ id h1 h2 hp ha

end Sys2Proof.Machine
end

section
/-! PROOFS about the bit transport (40_bit_transport.md): what a frame amounts to in any measure that adds up over its trace,
its minimum duration (R140), its one change of direction (R138), and that no primitive step samples a driven line (R132). -/

namespace Sys2Proof.Machine

/-! ## What a frame amounts to -/

/-- `f` adds up over a trace and is the same for every bit: `k` a strobe, `d` a driven slot, `r` a release, `s` a sampled slot,
`g` a gap of a WAIT field. -/
structure FrameMeasure (f : List Event → Nat) (k d r s g : Nat) : Prop where
  append : ∀ xs ys, f (xs ++ ys) = f xs + f ys
  strobe : f strobeEvents = k
  driven : ∀ b, f (sendBitEvents b) = d
  release : f releaseEvents = r
  sampled : ∀ b, f (recvBitEvents b) = s
  gap : f [.t Config.waitGap] = g

namespace FrameMeasure

variable {f : List Event → Nat} {k d r s g : Nat} (h : FrameMeasure f k d r s g)
include h

theorem nil : f [] = 0 := by
  have := h.append [] []
  simp only [List.append_nil] at this
  omega

theorem sendByte (v : Byte) : f (sendByteEvents v) = 8 * d := by
  simp only [sendByteEvents, serialise, List.flatMap_cons, List.flatMap_nil, h.append, h.driven, h.nil]
  omega

theorem recvByte (v : Byte) : f (recvByteEvents v) = 8 * s := by
  simp only [recvByteEvents, serialise, List.flatMap_cons, List.flatMap_nil, h.append, h.sampled, h.nil]
  omega

theorem waitRetry (n : Nat) : f (waitRetryEvents n) = n * (s + g) := by
  induction n with
  | zero => simp [waitRetryEvents, h.nil]
  | succ n ih =>
    rw [waitRetryEvents_succ, h.append, h.append, h.sampled, h.gap, ih]
    ring

/-- A Write AR frame: 12 strobes, 10 of them of driven slots. -/
theorem writeAr (a : Byte) : f (writeArEvents a) = 2 * k + 10 * d + r := by
  simp only [writeArEvents, h.append, h.strobe, h.driven, h.sendByte, h.release]
  omega

theorem readAr (v : Byte) : f (readArEvents v) = 2 * k + 2 * d + r + 8 * s := by
  simp only [readArEvents, h.append, h.strobe, h.driven, h.recvByte, h.release]
  omega

theorem writeDrHead (v : Byte) : f (writeDrHead v) = k + 12 * d + r := by
  simp only [Machine.writeDrHead, h.append, h.strobe, h.driven, h.sendByte, h.release]
  omega

theorem readDrHead : f readDrHead = k + 4 * d + r := by
  simp only [Machine.readDrHead, h.append, h.strobe, h.driven, h.release]
  omega

theorem writeDr (v : Byte) (w : Nat) : f (writeDrEvents v w) = 2 * k + 12 * d + r + s + (w - 1) * (s + g) := by
  simp only [writeDrEvents, h.append, h.writeDrHead, h.waitRetry, h.sampled, h.strobe]
  omega

theorem readDr (v : Byte) (w : Nat) : f (readDrEvents v w) = 2 * k + 4 * d + r + 9 * s + (w - 1) * (s + g) := by
  simp only [readDrEvents, h.append, h.readDrHead, h.waitRetry, h.sampled, h.recvByte, h.strobe]
  omega

/-- The WAIT field of 20 tries, 19 gaps, and nothing after it (R156). -/
theorem writeDrTimeout (v : Byte) : f (writeDrTimeoutEvents v) = k + 12 * d + r + 20 * s + 19 * g := by
  simp only [writeDrTimeoutEvents, h.append, h.writeDrHead, h.waitRetry, h.sampled, Config.waitTriesWr]
  omega

/-- The WAIT field of 50 tries, 49 gaps, and nothing after it (R156). -/
theorem readDrTimeout : f readDrTimeoutEvents = k + 4 * d + r + 50 * s + 49 * g := by
  simp only [readDrTimeoutEvents, h.append, h.readDrHead, h.waitRetry, h.sampled, Config.waitTriesRd]
  omega

end FrameMeasure

/-! ## Minimum durations (R140, R300) -/

theorem minUnits_measure : FrameMeasure minUnits (2 * Config.tSettle) (3 * Config.tSettle) Config.tSettle
    (2 * Config.tSettle) 1 where
  append := by simp [minUnits]
  strobe := by simp [minUnits, strobeEvents, Event.units]; omega
  driven _ := by simp [minUnits, sendBitEvents, strobeEvents, Event.units]; omega
  release := by simp [minUnits, releaseEvents, Event.units]
  sampled _ := by simp [minUnits, recvBitEvents, strobeEvents, Event.units]; omega
  gap := rfl

/-- Settles O10: the duration of a trace adds up, and a frame is so many strobes, driven and sampled slots and gaps. -/
theorem minimumDurations : Obligations.MinimumDurations := by
  have m := minUnits_measure
  refine ⟨Nat.le_add_left .., fun a r d b w hw => ⟨m.driven b, m.sampled b, m.strobe, m.release, ?_⟩⟩
  obtain ⟨n, rfl⟩ := Nat.exists_eq_add_of_le' hw
  rw [m.writeAr, m.readAr, m.writeDr, m.writeDrTimeout, m.readDr, m.readDrTimeout, Nat.add_sub_cancel]
  refine ⟨?_, ?_, ?_, ?_, ?_, ?_⟩ <;> ring

/-! ## One change of direction (R138) -/

theorem releaseCount_measure : FrameMeasure releaseCount 0 0 1 0 0 where
  append := by simp [releaseCount]
  strobe := rfl
  driven := by decide
  release := rfl
  sampled := by decide
  gap := rfl

theorem drivenCount_measure : FrameMeasure drivenCount 0 1 0 0 0 where
  append _ _ := by simp only [drivenCount, List.count_append]; omega
  strobe := rfl
  driven := by decide
  release := rfl
  sampled := by decide
  gap := rfl

theorem sampleCount_measure : FrameMeasure sampleCount 0 0 0 1 0 where
  append _ _ := by simp only [sampleCount, List.count_append]; omega
  strobe := rfl
  driven := by decide
  release := rfl
  sampled := by decide
  gap := rfl

/-- At some release of the line in `es`, no sample stands before it and no driven bit after it. -/
def TurnsAtRelease (es : List Event) : Prop :=
  ∃ before after, es = before ++ .dz :: after ∧ sampleCount before = 0 ∧ drivenCount after = 0

theorem turnsAtRelease_release {before : List Event} (h : sampleCount before = 0) :
    TurnsAtRelease (before ++ releaseEvents) :=
  ⟨before, [.t Config.tSettle], rfl, h, rfl⟩

theorem TurnsAtRelease.append {es after : List Event} (h : TurnsAtRelease es) (ha : drivenCount after = 0) :
    TurnsAtRelease (es ++ after) := by
  obtain ⟨before, rest, rfl, hb, hr⟩ := h
  exact ⟨before, rest ++ after, by simp, hb, by rw [drivenCount_measure.append, hr, ha]⟩

/-- Where the line is released once, that release is the only one to speak of. -/
theorem TurnsAtRelease.split {es pre post : List Event} (h : TurnsAtRelease es) (h1 : releaseCount es = 1)
    (he : es = pre ++ .dz :: post) : sampleCount pre = 0 ∧ drivenCount post = 0 := by
  obtain ⟨before, after, heq, hb, ha⟩ := h
  have hcount : releaseCount pre = 0 ∧ releaseCount post = 0 := by
    rw [he, releaseCount, List.count_append, List.count_cons_self] at h1
    simp only [releaseCount]
    omega
  obtain ⟨hpre, hpost⟩ : Event.dz ∉ pre ∧ Event.dz ∉ post := hcount.imp List.count_eq_zero.mp List.count_eq_zero.mp
  obtain ⟨rfl, -, rfl⟩ := (List.append_cons_inj_of_notMem hpre hpost).mp (heq.symm.trans he).symm
  exact ⟨hb, ha⟩

/-! What stands before the release is evaluated in each frame (`rfl`): whatever bits are driven, no sample is among it. -/

theorem turns_writeAr (a : Byte) : TurnsAtRelease (writeArEvents a) :=
  (turnsAtRelease_release rfl).append drivenCount_measure.strobe

theorem turns_readAr (v : Byte) : TurnsAtRelease (readArEvents v) :=
  ((turnsAtRelease_release rfl).append (drivenCount_measure.recvByte v)).append drivenCount_measure.strobe

theorem turns_writeDrHead (v : Byte) : TurnsAtRelease (writeDrHead v) := turnsAtRelease_release rfl

theorem turns_readDrHead : TurnsAtRelease readDrHead := turnsAtRelease_release rfl

/-- A WAIT field, answered or not: `n` tries that failed, each with its gap, and one that showed `b`. -/
theorem TurnsAtRelease.wait {head : List Event} (h : TurnsAtRelease head) (n : Nat) (b : Bit) :
    TurnsAtRelease (head ++ waitRetryEvents n ++ recvBitEvents b) :=
  (h.append (drivenCount_measure.waitRetry n)).append (drivenCount_measure.sampled b)

theorem turns_writeDr (v : Byte) (n : Nat) : TurnsAtRelease (writeDrEvents v n) :=
  ((turns_writeDrHead v).wait _ true).append drivenCount_measure.strobe

theorem turns_readDr (v : Byte) (n : Nat) : TurnsAtRelease (readDrEvents v n) :=
  ((turns_readDrHead.wait _ true).append (drivenCount_measure.recvByte v)).append drivenCount_measure.strobe

/-- Settles O11: every frame is released once and drives bits, and turns at that release. -/
theorem directionChangesOncePerFrame : Obligations.DirectionChangesOncePerFrame := by
  intro a r d n m es _ _ hes
  have R := releaseCount_measure
  have D := drivenCount_measure
  simp only [List.mem_cons, List.not_mem_nil, or_false] at hes
  obtain ⟨hr, hd, ht⟩ : releaseCount es = 1 ∧ 0 < drivenCount es ∧ TurnsAtRelease es := by
    obtain rfl | rfl | rfl | rfl | rfl | rfl := hes
    · exact ⟨R.writeAr a, by simp [D.writeAr], turns_writeAr a⟩
    · exact ⟨R.readAr r, by simp [D.readAr], turns_readAr r⟩
    · exact ⟨by simp [R.writeDr], by simp [D.writeDr], turns_writeDr d n⟩
    · exact ⟨by simp [R.readDr], by simp [D.readDr], turns_readDr r m⟩
    · exact ⟨R.writeDrTimeout d, by simp [D.writeDrTimeout], (turns_writeDrHead d).wait _ false⟩
    · exact ⟨R.readDrTimeout, by simp [D.readDrTimeout], turns_readDrHead.wait _ false⟩
  exact ⟨hr, hd, fun _ _ => ht.split hr⟩

/-! ## No primitive samples a driven line (R132, R285) -/

/-- Settles O57: an opcode's operation that passed its admission checks. -/
theorem admittedOperationsKeepTheDiscipline : Obligations.AdmittedOperationsKeepTheDiscipline := fun _ _ _ ho ha =>
  let ⟨_, _, hi⟩ := decode_of_operation ho
  operation_safe hi ha

/-- The core by itself never faults: what is left of its operation is safe, so a sample meets a released line. -/
theorem advance_next {s : State} (h : Inv s) : ∃ t, advance s = .next t := by
  cases hq : s.seq with
  | idle => exact ⟨s, by simp only [advance, hq]⟩
  | run answers =>
    obtain ⟨o, ho, hs⟩ := h.running hq
    rw [advance_running hq ho]
    cases hp : (o.prog s).resume answers with
    | ret v => exact ⟨_, rfl⟩
    | raise k => exact ⟨_, rfl⟩
    | prim q next =>
      rw [hp] at hs
      exact ⟨_, performNext_prim hs.1⟩

/-- An instruction never faults: each runs an operation or a layer call to its end. -/
theorem exec_next (i : Instr) (s : State) : ∃ t, exec i s = .next t := by
  by_cases hi : i.space = .host
  · obtain ⟨op, hop⟩ := exists_opcode hi
    obtain ⟨o, -, -, hx⟩ := exec_host hop
    exact ⟨_, hx s⟩
  · obtain ⟨_, p, d, -, -, hx⟩ := exec_layer hi s
    exact ⟨_, hx s rfl⟩

theorem undecodedMove_ne_fault (sp : Space) (bytes : List Byte) (s : State) (f : Fault) :
    undecodedMove sp bytes s ≠ .fault f := by
  unfold undecodedMove
  split <;> nofun

theorem hostWrite_ne_fault (r : HReg) (v : Word32) (s : State) (f : Fault) : hostWrite r v s ≠ .fault f := by
  unfold hostWrite
  split_ifs <;> nofun

theorem hostRead_ne_fault (r : HReg) (s : State) (f : Fault) : hostRead r s ≠ .fault f := by
  unfold hostRead
  split_ifs <;> nofun

theorem hostWriteBuf_fault {i : Nat} {b : Byte} {s : State} {f : Fault} (h : hostWriteBuf i b s = .fault f) :
    f = .bufIndexOutOfRange ∧ Config.bufSize ≤ i := by
  unfold hostWriteBuf at h
  split_ifs at h with hb hi
  cases h
  exact ⟨rfl, Nat.le_of_not_lt hi⟩

theorem hostReadBuf_fault {i : Nat} {s : State} {f : Fault} (h : hostReadBuf i s = .fault f) :
    f = .bufIndexOutOfRange ∧ Config.bufSize ≤ i := by
  unfold hostReadBuf at h
  split_ifs at h with hb hi
  cases h
  exact ⟨rfl, Nat.le_of_not_lt hi⟩

/-- The only moves that fault are accesses of the host outside BUF. -/
theorem takeMove_fault {s : State} (h : Inv s) {m : PortMove} {f : Fault} (hf : takeMove m s = .fault f) :
    f = .bufIndexOutOfRange ∧ ∃ i, Config.bufSize ≤ i ∧ (m = .readBuf i ∨ ∃ b, m = .writeBuf i b) := by
  have noFault : ∀ {x : Host.Outcome State Fault Refusal}, (∃ t, x = .next t) → x ≠ .fault f := by
    rintro _ ⟨_, rfl⟩
    nofun
  cases m with
  | run op =>
    simp only [takeMove] at hf
    split at hf
    · exact absurd hf (noFault (exec_next _ s))
    · cases hf
  | write r v => exact absurd hf (hostWrite_ne_fault r v s f)
  | read r => exact absurd hf (hostRead_ne_fault r s f)
  | writeBuf i b =>
    obtain ⟨rfl, hi⟩ := hostWriteBuf_fault hf
    exact ⟨rfl, i, hi, .inr ⟨b, rfl⟩⟩
  | readBuf i =>
    obtain ⟨rfl, hi⟩ := hostReadBuf_fault hf
    exact ⟨rfl, i, hi, .inl rfl⟩
  | pass => exact absurd hf (noFault (advance_next h))
  | wait => cases hf
  | layer sp bytes =>
    simp only [takeMove] at hf
    split at hf
    · exact absurd hf (noFault (exec_next _ s))
    · exact absurd hf (undecodedMove_ne_fault sp bytes s f)
  | reset => cases hf
  | otherMaster => cases hf

theorem step_fault {s : State} (h : Inv s) {f : Fault} (hf : step s = .fault f) :
    f = .bufIndexOutOfRange ∧ ∃ i rest, Config.bufSize ≤ i ∧
      (s.port = .readBuf i :: rest ∨ ∃ b, s.port = .writeBuf i b :: rest) := by
  cases hp : s.port with
  | nil =>
    obtain ⟨t, ht⟩ := advance_next h
    rw [step_alone hp, ht] at hf
    cases hf
  | cons m rest =>
    simp only [step, hp] at hf
    obtain ⟨rfl, i, hi, rfl | ⟨b, rfl⟩⟩ := takeMove_fault (h.congr rfl) hf
    · exact ⟨rfl, i, rest, hi, .inl rfl⟩
    · exact ⟨rfl, i, rest, hi, .inr ⟨b, rfl⟩⟩

/-- What is left of the running operation of a safe state is safe. -/
theorem Inv.remaining_safe {s : State} (h : Inv s) {p : Prog Results} (hp : s.remaining = some p) :
    p.Safe s.ck s.dOe true false := by
  unfold State.remaining at hp
  split at hp
  · cases hp
  next answers hq =>
    obtain ⟨o, ho, hs⟩ := h.running hq
    simp only [ho, Option.some.injEq] at hp
    exact hp ▸ hs

/-- Settles O56: the faults of a step, what a wait completes, and the procedures of the lower layers. -/
theorem noDrivenSampleFromASafeState : Obligations.NoDrivenSampleFromASafeState := by
  refine fun s h => ⟨fun _ => step_fault h, fun _ => h.remaining_safe, fun i hi hw => ?_⟩
  obtain ⟨α, p, d, -, hs, hx⟩ := exec_layer hi s
  exact ⟨α, p, d, hs hw, hx⟩

end Sys2Proof.Machine
end

section
/-! PROOFS about the register-access layer (41_register_access.md), first part: what is counted in each frame (R158), the four
register commands (R151 to R156), and the byte that a write frame and a read frame hand over (R159). -/

namespace Sys2Proof.Machine

/-! ## Event counts (R158) -/

theorem strobeCount_measure : FrameMeasure strobeCount 1 1 0 1 0 where
  append := by simp [strobeCount]
  strobe := rfl
  driven := by decide
  release := rfl
  sampled := by decide
  gap := rfl

/-- Delays: two a strobe, one more a driven bit, one a release, one a gap. -/
theorem delayCount_measure : FrameMeasure (List.countP Event.isDelay) 2 3 1 2 1 where
  append := by simp
  strobe := rfl
  driven _ := rfl
  release := rfl
  sampled _ := rfl
  gap := rfl

/-- Settles O9: each count adds up over a frame, and the gaps are the delays that no strobe, bit or release accounts for. -/
theorem eventCountsPerFrame : Obligations.EventCountsPerFrame := by
  intro a r d w hw
  have K := strobeCount_measure
  have D := drivenCount_measure
  have R := releaseCount_measure
  have S := sampleCount_measure
  have T := delayCount_measure
  refine ⟨⟨K.writeAr a, D.writeAr a, R.writeAr a, S.writeAr a⟩, ⟨K.readAr r, D.readAr r, R.readAr r, S.readAr r⟩,
    ?_, ?_, ?_, ?_⟩
  · simp only [gapCount, K.writeDr, D.writeDr, R.writeDr, S.writeDr, T.writeDr]
    omega
  · simp only [gapCount, K.readDr, D.readDr, R.readDr, S.readDr, T.readDr]
    omega
  · exact ⟨K.writeDrTimeout d, S.writeDrTimeout d,
      by simp [gapCount, K.writeDrTimeout, D.writeDrTimeout, R.writeDrTimeout, T.writeDrTimeout]⟩
  · exact ⟨K.readDrTimeout, S.readDrTimeout,
      by simp [gapCount, K.readDrTimeout, D.readDrTimeout, R.readDrTimeout, T.readDrTimeout]⟩

/-! ## The register commands (R151 to R156): admitted without a check, each is one frame -/

/-- Settles O13: a Write AR frame takes no sample, so the target has no say in it. -/
theorem writeArCommandRuns : Obligations.WriteArCommandRuns := by
  refine ⟨rfl, fun s ⟨hi, _, hb⟩ => ⟨strobeCount_measure.writeAr _, _, rfl, ?_⟩⟩
  exact (command_does (o := opWriteAr) hi hb (admit_free rfl (fun _ => rfl) _) (xs := [.wa s.byte0]) rfl
    (does_writeAr s.byte0).andThenRet rfl rfl).1

/-- Settles O14: any eight samples answer a Read AR frame. -/
theorem readArCommandRuns : Obligations.ReadArCommandRuns := by
  refine ⟨rfl, fun s ⟨hi, _, hb⟩ => ⟨strobeCount_measure.readAr _, _, rfl, ?_⟩⟩
  obtain ⟨hdone, hres⟩ := command_does (op := 0x11#8) (o := opReadAr) hi hb (admit_free rfl (fun _ => rfl) _)
    (answers_ra s) (does_readAr _).bindRet rfl rfl
  exact ⟨hdone, hres _ rfl⟩

/-- Settles O15: the frame is done at any try of the WAIT field, and abandoned after the last one. -/
theorem writeDrCommandRuns : Obligations.WriteDrCommandRuns := by
  refine ⟨rfl, fun s ⟨hi, _, hb⟩ => ⟨fun n hn h0 h1 => ⟨_, rfl, ?_⟩, fun h => ⟨_, rfl, ?_⟩⟩⟩
  · exact (command_does (o := opWriteDr) hi hb (admit_free rfl (fun _ => rfl) _) (answers_wd _ h0 h1)
      (does_writeDr _ (Nat.le_add_left ..) hn).andThenRet rfl rfl).1
  · obtain ⟨t, ht⟩ := fails_writeDr (s := s.start 0x12#8) s.byte0 h
    exact (command_fails (o := opWriteDr) hb (admit_free rfl (fun _ => rfl) _) (ht.andThen _)).symm

/-- Settles O16: as for `WRITE_DR`, and the byte returned is that of the eight samples after the WAIT field. -/
theorem readDrCommandRuns : Obligations.ReadDrCommandRuns := by
  refine ⟨rfl, fun s ⟨hi, _, hb⟩ => ⟨fun n hn h0 h1 => ⟨_, rfl, ?_⟩, fun h => ⟨_, rfl, ?_⟩⟩⟩
  · obtain ⟨hdone, hres⟩ := command_does (op := 0x13#8) (o := opReadDr) hi hb (admit_free rfl (fun _ => rfl) _)
      (answers_rd h0 h1) (does_readDr _ (Nat.le_add_left ..) hn).bindRet rfl rfl
    exact ⟨hdone, hres _ rfl⟩
  · obtain ⟨t, ht⟩ := fails_readDr (s := s.start 0x13#8) h
    exact (command_fails (o := opReadDr) hb (admit_free rfl (fun _ => rfl) _) (ht.bind _)).symm

/-! ## A byte through both directions (R159) -/

theorem serialise_injective : Function.Injective serialise := by
  intro v w h
  simp only [serialise, List.cons.injEq, and_true] at h
  obtain ⟨h0, h1, h2, h3, h4, h5, h6, h7⟩ := h
  rw [← assemble_bits v, h0, h1, h2, h3, h4, h5, h6, h7, assemble_bits]

/-- The eight samples from the `k`-th on, as the bits of the byte they make. -/
theorem drop_lines_eq_serialise (s : State) (k : Nat) : (s.lines (k + 8)).drop k = serialise (s.nextByte k) := by
  rw [serialise_nextByte]
  apply List.ext_getElem (by simp)
  intro j h _
  have hj : j < 8 := by simpa using h
  simp only [State.lines, List.getElem_drop, List.getElem_map, List.getElem_range]
  match j, hj with
  | 0, _ | 1, _ | 2, _ | 3, _ | 4, _ | 5, _ | 6, _ | 7, _ => rfl

/-- Samples that repeat the driven bits of a byte make that byte. -/
theorem nextByte_of_driven {s : State} {v : Byte} {k : Nat}
    (h : (serialise v).map Slot.driven = ((s.lines (k + 8)).drop k).map .driven) : s.nextByte k = v := by
  have hinj : Function.Injective Slot.driven := fun _ _ => Slot.driven.inj
  rw [drop_lines_eq_serialise] at h
  exact serialise_injective (hinj.list_map h).symm

theorem slotsOf_writeAr (a : Byte) : slotsOf (writeArEvents a) = (WireFrame.writeAr a).slots := by
  simpa [slotsOf_eq_seenFrom, seenFrom, slotsFrom] using seen_writeAr noSampleFirst_nil a

theorem slotsOf_writeDr (d : Byte) (n : Nat) : slotsOf (writeDrEvents d n) = (WireFrame.writeDr d n).slots := by
  simpa [slotsOf_eq_seenFrom, seenFrom, slotsFrom] using seen_writeDr noSampleFirst_nil d n

/-- The ADDRESS slots of a Write AR frame (R93). -/
theorem addressSlots_writeAr (a : Byte) : ((slotsOf (writeArEvents a)).drop 3).take 8 = (serialise a).map .driven := by
  rw [slotsOf_writeAr]
  rfl

/-- The DATA slots of a Write DR frame (R95). -/
theorem dataSlots_writeDr (d : Byte) (n : Nat) :
    ((slotsOf (writeDrEvents d n)).drop 5).take 8 = (serialise d).map .driven := by
  rw [slotsOf_writeDr]
  rfl

/-- Settles O12: a read command returns the byte its samples make, and these are the driven bits of the write frame. -/
theorem framingRoundTrip : Obligations.FramingRoundTrip := by
  intro s v tries hr
  refine ⟨fun h => ?_, fun h hready => ?_⟩
  · obtain ⟨-, t, hx, -, hres⟩ := readArCommandRuns.2 s hr
    rw [addressSlots_writeAr] at h
    exact ⟨t, hx, hres.trans (nextByte_of_driven h)⟩
  · obtain ⟨t, hx, -, hres⟩ := (readDrCommandRuns.2 s hr).1 0 (by decide) (by simp) hready
    rw [dataSlots_writeDr] at h
    exact ⟨t, hx, hres.trans (nextByte_of_driven h)⟩

end Sys2Proof.Machine
end

section
/-! PROOFS about the register-access layer, second part: every row of the lower layers, called by itself, ends (R160, R255),
whatever the target answers. -/

namespace Sys2Proof.Machine

variable {α : Type}

/-! ## The lines after a layer call (R24) -/

/-- A procedure that is safe to idle lines leaves them idle, whatever the local memories hold. -/
theorem linesIdle_run {p : Prog α} {s : State} (h : p.Safe s.ck s.dOe true false) : LinesIdle (p.run s).2 := by
  induction p generalizing s with
  | ret a => exact h
  | raise k => exact h
  | prim q next ih =>
    obtain ⟨-, hnext⟩ := h
    obtain ⟨hck, hoe⟩ := doPrim_lines q s
    refine ih _ (s := (doPrim q s).1) ?_
    rw [hck, hoe]
    exact hnext _

/-- A layer call of an idle core: its procedure returned, or it failed with `BusTimeout` or `ProtocolRejected`. -/
theorem layerCall_cases {P : Prim → Prop} {p : Prog α} (hu : p.Uses P) {s : State} (hb : s.busy = false) (d : Bool) :
    layerCall p d s = (p.run s).2 ∨
      ∃ k, (k = .busTimeout ∨ k = .protocolRejected) ∧ layerCall p d s = (p.run s).2.fail k d := by
  rcases hr : p.run s with ⟨v | k, t⟩
  · exact .inl (layerCall_ok hb hr)
  · exact .inr ⟨k, hu.run hr, layerCall_failed hb hr⟩

theorem linesIdle_exec_layer {s t : State} {i : Instr} (hr : Ready s) (hi : i.space ≠ .host) (hw : i.wellFormed = true)
    (hx : exec i s = .next t) : LinesIdle t := by
  obtain ⟨⟨hck, hoe⟩, -, hb⟩ := hr
  obtain ⟨_, p, d, hu, hsafe, hexec⟩ := exec_layer hi s
  have hl : LinesIdle (p.run s).2 := linesIdle_run (by rw [hck, hoe]; exact hsafe hw)
  rw [hexec s rfl] at hx
  cases hx
  rcases layerCall_cases hu hb d with he | ⟨k, -, he⟩
  · rwa [he]
  · simpa [he, LinesIdle] using hl

/-! ## How a layer call ends (R160, R255) -/

/-- A layer call from `s` has ended in `t`, returned or failed; `bufWasDest` as for `State.fail`. -/
structure LayerEnded (s t : State) (bufWasDest : Bool) : Prop where
  ready : Ready t
  inputs : SameInputs s t
  cmd : t.cmd = s.cmd
  device : SameDevice s t
  pi : SamePi s t
  buf : bufWasDest = false → SameBuf s t
  ending : SamePort s t ∧ SameScratch s t ∨
    (statusErr t.status = 1#3 ∨ statusErr t.status = 2#3) ∧ statusDone t.status = true

/-- A procedure that stores nothing to SCRATCH, and nothing to BUF unless that is its destination. -/
theorem layerCall_ended {p : Prog α} {d : Bool} {s : State} (hr : Ready s) (hl : LinesIdle (layerCall p d s))
    (hscratch : p.Uses fun q => ∀ i b, q ≠ .storeScratch i b) (hbuf : d = false → (p.run s).2.buf = s.buf) :
    LayerEnded s (layerCall p d s) d := by
  obtain ⟨-, hseq, hb⟩ := hr
  have hport := run_samePort p s
  have hsame : d = false → SameBuf s (p.run s).2 := fun hd i => by rw [hbuf hd]
  obtain ⟨hcmd, hstatus, hseq', hin, -, hdev, hpi⟩ := id hport
  rcases layerCall_cases hscratch hb d with he | ⟨k, hk, he⟩ <;> rw [he] at hl ⊢
  · have hbusy : (p.run s).2.busy = false := (congrArg statusBusy hstatus).trans hb
    exact ⟨⟨hl, hseq'.trans hseq, hbusy⟩, hin, hcmd, hdev, hpi, hsame, .inl ⟨hport, fun i => by rw [hscratch.scratch]⟩⟩
  · obtain ⟨⟨hidle, hbusy, hdone, herr, -⟩, hin, hdev, hpi, -, hkept⟩ := layer_failedWith hport k d hsame
    have hcode : k.code = 1#3 ∨ k.code = 2#3 := hk.imp (congrArg FailKind.code) (congrArg FailKind.code)
    rw [← herr] at hcode
    exact ⟨⟨hl, hidle, hbusy⟩, hin, (State.fail_cmd ..).trans hcmd, hdev, hpi, fun hd => by simpa [hd] using hkept,
      .inr ⟨hcode, hdone⟩⟩

/-- Every row but PI_BLOCK_READ calls a procedure that stores nothing, and for which BUF is no destination. -/
theorem exec_layer_storesNothing {i : Instr} (hi : i.space ≠ .host) (hread : ∀ a n, i ≠ .piBlockRead a n) (s : State) :
    ∃ (α : Type) (p : Prog α), (∀ P, Plain P → p.Uses P) ∧ exec i s = .next (layerCall p false s) := by
  cases i with
  | writeArFrame a => exact ⟨_, _, fun _ hP => uses_writeAr hP a, rfl⟩
  | readArFrame => exact ⟨_, _, fun _ hP => uses_readAr hP, rfl⟩
  | writeDrFrame d => exact ⟨_, _, fun _ hP => uses_writeDr hP d, rfl⟩
  | readDrFrame => exact ⟨_, _, fun _ hP => uses_readDr hP, rfl⟩
  | piGetVersion => exact ⟨_, _, fun _ hP => uses_piQuery hP _ _, rfl⟩
  | piGetDerivative => exact ⟨_, _, fun _ hP => uses_piQuery hP _ _, rfl⟩
  | piDeviceErase => exact ⟨_, _, fun _ hP => uses_deviceEraseBytes hP _, rfl⟩
  | piBlockRead a n => exact absurd rfl (hread a n)
  | piBlockWrite a n => exact ⟨_, _, fun _ hP => uses_writeSubBlock hP _ .buf a.toNat n 0, rfl⟩
  | piPageErase page => exact ⟨_, _, fun _ hP => uses_pageEraseBytes hP _ page, rfl⟩
  | piDirectRead reg => exact ⟨_, _, fun _ hP => uses_directReadBytes hP _ reg, rfl⟩
  | piDirectWrite reg v => exact ⟨_, _, fun _ hP => uses_directWriteBytes hP _ reg v, rfl⟩
  | piRespOk => exact ⟨_, _, fun _ _ => uses_checkResponse _, rfl⟩
  | piRespInvalid => exact ⟨_, _, fun _ _ => uses_checkResponse _, rfl⟩
  | piRespFailed => exact ⟨_, _, fun _ _ => uses_checkResponse _, rfl⟩
  | fpctlReset => exact ⟨_, _, fun _ hP => uses_writeDr hP _, rfl⟩
  | fpctlCoreReset => exact ⟨_, _, fun _ hP => uses_writeDr hP _, rfl⟩
  | fpctlHalt => exact ⟨_, _, fun _ hP => uses_writeDr hP _, rfl⟩
  | arOutReady => exact ⟨_, _, fun _ hP => uses_readyPoll hP _, rfl⟩
  | arInBusy => exact ⟨_, _, fun _ hP => uses_busyPoll hP, rfl⟩
  | _ => exact absurd rfl hi

/-- Settles O50: a row returns or fails, with the lines idle; only PI_BLOCK_READ stores, and to BUF alone. -/
theorem everyLayerRowEnds : Obligations.EveryLayerRowEnds := by
  intro s i hr hi hw
  have idle {t : State} : exec i s = .next t → LinesIdle t := linesIdle_exec_layer hr hi hw
  by_cases hread : ∃ a n, i = .piBlockRead a n
  · obtain ⟨a, n, rfl⟩ := hread
    have hu := uses_readSubBlock plain_noStoreScratch s.pollTries (dest := .buf) (by simp [Dest.allowed]) a.toNat n 0
    have e := layerCall_ended (d := true) hr (idle rfl) hu (by simp)
    exact ⟨_, rfl, e.ready, e.inputs, e.cmd, e.device, e.pi, fun h => absurd rfl (h a n), e.ending⟩
  · have hread : ∀ a n, i ≠ .piBlockRead a n := fun a n h => hread ⟨a, n, h⟩
    obtain ⟨_, p, hu, hx⟩ := exec_layer_storesNothing hi hread s
    have e := layerCall_ended hr (idle hx) (hu _ plain_noStoreScratch) fun _ => (hu _ plain_noStoreBuf).buf s
    exact ⟨_, hx, e.ready, e.inputs, e.cmd, e.device, e.pi, fun _ => e.buf rfl, e.ending⟩

end Sys2Proof.Machine
end

section
/-! PROOFS about the PI command protocol (42_pi_protocol.md): the four PI commands, each ending as the target answers it (R171 to
R174), and the frames counted in what they put on the wire (R176, R209). -/

namespace Sys2Proof.Machine

/-! ## Commands that fail (R237, R255) -/

/-- What a failed command leaves in the result registers: the next free values, whatever the target answered (R35, R257). -/
theorem command_fails_results {op : Byte} {o : Operation} {s t : State} {k : FailKind} {es : List Event} {n : Nat}
    (hb : s.busy = false) (ha : o.admission (s.start op) = none)
    (h : Fails (o.prog (s.start op)) (s.start op) k es n t) :
    (runOperation op o s).res0 = Config.freeByte s.fresh ∧ (runOperation op o s).res1 = Config.freeByte (s.fresh + 1) ∧
      (runOperation op o s).resLen = Config.freeWord (s.fresh + 2) := by
  obtain ⟨hrun, -, -, -, hfresh⟩ := h
  have hfail : runOperation op o s = t.fail k t.bufIsDest := by simp [runOperation, hb, ha, hrun, conclude]
  simp [hfail, hfresh]

/-! ## PI_WRITE, PI_GET and PI_CHECK_OK (R171 to R173) -/

/-- Settles O19: the byte is taken, or the not-busy poll gives up, or the Write DR before it does. -/
theorem piWriteCommandRuns : Obligations.PiWriteCommandRuns := by
  refine ⟨rfl, fun s hr => ?_⟩
  have ⟨hi, _, hb⟩ := hr
  have hadm := admit_free (o := opPiWrite) rfl (fun _ => rfl) (s.start 0x20#8)
  refine ⟨fun a h ha => ⟨_, rfl, ?_⟩, fun tries busy h1 h2 hl hp ha => ⟨_, rfl, ?_⟩, fun h => ⟨_, rfl, ?_⟩⟩
  · exact (command_does hi hb hadm ha (does_piWrite h s.byte0).andThenRet rfl rfl).1
  · have hfail := doesFail_busy (a := ⟨tries, [], 0#8⟩) h1 h2 hl (all_arBusy hp) s.byte0
    exact command_doesFail hr hadm ha (hfail.andThen _)
  · obtain ⟨t, ht⟩ := fails_writeDr (s := s.start 0x20#8) s.byte0 h
    exact (command_fails hb hadm ((ht.andThen _).andThen _)).symm

/-- `pi_get` when the poll passes and the WAIT field of the Read DR after it never does. -/
theorem fails_piGet {n : Nat} {g : Given} (h : g.pollOk n = true) {s : State} (hi : LinesIdle s)
    (ha : Answers s g.pollXacts) (hw : ∀ k < 50, s.line ((samplesOf g.pollXacts).length + k) = false) :
    ∃ t, Fails (piGet n) s .busTimeout (eventsOf g.pollXacts ++ readDrTimeoutEvents)
      ((samplesOf g.pollXacts).length + 50) t := by
  refine (does_readyPoll h).failsAfter hi ha fun t ⟨_, hdin, hsamples, _⟩ => fails_readDr fun k hk => ?_
  rw [line_of_moved hdin hsamples]
  exact hw k hk

/-- Settles O20: the byte is given, or the ready poll gives up, or the Read DR after it does. -/
theorem piGetCommandRuns : Obligations.PiGetCommandRuns := by
  refine ⟨rfl, fun s hr => ?_⟩
  have ⟨hi, _, hb⟩ := hr
  have hadm := admit_free (o := opPiGet) rfl (fun _ => rfl) (s.start 0x21#8)
  refine ⟨fun g h ha => ⟨_, rfl, ?_⟩, fun polls hl hp ha => ⟨_, rfl, ?_⟩, fun g h ha hw => ⟨_, rfl, ?_⟩⟩
  · obtain ⟨hdone, hres⟩ := command_does hi hb hadm ha (does_piGet h).bindRet rfl rfl
    exact ⟨hdone, hres _ rfl⟩
  · exact command_doesFail hr hadm ha ((doesFail_notReady hl (all_not_arReady hp)).bind _)
  · obtain ⟨t, ht⟩ := fails_piGet h (linesIdle_start hi 0x21#8) (answers_start ha _) hw
    exact (command_fails hb hadm (ht.bind _)).symm

/-- Settles O21: the check of the byte got decides, and what a rejection leaves in the result registers does not depend on
it. -/
theorem piCheckOkCommandRuns : Obligations.PiCheckOkCommandRuns := by
  refine ⟨rfl, fun s g ⟨hi, _, hb⟩ h ha => ?_⟩
  have hadm := admit_free (o := opPiCheckOk) rfl (fun _ => rfl) (s.start 0x22#8)
  refine ⟨fun hv => ⟨_, rfl, ?_⟩, fun hv => ⟨_, rfl, ?_⟩⟩
  · exact (command_does hi hb hadm ha (does_piCheckOk h hv).andThenRet rfl rfl).1
  · obtain ⟨t, ht⟩ := (doesFail_rejected h hv).andThen _ (s.start 0x22#8) hi ha
    obtain ⟨hw, hf⟩ := command_fails hb hadm ht
    exact ⟨hf, hw, command_fails_results hb hadm ht⟩

/-! ## PI_COMMAND (R174) -/

/-- A verified byte whose response is rejected, whether or not a result is wanted. -/
theorem doesFail_piCommand {n : Nat} {a : Taken} {g : Given} (ha : a.ok = true) (hg : g.ok n = true)
    (hv : g.value ≠ Config.piRespOk) (b : Byte) (wr : Bit) :
    DoesFail (piCommand n b true wr) .protocolRejected (a.xacts b ++ g.xacts) :=
  (does_piWrite ha b).andThenFail ((doesFail_rejected hg hv).andThen _)

/-- The procedure of `PI_COMMAND` under the flags `VERIFY` and `WANT_RESULT`. -/
theorem prog_piCommand {s : State} {verify want : Bit} (hv : flagVerify s.flags = verify)
    (hw : flagWantResult s.flags = want) (op : Byte) :
    opPiCommand.prog (s.start op) =
      (piCommand s.pollOut.toNat s.byte0 verify want).bind fun r => .ret { res0 := r } := by
  rw [← hv, ← hw]
  rfl

/-- `PI_COMMAND` against a target that answers as the form of `pi_command` its flags choose needs. -/
theorem piCommand_done {s : State} (hr : Ready s) {verify want : Bit} (hv : flagVerify s.flags = verify)
    (hw : flagWantResult s.flags = want) {v : Option Byte} {xs : List Xact} {Q : State → Prop} (ha : Answers s xs)
    (h : Does (piCommand s.pollOut.toNat s.byte0 verify want) v xs Q) :
    CommandDone s (runOperation 0x23#8 opPiCommand s) xs ∧
      ∀ b, v = some b → (runOperation 0x23#8 opPiCommand s).res0 = b := by
  obtain ⟨hi, -, hb⟩ := hr
  have hd := h.bindRet (f := fun r => ({ res0 := r } : Results))
  rw [← prog_piCommand hv hw 0x23#8] at hd
  exact command_does hi hb (admit_free rfl (fun _ => rfl) _) ha hd rfl rfl

/-- Settles O22: the flags choose among the forms of `pi_command`. -/
theorem piCommandCommandRuns : Obligations.PiCommandCommandRuns := by
  refine ⟨rfl, fun s hr => ⟨fun hv a h ha => ⟨_, rfl, ?_⟩, fun hv hw c h ha => ⟨_, rfl, ?_⟩,
    fun hv hw a h ha => ⟨_, rfl, ?_⟩, fun hv a g h hg hrej ha => ⟨_, rfl, ?_⟩⟩⟩
  · exact (piCommand_done hr hv rfl ha (does_piCommand_unverified h s.byte0 _)).1
  · exact (piCommand_done hr hv hw ha (does_piCommand_verified h s.byte0)).1
  · obtain ⟨hdone, hres⟩ := piCommand_done hr hv hw ha (does_piCommand_result h s.byte0)
    exact ⟨hdone, hres _ rfl⟩
  · refine command_doesFail hr (admit_free rfl (fun _ => rfl) _) ha ?_
    rw [prog_piCommand hv rfl]
    exact (doesFail_piCommand h hg hrej s.byte0 _).bind _

/-! ## Frame counts (R176, R209) -/

@[simp] theorem frameCount_nil : frameCount [] = 0 := rfl

theorem frameCount_cons (x : Xact) (xs : List Xact) :
    frameCount (x :: xs) = (if x.isFrame then 1 else 0) + frameCount xs := by
  rw [frameCount, List.countP_cons, Nat.add_comm, frameCount]

@[simp] theorem frameCount_wa (a : Byte) (xs : List Xact) : frameCount (.wa a :: xs) = 1 + frameCount xs := frameCount_cons ..
@[simp] theorem frameCount_ra (r : Byte) (xs : List Xact) : frameCount (.ra r :: xs) = 1 + frameCount xs := frameCount_cons ..
@[simp] theorem frameCount_wd (d : Byte) (n : Nat) (xs : List Xact) : frameCount (.wd d n :: xs) = 1 + frameCount xs :=
  frameCount_cons ..
@[simp] theorem frameCount_rd (r : Byte) (n : Nat) (xs : List Xact) : frameCount (.rd r n :: xs) = 1 + frameCount xs :=
  frameCount_cons ..
@[simp] theorem frameCount_gap (n : Nat) (xs : List Xact) : frameCount (.gap n :: xs) = frameCount xs := by
  rw [frameCount_cons, Xact.isFrame]
  simp

@[simp] theorem frameCount_append (xs ys : List Xact) : frameCount (xs ++ ys) = frameCount xs + frameCount ys :=
  List.countP_append

/-- Pieces of `k` frames each. -/
theorem frameCount_flatMap {α : Type} {l : List α} {f : α → List Xact} {k : Nat} (h : ∀ a ∈ l, frameCount (f a) = k) :
    frameCount (l.flatMap f) = k * l.length := by
  induction l with
  | nil => rfl
  | cons a l ih =>
    obtain ⟨ha, hl⟩ := List.forall_mem_cons.mp h
    rw [List.flatMap_cons, frameCount_append, ha, ih hl, List.length_cons, Nat.mul_succ, Nat.add_comm]

/-- The polls that did not pass, each with its gap. -/
@[simp] theorem frameCount_polls (gap : Nat) (rs : List Byte) :
    frameCount (rs.flatMap fun r => [.ra r, .gap gap]) = rs.length := by
  simpa using frameCount_flatMap (l := rs) (f := fun r => [.ra r, .gap gap]) (k := 1) (by simp)

@[simp] theorem frameCount_taken (a : Taken) (b : Byte) : frameCount (a.xacts b) = 1 + (a.busy.length + 1) := by
  simp [Taken.xacts]

@[simp] theorem frameCount_given (g : Given) : frameCount g.xacts = (g.notReady.length + 1) + 1 := by
  simp [Given.xacts, Given.pollXacts]

theorem frameCount_exhausted (gap : Nat) (rs : List Byte) : frameCount (exhaustedXacts gap rs) = rs.length := by
  induction rs with
  | nil => rfl
  | cons r rs ih =>
    cases rs with
    | nil => rfl
    | cons r2 rs =>
      show frameCount (.ra r :: .gap gap :: exhaustedXacts gap (r2 :: rs)) = _
      rw [frameCount_ra, frameCount_gap, ih]
      exact Nat.add_comm ..

/-- The target was never busy and always ready while it answered a sub-block (R209). -/
def ReadAnswer.AtOnce (a : ReadAnswer) : Prop :=
  (∀ c ∈ [a.header.cmd, a.header.len], c.taken.busy = [] ∧ c.reply.notReady = []) ∧
    a.header.hi.busy = [] ∧ a.header.lo.busy = [] ∧ ∀ g ∈ a.data, g.notReady = []

/-- Four frames a verified byte and two an unverified one make twelve in a header; a byte read is two more. -/
theorem frameCount_subBlock {n sub : Nat} {a : ReadAnswer} (h : a.ok n sub = true) (hat : a.AtOnce) (addr : Nat) :
    frameCount (a.xacts addr sub) = 12 + 2 * sub := by
  obtain ⟨hchecked, hhi, hlo, hdata⟩ := hat
  obtain ⟨hcmd, hcmdReply⟩ := hchecked a.header.cmd (by simp)
  obtain ⟨hlen, hlenReply⟩ := hchecked a.header.len (by simp)
  have hbytes : frameCount (a.data.flatMap Given.xacts) = 2 * a.data.length :=
    frameCount_flatMap fun g hg => by simp [hdata g hg]
  rw [ReadAnswer.xacts, frameCount_append, hbytes, ReadAnswer.length_of_ok h]
  simp [HeaderAnswer.xacts, Checked.xacts, hcmd, hcmdReply, hhi, hlo, hlen, hlenReply]

theorem frameCount_readBlock {n length : Nat} {as : List ReadAnswer} (h : readAnswersOk n length as = true)
    (hat : ∀ a ∈ as, a.AtOnce) (addr : Nat) :
    frameCount (readBlockXacts addr length as) = 12 * ((length + 255) / 256) + 2 * length := by
  induction as generalizing addr length with
  | nil =>
    obtain rfl : length = 0 := by simpa [readAnswersOk] using h
    rfl
  | cons a as ih =>
    simp only [readAnswersOk, Bool.and_eq_true, decide_eq_true_eq] at h
    obtain ⟨⟨h0, hok⟩, hrest⟩ := h
    obtain ⟨ha, has⟩ := List.forall_mem_cons.mp hat
    rw [readBlockXacts, frameCount_append, frameCount_subBlock hok ha, ih hrest has]
    unfold subSize Config.subblockMax
    split <;> omega

/-- Settles O41: the counts add up over the frames of each operation, and over the sub-blocks of a block read. -/
theorem framesPerOperation : Obligations.FramesPerOperation := by
  refine ⟨frameCount_taken, frameCount_given, frameCount_exhausted, fun n addr length as h hat fpdat => ?_⟩
  rw [frameCount_wa, frameCount_readBlock h hat, Nat.add_assoc]

end Sys2Proof.Machine
end

section
/-! PROOFS about the flash block operations (43_flash_block_ops.md): each command sends the frames of its procedure after one
selection of FPDAT (R190), and the first failure ends it (R191). -/

namespace Sys2Proof.Machine

variable {α β : Type}

/-! ## Direct access and erase (R192, R193, R198 to R200) -/

/-- Settles O26: the two procedures leave the memories alone, and a direct read returns the byte the target gives last. -/
theorem directAccessCommandsRun : Obligations.DirectAccessCommandsRun := by
  intro s ⟨hi, _, hb⟩ hf
  refine ⟨fun a h ha => ⟨_, rfl, ?_⟩, fun a h ha => ⟨_, rfl, ?_⟩⟩
  · obtain ⟨hdone, hres⟩ := command_does (op := 0x30#8) (o := opReadDirect) hi hb (admit_family (fun _ => rfl) hf) ha
      (does_readDirect h s.fpdatAddr s.byte0).bindRet rfl rfl
    exact ⟨hdone, hres _ rfl⟩
  · exact (command_does (o := opWriteDirect) hi hb (admit_family (fun _ => rfl) hf) ha
      (does_writeDirect h s.fpdatAddr s.byte0 s.byte1).andThenRet rfl rfl).1

/-- Settles O30: the frames are those of `erase_page` read off the answers, which the command's procedure puts on the wire. -/
theorem erasePageCommandRuns : Obligations.ErasePageCommandRuns := fun s _ ⟨hi, _, hb⟩ hf h ha =>
  ⟨rfl, _, rfl, (command_does (o := opErasePage) hi hb (admit_family (fun _ => rfl) hf) ha
    (does_erasePage h s.fpdatAddr s.byte0).andThenRet rfl rfl).1⟩

/-- Settles O31: `erase_device` has no part that depends on the erratum bit. -/
theorem eraseDeviceCommandRuns : Obligations.EraseDeviceCommandRuns := fun s _ ⟨hi, _, hb⟩ hf h ha =>
  ⟨_, rfl, (command_does (o := opEraseDevice) hi hb (admit_family (fun _ => rfl) hf) ha
    (does_eraseDevice h s.fpdatAddr).andThenRet rfl rfl).1⟩

/-! ## How a length splits into sub-blocks (R104, R196) -/

theorem subSize_eq_min (length : Nat) : subSize length = min length 256 := by
  unfold subSize Config.subblockMax
  split <;> omega

theorem readAnswersOk_cons {n length : Nat} {a : ReadAnswer} {as : List ReadAnswer}
    (h : readAnswersOk n length (a :: as) = true) :
    length ≠ 0 ∧ a.data.length = min length 256 ∧ readAnswersOk n (length - min length 256) as = true := by
  simp only [readAnswersOk, Bool.and_eq_true, decide_eq_true_eq] at h
  obtain ⟨⟨h0, hok⟩, hrest⟩ := h
  rw [← subSize_eq_min]
  exact ⟨h0, ReadAnswer.length_of_ok hok, hrest⟩

/-- One sub-block for each 256 bytes begun, and all but the last are whole. -/
theorem length_readAnswers {n length : Nat} {as : List ReadAnswer} (h : readAnswersOk n length as = true) :
    as.length = (length + 255) / 256 ∧ ∀ k, (hk : k < as.length) → as[k].data.length = min 256 (length - 256 * k) := by
  induction as generalizing length with
  | nil =>
    obtain rfl : length = 0 := by simpa [readAnswersOk] using h
    simp
  | cons a as ih =>
    obtain ⟨h0, ha, hrest⟩ := readAnswersOk_cons h
    obtain ⟨hcount, hsizes⟩ := ih hrest
    refine ⟨by rw [List.length_cons, hcount]; omega, fun k hk => ?_⟩
    cases k with
    | zero => rw [List.getElem_cons_zero, ha]; omega
    | succ k =>
      rw [List.getElem_cons_succ, hsizes k (by simpa using hk)]
      omega

/-- Sub-block `k` begins 256 * k bytes after the first. -/
theorem readBlockXacts_eq_flatMap {n length : Nat} {as : List ReadAnswer} (h : readAnswersOk n length as = true)
    (addr : Nat) :
    readBlockXacts addr length as = ((List.range as.length).zip as).flatMap fun x =>
      x.2.xacts (addr + 256 * x.1) x.2.data.length := by
  induction as generalizing addr length with
  | nil => rfl
  | cons a as ih =>
    obtain ⟨h0, ha, hrest⟩ := readAnswersOk_cons h
    have htail : readBlockXacts (addr + min length 256) (length - min length 256) as =
        ((List.range as.length).zip as).flatMap fun x => x.2.xacts (addr + 256 * (x.1 + 1)) x.2.data.length := by
      by_cases hl : length ≤ 256
      · obtain rfl : as = [] := by
          rw [← List.length_eq_zero_iff, (length_readAnswers hrest).1]
          omega
        rfl
      · rw [ih hrest, Nat.min_eq_right (by omega)]
        simp only [Nat.mul_add, Nat.mul_one, Nat.add_assoc, Nat.add_comm 256]
    rw [readBlockXacts, subSize_eq_min, htail, List.length_cons, List.range_succ_eq_map, List.zip_cons_cons,
      List.flatMap_cons, List.zip_map_left, List.flatMap_map, ha]
    rfl

/-- Settles O29: by induction on the sub-blocks; the header's bytes are digits of the address and of the size. -/
theorem subBlocksCoverTheRequest : Obligations.SubBlocksCoverTheRequest := by
  refine ⟨fun length _ => subSize_eq_min length, fun _ _ _ => length_readAnswers,
    fun _ addr _ _ h => readBlockXacts_eq_flatMap h addr, fun addr n haddr _ _ => ⟨?_, BitVec.toNat_ofNat ..⟩⟩
  rw [addrHiByte, addrLoByte, BitVec.toNat_ofNat, BitVec.toNat_ofNat]
  omega

/-! ## Block read and block write (R194 to R197) -/

/-- An operation whose checks all pass is admitted once a family is selected. -/
theorem admit_checked {o : Operation} {s : State} (hf : ctlFamilyValid s.familyCtl = true)
    (hc : firstFailure (o.checks s) = none) : o.admission s = none := by
  simp [Operation.admission, firstFailure, hf, hc]

theorem admit_blockRead {s : State} (hf : ctlFamilyValid s.familyCtl = true)
    (hbuf : flagDiscard s.flags = true ∨ s.len.toNat ≤ Config.bufSize) (hend : s.addr.toNat + s.len.toNat ≤ 65536) :
    opBlockRead.admission s = none :=
  admit_checked hf (by simp [opBlockRead, firstFailure, requestInFlash, Config.flashSpace, hbuf, hend])

theorem admit_blockWrite {s : State} (hf : ctlFamilyValid s.familyCtl = true) (hbuf : s.len.toNat ≤ Config.bufSize)
    (hend : s.addr.toNat + s.len.toNat ≤ 65536) : opBlockWrite.admission s = none :=
  admit_checked hf (by simp [opBlockWrite, firstFailure, requestInFlash, Config.flashSpace, hbuf, hend])

/-- A procedure that returns, and what the command then returns. -/
theorem Goes.andThenRet {p : Prog α} {v : α} {xs : List Xact} {s t : State} (h : Goes p s v xs t) (w : β) :
    Goes (p.andThen (.ret w)) s w xs t := by
  rw [← List.append_nil xs]
  exact h.andThen (goes_ret w h.2.idle)

/-- What a stored list leaves of the memories, by destination. -/
theorem Stored.scratch_of_ne {dest : Dest} {s t : State} {k : Nat} {bs : List Byte} (h : Stored dest s t k bs)
    (hd : dest ≠ .scratch) : t.scratch = s.scratch := by
  cases dest with
  | buf => exact h.2.2
  | scratch => exact absurd rfl hd
  | null => exact h.2.2

/-- Settles O27: the bytes of the sub-blocks go to BUF one behind the other, or nowhere. -/
theorem blockReadCommandRuns : Obligations.BlockReadCommandRuns := by
  intro s as ⟨hi, _, hb⟩ hf hbuf hend h ha
  obtain ⟨t, ht, hst, hlen⟩ := goes_blockRead (s := s.start 0x32#8) s.fpdatAddr
    (if flagDiscard s.flags then .null else .buf) h hi ha
  have hgoes := ht.andThenRet ({} : Results)
  have hx : runOperation 0x32#8 opBlockRead s = t.succeed {} :=
    runOperation_goes hb (admit_blockRead hf hbuf hend) hgoes
  have hscratch : t.scratch = s.scratch := hst.scratch_of_ne (by split <;> simp)
  refine ⟨hlen, _, congrArg Host.Outcome.next hx, succeed_onWire {} hgoes.2, succeeded (run_samePort_of hgoes.1) rfl rfl,
    fun i => by rw [State.succeed_scratch, hscratch], fun hd i => ?_, fun hd i => ?_⟩
  · rw [hd, if_pos rfl] at hst
    obtain ⟨-, hsame, -⟩ := hst
    rw [State.succeed_buf, hsame]
    rfl
  · rw [hd, if_neg (by simp)] at hst
    obtain ⟨-, hwritten, -⟩ := hst
    rw [State.succeed_buf, hwritten, Memory.read_writeList, hlen]
    simp

/-- Settles O28: the loads of BUF draw free values at most. -/
theorem blockWriteCommandRuns : Obligations.BlockWriteCommandRuns := by
  intro s as ⟨hi, _, hb⟩ hf hbuf hend h ha
  obtain ⟨t, ht, hbuf', hscratch, -⟩ := goes_blockWrite (s := s.start 0x33#8) s.fpdatAddr .buf h hi ha
  have hgoes := ht.andThenRet ({} : Results)
  exact ⟨_, rfl, command_goes (o := opBlockWrite) hb (admit_blockWrite hf hbuf hend) hgoes rfl rfl
    (fun i => by rw [hbuf']; rfl) (fun i => by rw [hscratch]; rfl)⟩

/-! ## Reset and halt (R206) -/

/-- The reset pulse takes no sample, and leaves the memories and what the line will show as they were. -/
theorem resetPulse_returns {s : State} (hi : LinesIdle s) :
    ∃ t, resetPulse.run s = (.ok (), t) ∧ OnWireEvents s t resetPulseEvents 0 ∧ Quiet s t ∧ t.line = s.line :=
  ⟨_, run_resetPulse s, by simp [OnWireEvents, LinesIdle, hi.2], ⟨rfl, rfl, rfl⟩, funext fun k => by simp⟩

theorem answers_of_line {s t : State} {xs : List Xact} (hl : t.line = s.line) (h : Answers s xs) : Answers t xs := by
  rw [Answers, State.lines, hl]
  exact h

/-- A Write DR frame of each byte, then `q`. -/
def writeDrs (ds : List Byte) (q : Prog α) : Prog α := ds.foldr (fun d p => (writeDr d).andThen p) q

/-- The bytes `reset_and_halt` writes, in order (R206). -/
def haltBytes : List Byte := [Config.fpctlReset, Config.fpctlCoreReset, Config.fpctlHalt]

theorem resetAndHalt_eq (fpctl : Byte) : resetAndHalt fpctl =
    resetPulse.andThen ((writeAr fpctl).andThen (writeDrs haltBytes (delay Config.haltSettle))) := by
  simp only [resetAndHalt, writeDrs, haltBytes, List.foldr_cons, List.foldr_nil]

/-- The frames of writes that were ready at the tries `ws`. -/
def writesDone (ws : List Nat) (ds : List Byte) : List Xact := (ws.zip ds).map fun x => .wd x.2 x.1

theorem writesDone_cons (w : Nat) (ws : List Nat) (c : Byte) (ds : List Byte) :
    writesDone (w :: ws) (c :: ds) = [.wd c w] ++ writesDone ws ds := rfl

theorem does_writeDrs {ws : List Nat} {ds : List Byte} {q : Prog α} {v : α} {xs : List Xact}
    (hlen : ws.length = ds.length) (hws : ∀ w ∈ ws, 1 ≤ w ∧ w ≤ 20) (hq : Does q v xs Anything) :
    Does (writeDrs ds q) v (writesDone ws ds ++ xs) Anything := by
  induction ws generalizing ds with
  | nil =>
    obtain rfl := List.length_eq_zero_iff.mp hlen.symm
    exact hq
  | cons w ws ih =>
    cases ds with
    | nil => cases hlen
    | cons c ds =>
      obtain ⟨⟨hlo, hhi⟩, hws⟩ := List.forall_mem_cons.mp hws
      rw [writesDone_cons, List.append_assoc]
      exact (does_writeDr c hlo hhi).andThen (ih (Nat.succ.inj hlen) hws)

/-- `RESET_HALT` once its three writes are done. -/
theorem resetHalt_done {s : State} (hr : Ready s) {w1 w2 w3 : Nat} (hws : ∀ w ∈ [w1, w2, w3], 1 ≤ w ∧ w ≤ 20)
    (ha : Answers s [.wd 0x02#8 w1, .wd 0x04#8 w2, .wd 0x01#8 w3]) :
    ∃ t, exec .resetHalt s = .next t ∧
      OnWireEvents s t (resetPulseEvents ++
        eventsOf [.wa s.fpctlAddr, .wd 0x02#8 w1, .wd 0x04#8 w2, .wd 0x01#8 w3, .gap 30000]) (w1 + w2 + w3) ∧
      Succeeded s t ∧ SameBuf s t ∧ SameScratch s t := by
  obtain ⟨hi, -, hb⟩ := hr
  obtain ⟨t, ht, hw, hq, hl⟩ := resetPulse_returns (linesIdle_start hi 0x36#8)
  have hdelay : Does (delay Config.haltSettle) () [.gap 30000] Anything := does_delay (by decide)
  obtain ⟨u, hu, hw', hq', -⟩ := (does_writeAr s.fpctlAddr).andThen (does_writeDrs (ds := haltBytes) rfl hws hdelay)
    t hw.idle (answers_of_line hl ha)
  have hreset : (resetAndHalt s.fpctlAddr).run (s.start 0x36#8) = (.ok (), u) := by
    rw [resetAndHalt_eq, run_andThen_ok _ ht, hu]
  have hrun : (opResetHalt.prog (s.start 0x36#8)).run (s.start 0x36#8) = (.ok {}, u) := run_andThen_ok _ hreset
  have hx : runOperation 0x36#8 opResetHalt s = u.succeed {} := by
    simp [runOperation, hb, admit_free (o := opResetHalt) rfl (fun _ => rfl), hrun, conclude]
  obtain ⟨hbuf, hscratch, -⟩ := hq.trans hq'
  have hn : (samplesOf [.wa s.fpctlAddr, .wd 0x02#8 w1, .wd 0x04#8 w2, .wd 0x01#8 w3, .gap 30000]).length =
      w1 + w2 + w3 := by
    have ⟨h1, h2, h3⟩ : 1 ≤ w1 ∧ 1 ≤ w2 ∧ 1 ≤ w3 :=
      ⟨(hws w1 (by simp)).1, (hws w2 (by simp)).1, (hws w3 (by simp)).1⟩
    simp [samplesOf, Xact.samples]
    omega
  have hwire := hw.trans hw'
  rw [Nat.zero_add] at hwire
  rw [← hn]
  exact ⟨_, congrArg Host.Outcome.next hx, succeed_onWire {} hwire, succeeded (run_samePort_of hrun) rfl rfl,
    fun i => by rw [State.succeed_buf, hbuf]; rfl, fun i => by rw [State.succeed_scratch, hscratch]; rfl⟩

/-- Of a sequence of writes, those before the first timeout are done and none is made after it (R191, R206). -/
theorem fails_writeDrs {ws : List Nat} {ds : List Byte} {d : Byte} (q : Prog α) (hws : ∀ w ∈ ws, 1 ≤ w ∧ w ≤ 20)
    (hd : ds[ws.length]? = some d) {s : State} (hi : LinesIdle s) (ha : Answers s (writesDone ws ds))
    (hl : ∀ k < 20, s.line ((samplesOf (writesDone ws ds)).length + k) = false) :
    ∃ t, Fails (writeDrs ds q) s .busTimeout (eventsOf (writesDone ws ds) ++ writeDrTimeoutEvents d)
      ((samplesOf (writesDone ws ds)).length + 20) t := by
  induction ws generalizing ds s with
  | nil =>
    cases ds with
    | nil => simp at hd
    | cons c ds =>
      obtain rfl : c = d := by simpa using hd
      obtain ⟨t, ht⟩ := fails_writeDr c fun k hk => by simpa [writesDone, samplesOf] using hl k hk
      exact ⟨t, by simpa [writesDone, samplesOf, eventsOf, writeDrs, Config.waitTriesWr] using ht.andThen (writeDrs ds q)⟩
  | cons w ws ih =>
    cases ds with
    | nil => simp at hd
    | cons c ds =>
      obtain ⟨⟨hlo, hhi⟩, hws⟩ := List.forall_mem_cons.mp hws
      rw [writesDone_cons] at ha hl ⊢
      obtain ⟨t, ht⟩ := (does_writeDr c hlo hhi).failsAfter (f := fun _ => writeDrs ds q) hi ha.left fun t ht => by
        have ⟨_, hdin, hsamples, hidle⟩ := ht
        refine ih hws (by simpa using hd) hidle (ha.right ht) fun k hk => ?_
        rw [line_of_moved hdin hsamples, ← Nat.add_assoc, ← List.length_append, ← samplesOf_append]
        exact hl k hk
      refine ⟨t, ?_⟩
      rw [eventsOf_append, samplesOf_append, List.length_append, List.append_assoc, Nat.add_assoc]
      exact ht

/-- `reset_and_halt` when the write of `d` times out, the writes before it done. -/
theorem fails_resetAndHalt (fpctl : Byte) {ws : List Nat} {d : Byte} (hws : ∀ w ∈ ws, 1 ≤ w ∧ w ≤ 20)
    (hd : haltBytes[ws.length]? = some d) {s : State} (hi : LinesIdle s) (ha : Answers s (writesDone ws haltBytes))
    (hl : ∀ k < 20, s.line ((samplesOf (writesDone ws haltBytes)).length + k) = false) :
    ∃ t, Fails (resetAndHalt fpctl) s .busTimeout
      (resetPulseEvents ++ (eventsOf [.wa fpctl] ++ (eventsOf (writesDone ws haltBytes) ++ writeDrTimeoutEvents d)))
      ((samplesOf (writesDone ws haltBytes)).length + 20) t := by
  obtain ⟨t, ht, hw, hq, hline⟩ := resetPulse_returns hi
  obtain ⟨u, hu⟩ := (does_writeAr fpctl).failsAfter (f := fun _ => writeDrs haltBytes (delay Config.haltSettle))
      (s := t) hw.idle rfl fun v hv => by
    have ⟨_, hdin, hsamples, hidle⟩ := hv
    have hline' : v.line = s.line := by
      refine Eq.trans (funext fun k => ?_) hline
      simpa [samplesOf, Xact.samples] using line_of_moved hdin hsamples k
    exact fails_writeDrs _ hws hd hidle (answers_of_line hline' ha) (by rwa [hline'])
  have hn : (samplesOf [Xact.wa fpctl]).length = 0 := rfl
  have hfail := Fails.after (f := fun _ => (writeAr fpctl).andThen (writeDrs haltBytes (delay Config.haltSettle)))
    ht hw hq hu
  rw [hn, Nat.zero_add, Nat.zero_add] at hfail
  refine ⟨u, ?_⟩
  rw [resetAndHalt_eq]
  exact hfail

/-- Settles O32: the pulse, then the three writes, each done or the one that ends the command. -/
theorem resetHaltCommandRuns : Obligations.ResetHaltCommandRuns := by
  refine ⟨rfl, fun s hr => ⟨fun w1 w2 w3 h1 h1' h2 h2' h3 h3' ha => ?_, fun ws d hws hd => ?_⟩⟩
  · exact resetHalt_done hr (by simp [h1, h1', h2, h2', h3, h3']) ha
  · intro done ha hl
    obtain ⟨hi, -, hb⟩ := hr
    obtain ⟨t, ht⟩ := fails_resetAndHalt (s := s.start 0x36#8) s.fpctlAddr hws hd hi ha hl
    obtain ⟨hw, hfailed⟩ := command_fails hb (admit_free (o := opResetHalt) rfl (fun _ => rfl) _) (ht.andThen _)
    rw [← List.append_assoc, ← List.append_assoc, List.append_assoc resetPulseEvents, ← eventsOf_append] at hw
    exact ⟨_, rfl, hfailed, hw⟩

/-! ## Identification (R207, R208) -/

/-- What success shows of itself, whatever was captured (R237). -/
theorem ended_succeed {s t : State} {op : Byte} (h : SamePort (s.start op) t) (r : Results) :
    EndedWith (t.succeed r) 0#3 (r.device.isSome || statusInfoValid s.status) (r.pi.isSome || statusPiInfoValid s.status) := by
  obtain ⟨-, hst, -⟩ := h
  have hst : t.status = statusStart s.status := hst
  have hend := ended_finish (((t.putResults r).capture r.device).capturePi r.pi) 0#3
  cases hd : r.device <;> cases hp : r.pi <;> simpa [State.succeed, hd, hp, hst] using hend

theorem sameInputs_succeed {s t : State} {op : Byte} (h : SamePort (s.start op) t) (r : Results) :
    SameInputs s (t.succeed r) := by
  simpa [SameInputs, SameOperands, SameConfig, SameOutside] using sameInputs_of_samePort h

theorem sameDevice_succeed {s t : State} {op : Byte} (h : SamePort (s.start op) t) {r : Results} (hd : r.device = none) :
    SameDevice s (t.succeed r) := by
  obtain ⟨-, -, -, -, -, hdev, -⟩ := h
  simpa [SameDevice, hd] using hdev

theorem samePi_succeed {s t : State} {op : Byte} (h : SamePort (s.start op) t) {r : Results} (hp : r.pi = none) :
    SamePi s (t.succeed r) := by
  obtain ⟨-, -, -, -, -, -, hpi⟩ := h
  simpa [SamePi, hp] using hpi

/-- A command whose procedure leaves the memories alone, whatever it captures: `t` is the state its procedure ends in. -/
theorem command_captures {op : Byte} {o : Operation} {s : State} {v : Results} {xs : List Xact} {Q : State → Prop}
    (hr : Ready s) (ha : o.admission (s.start op) = none) (hans : Answers s xs)
    (hd : Does (o.prog (s.start op)) v xs Q) :
    ∃ t, runOperation op o s = t.succeed v ∧ OnWire s (t.succeed v) xs ∧ SamePort (s.start op) t ∧
      SameBuf s (t.succeed v) ∧ SameScratch s (t.succeed v) := by
  obtain ⟨hi, -, hb⟩ := hr
  obtain ⟨t, ht, ⟨hbuf, hscratch, -⟩, -⟩ := hd.goes (linesIdle_start hi op) (answers_start hans op)
  exact ⟨t, runOperation_goes hb ha ht, succeed_onWire v ht.2, run_samePort_of ht.1,
    fun i => by rw [State.succeed_buf, hbuf]; rfl, fun i => by rw [State.succeed_scratch, hscratch]; rfl⟩

/-- The read of a target register that times out. -/
theorem fails_memReadC2 (a : Byte) {s : State} (hi : LinesIdle s) (hl : ∀ k < 50, s.line k = false) :
    ∃ t, Fails (memReadC2 a) s .busTimeout (eventsOf [.wa a] ++ readDrTimeoutEvents) 50 t :=
  (does_writeAr a).failsAfter (f := fun _ => readDr) hi rfl fun _ ⟨_, hdin, hsamples, _⟩ => fails_readDr fun k hk => by
    rw [line_of_moved hdin hsamples]
    simpa [samplesOf, Xact.samples] using hl k hk

/-- The read of the second register times out, that of the first done. -/
theorem fails_getDeviceInfo (dev : Byte) {n : Nat} (h1 : 1 ≤ n) (h2 : n ≤ 50) {s : State} (hi : LinesIdle s)
    (ha : Answers s [.wa Config.arDeviceId, .rd dev n]) (hl : ∀ k < 50, s.line (n + 8 + k) = false) :
    ∃ t, Fails getDeviceInfo s .busTimeout
      (eventsOf [.wa Config.arDeviceId, .rd dev n] ++ (eventsOf [.wa Config.arRevId] ++ readDrTimeoutEvents))
      (n + 8 + 50) t := by
  have hn : (samplesOf [.wa Config.arDeviceId, .rd dev n]).length = n + 8 := by
    simp [samplesOf, Xact.samples]
    omega
  rw [← hn] at hl ⊢
  refine (does_memReadC2 Config.arDeviceId dev h1 h2).failsAfter hi ha fun t ⟨_, hdin, hsamples, hidle⟩ => ?_
  obtain ⟨u, hu⟩ := fails_memReadC2 Config.arRevId hidle fun k hk => by
    rw [line_of_moved hdin hsamples]
    exact hl k hk
  exact ⟨u, hu.bind _⟩

/-- Settles O33: both reads are done, or the first times out, or the second does; only after both is anything captured. -/
theorem getDeviceInfoCommandRuns : Obligations.GetDeviceInfoCommandRuns := by
  intro s dev rev n m hr h1 h2 h3 h4
  have ⟨hi, _, hb⟩ := hr
  have hadm := admit_free (o := opGetDeviceInfo) rfl (fun _ => rfl) (s.start 0x37#8)
  refine ⟨fun ha => ?_, fun hl => ⟨_, rfl, ?_⟩, fun ha hl => ⟨_, rfl, ?_⟩⟩
  · obtain ⟨t, hx, hw, hport, hbuf, hscratch⟩ := command_captures hr hadm ha (does_getDeviceInfo dev rev h1 h2 h3 h4).bindRet
    exact ⟨_, congrArg Host.Outcome.next hx, hw, ended_succeed hport _, rfl, rfl, rfl, rfl,
      sameInputs_succeed hport _, samePi_succeed hport rfl, hbuf, hscratch⟩
  · obtain ⟨t, ht⟩ := fails_memReadC2 (s := s.start 0x37#8) Config.arDeviceId hi hl
    obtain ⟨hw, hfailed⟩ := command_fails hb hadm ((ht.bind _).bind _)
    exact ⟨hfailed, by simpa [eventsOf, Xact.events, Config.arDeviceId] using hw⟩
  · obtain ⟨t, ht⟩ := fails_getDeviceInfo (s := s.start 0x37#8) dev h1 h2 hi (Answers.left (ys := [.wa 0x01#8]) ha) hl
    obtain ⟨hw, hfailed⟩ := command_fails hb hadm (ht.bind _)
    rw [← List.append_assoc, ← eventsOf_append] at hw
    exact ⟨hfailed, hw⟩

/-- Settles O34: as `GET_DEVICE_INFO`, with two queries of the PI layer in place of the reads. -/
theorem getPiInfoCommandRuns : Obligations.GetPiInfoCommandRuns := by
  intro s a b hr hf h1 h2 ha
  obtain ⟨t, hx, hw, hport, hbuf, hscratch⟩ := command_captures (op := 0x38#8) (o := opGetPiInfo) hr
    (admit_family (fun _ => rfl) hf) ha (does_getPiInfo h1 h2 s.fpdatAddr).bindRet
  exact ⟨_, congrArg Host.Outcome.next hx, hw, ended_succeed hport _, rfl, rfl, rfl, rfl,
    sameInputs_succeed hport _, sameDevice_succeed hport rfl, hbuf, hscratch⟩

/-! ## A rejected command byte (R191) -/

theorem bufIsDest_start_eq {op : Byte} {i : Instr} (h : decodeHost op = .ok i) (s : State) :
    (s.start op).bufIsDest = (decide (i = .blockRead) && !flagDiscard s.flags) := by
  rw [Bool.eq_iff_iff, bufIsDest_start h]
  simp

/-- A query whose command byte is rejected. -/
theorem doesFail_piQuery {n : Nat} {a : Taken} {g : Given} (ha : a.ok = true) (hg : g.ok n = true)
    (hv : g.value ≠ Config.piRespOk) (b : Byte) : DoesFail (piQuery n b) .protocolRejected (a.xacts b ++ g.xacts) :=
  (doesFail_piCommand ha hg hv b true).bind _

/-- The first sub-block of a request that is not empty begins with the command byte. -/
theorem doesFail_blockLoop {body : (addr sub k : Nat) → Prog Unit} {k : FailKind} {xs : List Xact}
    (h : ∀ addr sub k', DoesFail (body addr sub k') k xs) {length : Nat} (hl : 0 < length) (addr k' : Nat) :
    DoesFail (blockLoop body length addr length k') k xs := by
  obtain ⟨m, rfl⟩ : ∃ m, length = m + 1 := ⟨length - 1, by omega⟩
  rw [blockLoop, if_neg (by omega)]
  exact (h _ _ _).andThen _

/-- A family command whose procedure selects FPDAT and then fails. -/
theorem doesFail_selected {p : Prog α} {k : FailKind} {xs : List Xact} (fpdat : Byte) (h : DoesFail p k xs)
    (f : α → Prog β) : DoesFail (((writeAr fpdat).andThen p).bind f) k (.wa fpdat :: xs) :=
  ((does_writeAr fpdat).andThenFail h).bind f

/-- Settles O35: each of the seven procedures begins with the selection and the verified command byte, a block command's if
there is a byte to move. -/
theorem rejectedCommandByteEndsTheOperation : Obligations.RejectedCommandByteEndsTheOperation := by
  intro s op i cmd a g hr hmem hadm hlen ha hg hv hans
  have hbyte := fun b => doesFail_piVerified ha hg hv b
  have key : decodeHost op = .ok i ∧ ∃ o, operationOfInstr i = some o ∧
      DoesFail (o.prog (s.start op)) .protocolRejected (.wa s.fpdatAddr :: (a.xacts cmd ++ g.xacts)) := by
    simp only [List.mem_cons, Prod.mk.injEq, List.not_mem_nil, or_false] at hmem
    obtain ⟨rfl, rfl, rfl⟩ | ⟨rfl, rfl, rfl⟩ | ⟨rfl, rfl, rfl⟩ | ⟨rfl, rfl, rfl⟩ | ⟨rfl, rfl, rfl⟩ | ⟨rfl, rfl, rfl⟩ |
      ⟨rfl, rfl, rfl⟩ := hmem
    · exact ⟨rfl, _, rfl, doesFail_selected _ ((hbyte _).andThen _) _⟩
    · exact ⟨rfl, _, rfl, doesFail_selected _ ((hbyte _).andThen _) _⟩
    · exact ⟨rfl, _, rfl, doesFail_selected _
        (doesFail_blockLoop (fun _ _ _ => ((hbyte _).andThen _).andThen _) (hlen (.inl rfl)) _ _) _⟩
    · exact ⟨rfl, _, rfl, doesFail_selected _
        (doesFail_blockLoop (fun _ _ _ => ((hbyte _).andThen _).andThen _) (hlen (.inr rfl)) _ _) _⟩
    · exact ⟨rfl, _, rfl, doesFail_selected _ (((hbyte _).andThen _).andThen _) _⟩
    · exact ⟨rfl, _, rfl, doesFail_selected _ ((hbyte _).andThen _) _⟩
    · exact ⟨rfl, _, rfl, doesFail_selected _ ((doesFail_piQuery ha hg hv _).bind _) _⟩
  obtain ⟨hop, o, ho, hfail⟩ := key
  obtain ⟨o', ho', -, hx⟩ := exec_host hop
  obtain rfl : o = o' := Option.some.inj (ho.symm.trans ho')
  obtain ⟨hfailed, hw⟩ := command_doesFail hr ((admit_eq_table (s.start op) hop ho).trans hadm) hans hfail
  rw [bufIsDest_start_eq hop] at hfailed
  exact ⟨_, hx s, hw, hfailed⟩

end Sys2Proof.Machine
end

section
/-! PROOFS about the page write (44_page_write.md), first part: the page arithmetic (R221, R222), and the calls that write a
region page by page (R224). -/

namespace Sys2Proof.Machine

/-! ## Page arithmetic (R221, R222) -/

theorem pageBase_add_chunkStart (addr p : Nat) : pageBase addr p + chunkStart addr p = addr := by
  rw [chunkStart_eq_mod, pageBase, pageOf, Nat.div_add_mod']

theorem chunkStart_lt (addr : Nat) {p : Nat} (hp : 0 < p) : chunkStart addr p < p := by
  rw [chunkStart_eq_mod]
  exact Nat.mod_lt addr hp

/-- The page is not read first exactly if the request covers it. -/
theorem readsFirst_eq_false_iff (addr length p : Nat) :
    readsFirst addr length p = false ↔ chunkStart addr p = 0 ∧ p ≤ length := by
  simp [readsFirst]

/-- The page base is the address with the bits below the page size cleared: `addr & ~(P - 1)`. -/
theorem pageBase_two_pow (addr k : Nat) :
    BitVec.ofNat 32 (pageBase addr (2 ^ k)) = BitVec.ofNat 32 addr &&& ~~~ BitVec.ofNat 32 (2 ^ k - 1) := by
  refine BitVec.eq_of_getLsbD_eq fun i hi => ?_
  rw [BitVec.getLsbD_and, BitVec.getLsbD_not, BitVec.getLsbD_ofNat, BitVec.getLsbD_ofNat, BitVec.getLsbD_ofNat, pageBase,
    pageOf, Nat.testBit_mul_two_pow, Nat.testBit_div_two_pow, Nat.testBit_two_pow_sub_one]
  by_cases hik : k ≤ i
  · simp [hi, hik, Nat.sub_add_cancel hik]
  · simp [hi, hik, Nat.lt_of_not_le hik]

/-- Settles O39: a quotient and a remainder by a power of two are a shift and a mask, and the remainder is below it. -/
theorem pageArithmetic : Obligations.PageArithmetic := by
  intro addr length k _ _ p
  have hp : 0 < p := Nat.two_pow_pos k
  have hlt := chunkStart_lt addr hp
  refine ⟨(Nat.shiftRight_eq_div_pow addr k).symm, ?_, pageBase_add_chunkStart addr p, pageBase_two_pow addr k, hlt,
    by omega, Nat.sub_le .., rfl, chunk_window hp, readsFirst_eq_false_iff addr length p, fun h => ?_⟩
  · rw [chunkStart_eq_mod, Nat.and_two_pow_sub_one_eq_mod]
  · exact (chunk_whole h).2

/-! ## The calls of `write_region` (R224) -/

/-- The loop of `write_region`: no call once nothing is left to write, else one, and those of what it leaves. -/
inductive RegionRun (p : Nat) : (addr length : Nat) → List (Nat × Nat × Nat) → Prop where
  | done (addr : Nat) : RegionRun p addr 0 []
  | call {addr length : Nat} {calls : List (Nat × Nat × Nat)} (h : 0 < length)
      (rest : RegionRun p (addr + chunkLen addr length p) (length - chunkLen addr length p) calls) :
      RegionRun p addr length ((addr, length, chunkLen addr length p) :: calls)

theorem chunkLen_pos {p length : Nat} (hp : 0 < p) (addr : Nat) (h : 0 < length) : 0 < chunkLen addr length p := by
  have := chunkStart_lt addr hp
  unfold chunkLen
  omega

theorem chunkLen_le (addr length p : Nat) : chunkLen addr length p ≤ length := Nat.min_le_left ..

/-- A call that does not write all that is left ends at the end of its page. -/
theorem page_of_chunk_end {addr length p : Nat} (hp : 0 < p) (h : chunkLen addr length p < length) :
    addr + chunkLen addr length p = (addr / p + 1) * p := by
  have hlt := chunkStart_lt addr hp
  have hadd := pageBase_add_chunkStart addr p
  unfold pageBase pageOf at hadd
  unfold chunkLen at h ⊢
  rw [Nat.add_mul, Nat.one_mul]
  omega

theorem chunkStart_of_chunk_end {addr length p : Nat} (hp : 0 < p) (h : 0 < length - chunkLen addr length p) :
    chunkStart (addr + chunkLen addr length p) p = 0 := by
  rw [page_of_chunk_end hp (Nat.lt_of_sub_pos h), chunkStart_eq_mod, Nat.mul_mod_left]

/-- The call that writes all that is left ends inside its page. -/
theorem page_of_region_end {addr length p : Nat} (hp : 0 < p) (hl : 0 < length) (h : chunkLen addr length p = length) :
    (addr + length - 1) / p = addr / p := by
  have hwin := chunk_window (addr := addr) (length := length) hp
  have hadd := pageBase_add_chunkStart addr p
  unfold pageBase pageOf at hadd
  rw [Nat.div_eq_iff hp]
  omega

/-- `fuel` = `length` calls are enough. -/
theorem regionRun_regionCalls {p fuel length : Nat} (hp : 0 < p) (hf : length ≤ fuel) (addr : Nat) :
    RegionRun p addr length (regionCalls p fuel addr length) := by
  induction fuel generalizing addr length with
  | zero =>
    obtain rfl : length = 0 := by omega
    exact .done addr
  | succ fuel ih =>
    rw [regionCalls]
    split
    next h => exact h ▸ .done addr
    next h =>
      have := chunkLen_pos hp addr (Nat.pos_of_ne_zero h)
      exact .call (Nat.pos_of_ne_zero h) (ih (by omega) _)

section
variable {p addr length : Nat} {calls : List (Nat × Nat × Nat)}

theorem RegionRun.sum_consumed (h : RegionRun p addr length calls) :
    (calls.map fun c => c.2.2).sum = length := by
  induction h with
  | done addr => rfl
  | @call addr length _ _ _ ih =>
    rw [List.map_cons, List.sum_cons, ih]
    exact Nat.add_sub_of_le (chunkLen_le addr length p)

/-- One call for each page from that of the first byte to that of the last. -/
theorem RegionRun.length_eq (hp : 0 < p) (h : RegionRun p addr length calls) :
    calls.length = if length = 0 then 0 else (addr + length - 1) / p - addr / p + 1 := by
  induction h with
  | done addr => rfl
  | @call addr length _ hl _ ih =>
    rw [List.length_cons, ih, if_neg (by omega : length ≠ 0)]
    have hle := chunkLen_le addr length p
    by_cases hlast : chunkLen addr length p = length
    · rw [if_pos (by omega), page_of_region_end hp hl hlast, Nat.sub_self]
    · have hend := page_of_chunk_end hp (by omega : chunkLen addr length p < length)
      have hnext : (addr + chunkLen addr length p) / p = addr / p + 1 := by rw [hend, Nat.mul_div_cancel _ hp]
      have hmono : addr / p + 1 ≤ (addr + length - 1) / p := by
        rw [← hnext]
        exact Nat.div_le_div_right (by omega)
      rw [if_neg (by omega), hnext,
        show addr + chunkLen addr length p + (length - chunkLen addr length p) = addr + length by omega]
      omega

theorem RegionRun.call_within_page (hp : 0 < p) (h : RegionRun p addr length calls) :
    ∀ c ∈ calls, 1 ≤ c.2.2 ∧ c.2.2 = chunkLen c.1 c.2.1 p ∧ c.2.2 ≤ p - chunkStart c.1 p := by
  induction h with
  | done addr => simp
  | call hl _ ih => exact List.forall_mem_cons.mpr ⟨⟨chunkLen_pos hp _ hl, rfl, Nat.min_le_right ..⟩, ih⟩

/-- From an aligned address on every call is aligned, since a call that leaves something ends its page. -/
theorem RegionRun.aligned (hp : 0 < p) (h : RegionRun p addr length calls) (ha : 0 < length → chunkStart addr p = 0) :
    ∀ c ∈ calls, chunkStart c.1 p = 0 := by
  induction h with
  | done addr => simp
  | call hl _ ih => exact List.forall_mem_cons.mpr ⟨ha hl, ih fun hleft => chunkStart_of_chunk_end hp hleft⟩

theorem RegionRun.aligned_drop_one (hp : 0 < p) (h : RegionRun p addr length calls) :
    ∀ c ∈ calls.drop 1, chunkStart c.1 p = 0 := by
  cases h with
  | done => simp
  | call _ rest => exact rest.aligned hp fun hleft => chunkStart_of_chunk_end hp hleft

/-- Each call begins where those before it end. -/
theorem RegionRun.address_eq (h : RegionRun p addr length calls)
    (k : Nat) (hk : k < calls.length) : calls[k].1 = addr + ((calls.take k).map fun c => c.2.2).sum := by
  induction h generalizing k with
  | done => simp at hk
  | call _ _ ih =>
    cases k with
    | zero => rfl
    | succ k =>
      rw [List.getElem_cons_succ, ih k (by simpa using hk), List.take_succ_cons, List.map_cons, List.sum_cons, Nat.add_assoc]

end

/-- Settles O40: by induction on the loop of `write_region`. -/
theorem regionCallsCoverEachPageOnce : Obligations.RegionCallsCoverEachPageOnce := by
  intro addr length p hp
  have h := regionRun_regionCalls hp (Nat.le_refl length) addr
  exact ⟨h.sum_consumed, h.length_eq hp, h.call_within_page hp, h.aligned_drop_one hp, h.address_eq⟩

end Sys2Proof.Machine
end

section
/-! PROOFS about the page write, second part: `FLASH_CHUNK`, which succeeds (R220, R226) or ends where the first of its three
flash operations is rejected (R223). -/

namespace Sys2Proof.Machine

variable {α : Type}

/-! ## Admission (R238) -/

theorem admit_flashChunk {s : State} (h : admissionTable 0x40#8 s = none) :
    opFlashChunk.admission (s.start 0x40#8) = none :=
  (admit_eq_table (op := 0x40#8) (i := .flashChunk) (s.start 0x40#8) rfl rfl).trans h

/-- An admitted page has at least one byte (R30). -/
theorem pageSize_pos {s : State} (h : admissionTable 0x40#8 s = none) : 0 < s.pageSize.toNat := by
  have hchecks := firstFailure_eq_none (admit_flashChunk h)
  simp only [opFlashChunk, chunkChecks, List.forall_mem_cons, Bool.and_eq_true, isPow2_iff] at hchecks
  obtain ⟨-, ⟨⟨k, -, hk⟩, -⟩, -⟩ := hchecks
  have hk : s.pageSize.toNat = 2 ^ k := hk
  exact hk ▸ Nat.two_pow_pos k

/-! ## The page image (R226) -/

theorem getElem?_pageImage {old src : List Byte} {start : Nat} (h : start + src.length ≤ old.length) {i : Nat}
    (hi : i < old.length) :
    (pageImage old start src)[i]? = if start ≤ i ∧ i < start + src.length then src[i - start]? else old[i]? := by
  have hold : ∀ j < old.length, (Memory.writeList [] 0 old).read j = old[j]? := fun j hj => by
    rw [Memory.read_writeList, if_pos (by omega), Nat.sub_zero]
  rw [← read_overlay h hold i hi, Memory.read_writeList, hold i hi]

theorem length_readBytesOf {n length : Nat} {as : List ReadAnswer} (h : readAnswersOk n length as = true) :
    (readBytesOf as).length = length := by
  induction as generalizing length with
  | nil =>
    obtain rfl : length = 0 := by simpa [readAnswersOk] using h
    rfl
  | cons a as ih =>
    obtain ⟨-, hdata, hrest⟩ := readAnswersOk_cons h
    have hcons : readBytesOf (a :: as) = a.data.map Given.value ++ readBytesOf as := List.flatMap_cons
    rw [hcons, List.length_append, List.length_map, hdata, ih hrest]
    omega

/-- The image is the source bytes in the window and the bytes read from the target around it; a request that covers the page
leaves no byte around it. -/
theorem getElem?_chunkImage {a : ChunkAnswer} {s : State} {n addr length p : Nat} (hp : 0 < p)
    (hread : readsFirst addr length p = true → readAnswersOk n p a.read = true) {i : Nat} (hi : i < p) :
    (chunkImage a s addr length p)[i]? =
      if chunkStart addr p ≤ i ∧ i < chunkStart addr p + chunkLen addr length p then
        (loadedBytes s.buf s.fresh 0 (chunkLen addr length p))[i - chunkStart addr p]?
      else (readBytesOf a.read)[i]? := by
  have hwin := chunk_window (addr := addr) (length := length) hp
  unfold chunkImage chunkOld chunkSource
  cases hr : readsFirst addr length p with
  | true =>
    have hlen := length_readBytesOf (hread hr)
    rw [if_pos rfl, getElem?_pageImage (by rw [length_loadedBytes, hlen]; exact hwin) (by rw [hlen]; exact hi),
      length_loadedBytes]
  | false =>
    obtain ⟨hstart, hcount⟩ := chunk_whole hr
    have hsrc : pageImage [] 0 (loadedBytes s.buf s.fresh 0 p) = loadedBytes s.buf s.fresh 0 p := by simp [pageImage]
    rw [if_neg Bool.false_ne_true, hstart, hcount, hsrc, if_pos (by omega), Nat.sub_zero]

/-- Settles O37: what `flash_chunk` does, run as the command; `chunk_len` is at most a page, so `RES_LEN` holds it. -/
theorem flashChunkCommandRuns : Obligations.FlashChunkCommandRuns := by
  intro s a ⟨hi, _, hb⟩ hadm p addr len first image ok ha
  have hp : 0 < p := pageSize_pos hadm
  obtain ⟨t, ht, hbuf, hlen, hscratch⟩ := goes_flashChunk (s := s.start 0x40#8) s.fpdatAddr (ctlErratumF5 s.familyCtl) hp
    ok hi ha
  have hgoes := ht.bind (f := fun n => .ret ({ resLen := some (BitVec.ofNat 32 n) } : Results)) (goes_ret _ ht.2.idle)
  rw [List.append_nil] at hgoes
  have hx : runOperation 0x40#8 opFlashChunk s = t.succeed { resLen := some (BitVec.ofNat 32 (chunkLen addr len p)) } :=
    runOperation_goes hb (admit_flashChunk hadm) hgoes
  have hread : readsFirst addr len p = true → readAnswersOk s.pollOut.toNat p a.read = true := fun hr => by
    simp only [ChunkAnswer.ok, Bool.and_eq_true, Bool.or_eq_true, Bool.not_eq_true'] at ok
    obtain ⟨⟨hread, -⟩, -⟩ := ok
    exact hread.resolve_left (by simp [first, hr])
  have hfits : chunkLen addr len p < 2 ^ 32 := by
    have hwin := chunk_window (addr := addr) (length := len) hp
    have hword : p < 2 ^ 32 := s.pageSize.isLt
    omega
  exact ⟨hlen, fun i hip => getElem?_chunkImage hp hread hip, _, congrArg Host.Outcome.next hx,
    succeed_onWire _ hgoes.2, succeeded (run_samePort_of hgoes.1) rfl rfl,
    (BitVec.toNat_ofNat ..).trans (Nat.mod_eq_of_lt hfits), fun i => by rw [State.succeed_buf, hbuf]; rfl,
    fun i => by rw [State.succeed_scratch, hscratch]; rfl⟩

/-! ## A rejection inside the cycle (R223) -/

/-- Steps 3 and 4 of `flash_chunk`: the page image comes into SCRATCH (R220). -/
def fillImage (n : Nat) (fpdat : Byte) (addr length p : Nat) : Prog Unit :=
  (if readsFirst addr length p then blockRead n fpdat (pageBase addr p) p .scratch else .ret ()).andThen <|
    overlay (chunkStart addr p) (chunkLen addr length p)

/-- Steps 5 to 7: the page is erased and the image written to it (R220). -/
theorem flashChunk_eq_fillImage (n : Nat) (fpdat : Byte) (erratum : Bit) (addr length p : Nat) :
    flashChunk n fpdat erratum addr length p =
      (fillImage n fpdat addr length p).andThen ((erasePage n fpdat erratum (BitVec.ofNat 8 (pageOf addr p))).andThen
        ((blockWrite n fpdat (pageBase addr p) p .scratch).andThen (.ret (chunkLen addr length p)))) :=
  (bind_assoc ..).symm

/-- The frames of step 3 (R220, R222). -/
def pageReadXacts (fpdat : Byte) (addr length p : Nat) (as : List ReadAnswer) : List Xact :=
  if readsFirst addr length p then .wa fpdat :: readBlockXacts (pageBase addr p) p as else []

theorem goes_pageRead {n : Nat} (fpdat : Byte) {addr length p : Nat} {as : List ReadAnswer} {s : State}
    (hread : readsFirst addr length p = true → readAnswersOk n p as = true) (hi : LinesIdle s)
    (ha : Answers s (pageReadXacts fpdat addr length p as)) :
    ∃ t, Goes (if readsFirst addr length p then blockRead n fpdat (pageBase addr p) p .scratch else .ret ()) s ()
      (pageReadXacts fpdat addr length p as) t ∧ t.buf = s.buf := by
  unfold pageReadXacts at ha ⊢
  cases hr : readsFirst addr length p with
  | true =>
    rw [hr] at ha
    obtain ⟨t, ht, ⟨-, -, hbuf⟩, -⟩ := goes_blockRead fpdat .scratch (hread hr) hi ha
    exact ⟨t, ht, hbuf⟩
  | false => exact ⟨s, goes_ret () hi, rfl⟩

/-- The overlay, which follows the page read, puts nothing on the wire. -/
theorem goes_fillImage {n : Nat} (fpdat : Byte) {addr length p : Nat} {as : List ReadAnswer} {s : State}
    (hread : readsFirst addr length p = true → readAnswersOk n p as = true) (hi : LinesIdle s)
    (ha : Answers s (pageReadXacts fpdat addr length p as)) :
    ∃ t, Goes (fillImage n fpdat addr length p) s () (pageReadXacts fpdat addr length p as) t ∧ t.buf = s.buf := by
  obtain ⟨t, ht, hbuf⟩ := goes_pageRead fpdat hread hi ha
  obtain ⟨u, hu, hbuf', -⟩ := goes_overlay (chunkStart addr p) (chunkLen addr length p) 0 ht.2.idle
  have hgoes := ht.andThen hu
  rw [List.append_nil] at hgoes
  exact ⟨u, hgoes, hbuf'.trans hbuf⟩

/-- An admitted `FLASH_CHUNK` whose procedure is a part that returned and left BUF alone, and then one that is rejected. -/
theorem flashChunk_rejectedAfter {s t : State} {xs ys : List Xact} {p : Prog α} {v : α} {f : α → Prog Nat} (hr : Ready s)
    (hadm : admissionTable 0x40#8 s = none)
    (hsplit : flashChunk s.pollOut.toNat s.fpdatAddr (ctlErratumF5 s.familyCtl) s.addr.toNat s.len.toNat s.pageSize.toNat =
      p.bind f)
    (hgoes : Goes p (s.start 0x40#8) v xs t) (hbuf : t.buf = s.buf) (hfail : DoesFail (f v) .protocolRejected ys)
    (ha : Answers s (xs ++ ys)) :
    ∃ t, exec .flashChunk s = .next t ∧ OnWire s t (xs ++ ys) ∧ FailedWith s t .protocolRejected false := by
  obtain ⟨u, hrun, hw, hquiet, -⟩ := hgoes.bindFail hfail ha
  rw [← hsplit] at hrun
  have hx := command_runFails hr.2.2 (admit_flashChunk hadm) (run_bind_failed _ hrun) hw (hquiet.trans hbuf)
  exact ⟨_, rfl, hx⟩

/-- Settles O38: each of the three operations begins with the selection and its verified command byte, and what comes before
it has returned. -/
theorem flashChunkRejectedInsideItsCycle : Obligations.FlashChunkRejectedInsideItsCycle := by
  intro s a x g hr hadm hx hg hv p addr erratum first pageRead erase rejected endsWith
  have hi := linesIdle_start hr.1 0x40#8
  have hp : 0 < p := pageSize_pos hadm
  have hbyte := fun b => doesFail_piVerified hx hg hv b
  have hsplit := flashChunk_eq_fillImage s.pollOut.toNat s.fpdatAddr erratum addr s.len.toNat p
  refine ⟨fun hfirst ha => ?_, fun hread ha => ?_, fun hread herase ha => ?_⟩
  · refine flashChunk_rejectedAfter (f := fun _ => flashChunk ..) hr hadm rfl (goes_ret () hi) rfl ?_ ha
    unfold flashChunk
    rw [if_pos hfirst]
    exact doesFail_selected _ (doesFail_blockLoop (fun _ _ _ => ((hbyte _).andThen _).andThen _) hp _ _) _
  · obtain ⟨t, ht, hbuf⟩ := goes_fillImage s.fpdatAddr hread hi ha.left
    exact flashChunk_rejectedAfter hr hadm hsplit ht hbuf
      (doesFail_selected _ (((hbyte _).andThen _).andThen _) _) ha
  · obtain ⟨t, ht, hbuf⟩ := goes_fillImage s.fpdatAddr hread hi ha.left.left
    obtain ⟨u, hu, hquiet, -⟩ := (does_erasePage herase s.fpdatAddr (BitVec.ofNat 8 (pageOf addr p))).goes ht.2.idle
      (ha.left.right ht.2)
    exact flashChunk_rejectedAfter hr hadm (hsplit.trans (bind_assoc ..).symm) (ht.andThen hu) (hquiet.1.trans hbuf)
      (doesFail_selected _ (doesFail_blockLoop (fun _ _ _ => ((hbyte _).andThen _).andThen _) hp _ _) _) ha

end Sys2Proof.Machine
end

section
/-! PROOFS about the command port (45_host_commands.md): what a step does with a command or a code of a lower layer (R235), that
a write of CMD goes by the admission table (R238), and that every host command ends (R236, R237). -/

namespace Sys2Proof.Machine

/-! ## A step takes the next move (R90, R235) -/

theorem step_port {s : State} {m : PortMove} {rest : List PortMove} (hp : s.port = m :: rest) :
    step s = takeMove m { s with port := rest } := by
  simp only [step, hp]

theorem takeMove_run {op : Byte} {i : Instr} (h : decodeHost op = .ok i) (s : State) : takeMove (.run op) s = exec i s := by
  simp only [takeMove, h]

theorem takeMove_layer {sp : Space} {bytes tail : List Byte} {i : Instr} (h : decode sp bytes = .ok (i, tail)) (s : State) :
    takeMove (.layer sp bytes) s = exec i s := by
  simp only [takeMove, h]

theorem decodeHost_of_decode {b : Byte} {bytes tail : List Byte} {i : Instr}
    (h : decode .host (b :: bytes) = .ok (i, tail)) : decodeHost b = .ok i := by
  change oneByte decodeHost (b :: bytes) = _ at h
  simp only [oneByte] at h
  split at h
  next hb => cases h; exact hb
  next => cases h

/-- The move of a table word runs what the word decodes to, by whichever layer it goes (log 11). -/
theorem takeMove_fetchMove {nbits w : Nat} {i : Instr} (h : decodeTableWord nbits w = some i) (s : State) :
    takeMove (fetchMove nbits w) s = exec i s := by
  unfold decodeTableWord at h
  split at h
  next tail hd =>
    cases h
    unfold fetchMove
    split
    next hcode => rw [hcode] at hd; exact takeMove_run (decodeHost_of_decode hd) s
    next hcode => rw [hcode] at hd; exact takeMove_layer hd s
  next => cases h

/-- Settles O58, move by move. -/
theorem stepRunsTheDecodedInstruction : Obligations.StepRunsTheDecodedInstruction :=
  ⟨fun _ _ _ _ hp hd => (step_port hp).trans (takeMove_run hd _),
    fun _ _ _ _ _ _ hp hd => (step_port hp).trans (takeMove_layer hd _),
    fun s _ _ _ hd => (step_port rfl).trans (takeMove_fetchMove hd s.idled)⟩

/-! ## The start of a command (R235, R238) -/

section
variable {s : State} (hb : s.busy = false) {op : Byte} {o : Operation} {k : FailKind}
include hb

theorem startOperation_refused (ha : o.admission (s.start op) = some k) :
    startOperation op o s = (s.start op).fail k (s.start op).bufIsDest := by
  simp [startOperation, hb, ha]

theorem startOperation_admitted (ha : o.admission (s.start op) = none) : startOperation op o s = s.start op := by
  simp [startOperation, hb, ha]

theorem runOperation_refused (ha : o.admission (s.start op) = some k) :
    runOperation op o s = (s.start op).fail k (s.start op).bufIsDest := by
  simp [runOperation, hb, ha]

theorem runOperation_admitted (ha : o.admission (s.start op) = none) :
    runOperation op o s = conclude ((o.prog (s.start op)).run (s.start op)) := by
  simp [runOperation, hb, ha]

theorem illegalCommand_idle (op : Byte) :
    illegalCommand op s = (s.start op).fail .illegalCommand (s.start op).bufIsDest := by
  simp [illegalCommand, hb]

end

theorem startCommand_illegal {op : Byte} {e : DecodeError} (h : decodeHost op = .error e) (s : State) :
    startCommand op s = illegalCommand op s := by
  simp only [startCommand, operationOf, h]

theorem admissionTable_illegal {op : Byte} {e : DecodeError} (h : decodeHost op = .error e) (s : State) :
    admissionTable op s = some .illegalCommand := by
  simp only [admissionTable, h]

/-- A request that the table refuses ends at once, whether the host waits for it or not. -/
theorem startCommand_refused {s : State} (hb : s.busy = false) {op : Byte} {k : FailKind}
    (h : admissionTable op s = some k) :
    startCommand op s = (s.start op).fail k (s.start op).bufIsDest ∧
      takeMove (.run op) s = .next (startCommand op s) := by
  cases hd : decodeHost op with
  | error e =>
    obtain rfl : FailKind.illegalCommand = k := Option.some.inj ((admissionTable_illegal hd s).symm.trans h)
    rw [startCommand_illegal hd]
    exact ⟨illegalCommand_idle hb op, by simp only [takeMove, hd]⟩
  | ok i =>
    obtain ⟨o, hi, ho, hexec⟩ := exec_host hd
    have ha : o.admission (s.start op) = some k := (admit_eq_table (s.start op) hd hi).trans h
    rw [startCommand_eq ho, takeMove_run hd, hexec, runOperation_refused hb ha, startOperation_refused hb ha]
    exact ⟨rfl, rfl⟩

theorem startCommand_admitted {s : State} (hb : s.busy = false) {op : Byte} (h : admissionTable op s = none) :
    startCommand op s = s.start op := by
  cases hd : decodeHost op with
  | error e => rw [admissionTable_illegal hd] at h; cases h
  | ok i =>
    obtain ⟨o, hi, ho, -⟩ := exec_host hd
    rw [startCommand_eq ho, startOperation_admitted hb ((admit_eq_table (s.start op) hd hi).trans h)]

theorem start_onWire {s : State} (hi : LinesIdle s) (op : Byte) : OnWireEvents s (s.start op) [] 0 := by
  simp [OnWireEvents, linesIdle_start hi]

/-- Settles O43: a refused command is started and failed, an admitted one started. -/
theorem admissionGoesByTheTable : Obligations.AdmissionGoesByTheTable := by
  rintro s op ⟨hi, -, hb⟩
  have hwire := start_onWire hi op
  refine ⟨fun k h => ?_, fun h => ?_⟩
  · rw [(startCommand_refused hb h).1]
    exact ⟨failedWith (SamePort.refl (s.start op)) k _ fun _ _ => rfl, fail_onWire (op := op) k _ hwire, fun rest hp =>
      (step_port hp).trans (startCommand_refused (s := { s with port := rest }) hb h).2⟩
  · have hsame := sameInputs_of_samePort (SamePort.refl s)
    rw [startCommand_admitted hb h]
    exact ⟨rfl, rfl, statusBusy_start _, statusDone_start _, statusErr_start _, hwire, hsame, ⟨rfl, rfl, rfl⟩,
      fun _ => rfl, fun _ => rfl⟩

/-! ## The end of a command (R236, R237, R259) -/

/-- The codes of the kinds the core raises (R250). -/
theorem code_raised {k : FailKind} (h : k ≠ .storageIo) : k.code ≠ 0#3 ∧ k.code ∈ [0#3, 1#3, 2#3, 3#3, 7#3] := by
  cases k
  case storageIo => exact absurd rfl h
  all_goals decide

section
variable {s : State} {op : Byte} {i : Instr} {o : Operation}

/-- Only the two identifications return captures, and they always do (R110). -/
theorem operation_captures (h : operationOfInstr i = some o) {u t : State} {v : Results}
    (hr : (o.prog s).run u = (.ok v, t)) :
    v.device.isSome = decide (i = .getDeviceInfo) ∧ v.pi.isSome = decide (i = .getPiInfo) := by
  cases i <;> simp only [operationOfInstr, Option.some.injEq, reduceCtorEq] at h <;> subst h
  all_goals
    obtain ⟨_, _, -, hret⟩ := run_bind_inv_ok hr
    cases hret
    exact ⟨rfl, rfl⟩

theorem linesIdle_conclude {r : Ending Results × State} (h : LinesIdle r.2) : LinesIdle (conclude r) := by
  rcases r with ⟨v | k, t⟩ <;> exact h

theorem conclude_cmd (r : Ending Results × State) : (conclude r).cmd = r.2.cmd := by
  rcases r with ⟨v | k, t⟩ <;> rfl

theorem linesIdle_runOperation (hr : Ready s) (h2 : operationOfInstr i = some o) : LinesIdle (runOperation op o s) := by
  obtain ⟨hi, -, hb⟩ := hr
  have hstart := linesIdle_start hi op
  cases ha : o.admission (s.start op) with
  | some k => rw [runOperation_refused hb ha]; exact hstart
  | none =>
    rw [runOperation_admitted hb ha]
    exact linesIdle_conclude (linesIdle_run (by rw [hstart.1, hstart.2]; exact operation_safe h2 ha))

theorem runOperation_cmd (hb : s.busy = false) : (runOperation op o s).cmd = op := by
  cases ha : o.admission (s.start op) with
  | some k => rw [runOperation_refused hb ha]; rfl
  | none =>
    obtain ⟨hcmd, -⟩ := run_samePort (o.prog (s.start op)) (s.start op)
    rw [runOperation_admitted hb ha, conclude_cmd, hcmd, State.start_cmd]

/-- A command that fails does so with a kind the core raises and leaves what a failure leaves; else its procedure returned. -/
theorem runOperation_ends (hb : s.busy = false) (h1 : decodeHost op = .ok i) (h2 : operationOfInstr i = some o) :
    (∃ k, k ≠ .storageIo ∧ FailedWith s (runOperation op o s) k (s.start op).bufIsDest) ∨
      ∃ v t, (o.prog (s.start op)).run (s.start op) = (.ok v, t) ∧ runOperation op o s = t.succeed v := by
  cases ha : o.admission (s.start op) with
  | some k =>
    rw [runOperation_refused hb ha]
    refine .inl ⟨k, ?_, failedWith (SamePort.refl (s.start op)) k _ fun _ _ => rfl⟩
    rcases admission_kind h1 h2 ha with rfl | rfl <;> simp
  | none =>
    rcases hrun : (o.prog (s.start op)).run (s.start op) with ⟨v | k, t⟩
    · exact .inr ⟨v, t, rfl, by rw [runOperation_admitted hb ha, hrun]; rfl⟩
    · have hport := run_samePort_of hrun
      have he : runOperation op o s = t.fail k (s.start op).bufIsDest := by
        rw [runOperation_admitted hb ha, hrun, conclude, bufIsDest_of_samePort hport]
      have hbuf : (s.start op).bufIsDest = false → SameBuf s t := fun hd j => by
        have hkept := runOperation_buf hb h1 h2 (mt (bufIsDest_start h1 s).mpr (by simp [hd]))
        rw [he, State.fail_buf, hd] at hkept
        exact congrArg (Memory.read · j) hkept
      rw [he]
      exact .inl ⟨k, (operation_uses h2 _).kind hrun, failedWith hport k _ hbuf⟩

end

/-- Settles O48: a command fails, by an admission check or in its procedure, or it returns, and then captures what its row of
the opcode table says. -/
theorem everyHostCommandEnds : Obligations.EveryHostCommandEnds := by
  intro s op i hr hd
  obtain ⟨o, ho, -, hexec⟩ := exec_host hd
  have hidle := linesIdle_runOperation (op := op) hr ho
  have hcmd := runOperation_cmd (op := op) (o := o) hr.2.2
  refine ⟨runOperation op o s, ?_⟩
  rcases runOperation_ends hr.2.2 hd ho with ⟨k, hk, hend, hin, hdev, hpi, -⟩ | ⟨v, t, hrun, he⟩
  · obtain ⟨hne, hcode⟩ := code_raised hk
    exact ⟨k.code, hexec s, hcode, hidle, hin, hcmd, by simpa [hne] using hend, fun _ => hdev, fun _ => hpi⟩
  · have hport := run_samePort_of hrun
    obtain ⟨hdevice, hpi⟩ := operation_captures ho hrun
    have hend := ended_succeed hport v
    rw [hdevice, hpi, Bool.or_comm, Bool.or_comm (decide _)] at hend
    rw [he] at hidle hcmd ⊢
    refine ⟨0#3, (hexec s).trans (congrArg _ he), by simp, hidle, sameInputs_succeed hport v, hcmd, by simpa using hend,
      fun h => sameDevice_succeed hport ?_, fun h => samePi_succeed hport ?_⟩
    · simpa [mt (And.intro · rfl) h] using hdevice
    · simpa [mt (And.intro · rfl) h] using hpi

end Sys2Proof.Machine
end

section
/-! PROOFS about reset and hazards (70_reset_and_hazards.md): reset at any moment (R280, U20), and bounds on the strobes a
procedure makes whatever the target answers (R251, R301). -/

namespace Sys2Proof.Machine

/-! ## Reset (R280) -/

/-- Reset is taken in every state. -/
theorem step_reset {s : State} {rest : List PortMove} (hp : s.port = .reset :: rest) :
    step s = .next { s with port := rest }.resetCore :=
  step_port hp

theorem resetCore_ready (s : State) : Ready s.resetCore :=
  ⟨⟨rfl, rfl⟩, rfl, (by decide : statusBusy 0x00#8 = false)⟩

@[simp] theorem State.resetCore_line (s : State) (k : Nat) : s.resetCore.line k = s.line k := rfl

/-- Settles O53: the core's values are those of the reset table (O52); the moves that follow and the line stay. -/
theorem resetAtAnyMoment : Obligations.ResetAtAnyMoment := by
  intro s rest hp
  obtain ⟨-, -, hpullup, hseq, hstatus, hpoll, hfamily, hfpctl, htrace⟩ := resetGivesTheTable
  exact ⟨_, step_reset hp, resetCore_ready _, hpullup, hseq, hstatus, hpoll, hfamily, hfpctl, htrace,
    fun _ => ⟨rfl, rfl⟩, rfl, State.resetCore_line _⟩

/-! ## Bounds on strobes (R301) -/

variable {α β : Type}

/-- From every state, so whatever the target answers, the procedure puts at most `n` strobes on the wire, whether it returns
or fails. -/
def StrobesAtMost (p : Prog α) (n : Nat) : Prop :=
  ∀ s, ∃ es, (p.run s).2.trace = s.trace ++ es ∧ strobeCount es ≤ n

/-- A part that fails ends the composition, with fewer strobes still. -/
theorem StrobesAtMost.bind {p : Prog α} {f : α → Prog β} {n m : Nat} (hp : StrobesAtMost p n)
    (hf : ∀ a, StrobesAtMost (f a) m) : StrobesAtMost (p.bind f) (n + m) := by
  intro s
  obtain ⟨es, htrace, hcount⟩ := hp s
  rcases hrun : p.run s with ⟨a | k, t⟩ <;> rw [hrun] at htrace
  · obtain ⟨fs, htrace', hcount'⟩ := hf a t
    refine ⟨es ++ fs, ?_, ?_⟩
    · rw [run_bind_ok f hrun, htrace', htrace, List.append_assoc]
    · rw [strobeCount_measure.append]
      exact Nat.add_le_add hcount hcount'
  · exact ⟨es, by rw [run_bind_failed f hrun, htrace], Nat.le_add_right_of_le hcount⟩

theorem StrobesAtMost.andThen {p : Prog α} {q : Prog β} {n m : Nat} (hp : StrobesAtMost p n) (hq : StrobesAtMost q m) :
    StrobesAtMost (p.andThen q) (n + m) :=
  hp.bind fun _ => hq

theorem StrobesAtMost.mono {p : Prog α} {n m : Nat} (h : StrobesAtMost p n) (hnm : n ≤ m) : StrobesAtMost p m := fun s =>
  (h s).imp fun _ ⟨htrace, hcount⟩ => ⟨htrace, hcount.trans hnm⟩

/-! ### The procedures of the transport -/

/-- No event, no strobe. -/
theorem StrobesAtMost.of_trace {p : Prog α} (h : ∀ s, (p.run s).2.trace = s.trace) : StrobesAtMost p 0 := fun s =>
  ⟨[], by rw [h, List.append_nil], Nat.le_refl _⟩

theorem strobes_ret (a : α) : StrobesAtMost (.ret a) 0 := .of_trace fun _ => rfl
theorem strobes_raise (k : FailKind) : StrobesAtMost (.raise k : Prog α) 0 := .of_trace fun _ => rfl
theorem strobes_startField : StrobesAtMost (act .startField) 0 := .of_trace fun _ => rfl
theorem strobes_clearTry : StrobesAtMost (act .clearTry) 0 := .of_trace fun _ => rfl
theorem strobes_countTry : StrobesAtMost (act .countTry) 0 := .of_trace fun _ => rfl

theorem strobes_delay {n : Nat} (h : n ≠ 0) : StrobesAtMost (delay n) 0 := fun s =>
  ⟨_, congrArg (·.2.trace) (run_delay h s), by simp [strobeCount]⟩

theorem strobes_release : StrobesAtMost (setData .z) 0 := fun s =>
  ⟨_, congrArg (·.2.trace) (run_release s), strobeCount_measure.release.le⟩

theorem strobes_idleField : StrobesAtMost idleField 1 := fun s =>
  ⟨_, congrArg (·.2.trace) (run_idleField s), strobeCount_measure.strobe.le⟩

theorem strobes_recvBit : StrobesAtMost recvBit 1 := fun s =>
  ⟨_, congrArg (·.2.trace) (run_recvBit s), (strobeCount_measure.sampled _).le⟩

theorem strobes_sendPair (f : BitVec 2) : StrobesAtMost (sendPair f) 2 := fun s =>
  ⟨_, congrArg (·.2.trace) (run_sendPair f s), by
    rw [strobeCount_measure.append, strobeCount_measure.driven, strobeCount_measure.driven]⟩

theorem strobes_sendByte (v : Byte) : StrobesAtMost (sendByte v) 8 := fun s =>
  ⟨_, congrArg (·.2.trace) (run_sendByte v s), (strobeCount_measure.sendByte v).le⟩

theorem strobes_recvByte : StrobesAtMost recvByte 8 := fun s =>
  ⟨_, congrArg (·.2.trace) (run_recvByte s), (strobeCount_measure.recvByte _).le⟩

/-! ### Polls, whose budget bounds the tries (R251) -/

/-- No try is made past the budget, and a gap has no strobe. -/
theorem strobes_pollTries {gap : Nat} (hgap : gap ≠ 0) {attempt : Prog Bit} {m : Nat} (h : StrobesAtMost attempt m)
    (tries : Nat) : StrobesAtMost (pollTries gap attempt tries) (tries * m) := by
  induction tries with
  | zero => exact (strobes_raise _).mono (Nat.zero_le _)
  | succ n ih =>
    have hrest : ∀ passed : Bit, StrobesAtMost
        (if passed then .ret () else if n = 0 then .raise .busTimeout else (delay gap).andThen (pollTries gap attempt n))
        (0 + n * m) := by
      intro passed
      split
      · exact (strobes_ret _).mono (Nat.zero_le _)
      · split
        · exact (strobes_raise _).mono (Nat.zero_le _)
        · exact (strobes_delay hgap).andThen ih
    exact (h.bind fun passed => strobes_countTry.andThen (hrest passed)).mono (by rw [Nat.succ_mul]; omega)

theorem strobes_poll {gap : Nat} (hgap : gap ≠ 0) {attempt : Prog Bit} {m : Nat} (h : StrobesAtMost attempt m)
    (tries : Nat) : StrobesAtMost (poll gap attempt tries) (tries * m) :=
  (strobes_clearTry.andThen (strobes_pollTries hgap h tries)).mono (Nat.zero_add _).le

/-- A WAIT field: one strobe a try. -/
theorem strobes_waitField (tries : Nat) : StrobesAtMost (waitField tries) tries :=
  (strobes_startField.andThen (strobes_poll (by decide) strobes_recvBit tries)).mono (by omega)

/-! ### Frames and PI primitives, bounded by the sum of their parts -/

theorem strobes_readAr : StrobesAtMost readAr 12 := fun s =>
  ⟨_, congrArg (·.2.trace) (run_readAr s), (strobeCount_measure.readAr _).le⟩

theorem strobes_writeDr (d : Byte) : StrobesAtMost (writeDr d) 34 :=
  strobes_idleField.andThen <| (strobes_sendPair _).andThen <| (strobes_sendPair _).andThen <|
    (strobes_sendByte d).andThen <| strobes_release.andThen <|
    (strobes_waitField Config.waitTriesWr).andThen strobes_idleField

theorem strobes_readDr : StrobesAtMost readDr 64 :=
  strobes_idleField.andThen <| (strobes_sendPair _).andThen <| (strobes_sendPair _).andThen <|
    strobes_release.andThen <| (strobes_waitField Config.waitTriesRd).andThen <|
    strobes_recvByte.bind fun _ => strobes_idleField.andThen (strobes_ret _)

/-- A poll of the AR: 12 strobes a try, whatever of the byte is tested. -/
theorem strobes_arPoll {gap : Nat} (hgap : gap ≠ 0) (test : Byte → Bit) (tries : Nat) :
    StrobesAtMost (poll gap (readAr.bind fun r => .ret (test r)) tries) (tries * 12) :=
  strobes_poll hgap (strobes_readAr.bind fun _ => strobes_ret _) tries

theorem strobes_piWrite (b : Byte) : StrobesAtMost (piWrite b) (34 + 20 * 12) :=
  (strobes_writeDr b).andThen (strobes_arPoll (by decide) _ Config.busyTries)

theorem strobes_piGet (n : Nat) : StrobesAtMost (piGet n) (64 + n * 12) :=
  ((strobes_arPoll (by decide) _ n).andThen strobes_readDr).mono (Nat.add_comm _ _).le

/-- Settles O42: a bound for each field, summed over the parts of a frame and multiplied by the budget of a poll. -/
theorem strobesAreBounded : Obligations.StrobesAreBounded := fun s b n =>
  ⟨strobes_writeDr b s, strobes_readDr s, strobes_piWrite b s, strobes_piGet n s⟩

end Sys2Proof.Machine
end
